-- ==== Sys2Proof/Word.lean ====
section
/-! DEFINITION. The word types of the cnMIPS core (00_scope.md R8, R9, R13): bytes, 64-bit register
values and addresses, 32-bit instruction words, and the fields of an instruction word. -/

namespace Sys2Proof

/-- A byte: 8 bits (00_scope.md R8). -/
abbrev Byte := BitVec 8

/-- A general register's value, or an address: 64 bits (00_scope.md R8; 10_state.md R20, R24). -/
abbrev Word := BitVec 64

/-- An instruction word: 32 bits (30_encoding.md R100). -/
abbrev InsnWord := BitVec 32

/-- A field that names a general register (rs, rt, rd, base): 5 bits (30_encoding.md R101). -/
abbrev Reg := BitVec 5

/-- A field `p` or `lenm1`: 5 bits, unsigned (30_encoding.md R110(b), R110(c)). -/
abbrev Pos := BitVec 5

/-- The immediate field of format F4: 10 bits (30_encoding.md R105). -/
abbrev Imm10 := BitVec 10

/-- The offset field of formats F7 and F8: 16 bits (30_encoding.md R108, R109). -/
abbrev Off16 := BitVec 16

end Sys2Proof
end

