-- ==== Sys2Proof/Config.lean ====
section
/-! DEFINITION. What an implementation or a run fixes, and the free values: the control registers CvmCtl and
CvmMemCtl (10_state.md R31 to R33), the configuration the model starts with, and the values the
manual leaves unpredictable (00_scope.md R12). -/

namespace Sys2Proof

/-- The fields of CvmCtl the source names, each one bit wide (10_state.md R32, Table R32). The register's
whole layout is not in the source, so the fields stand by name. -/
structure CvmCtl where
  /-- Bit 0: with USEUN set, 1 selects the left opcodes in both byte orders. -/
  usely : Bool
  /-- Bit 1: 1 is little-endian, 0 is big-endian (20_memory.md R61). -/
  le : Bool
  /-- Bit 12: enables ULD, ULW, USD and USW (48_unaligned.md R235). -/
  useun : Bool
  /-- Position not given: 1 makes MTM*, MTP*, VMULU, VMM0 and V3MULU raise Reserved Instruction. -/
  nomul : Bool
  /-- Position not given: named for portability only, read by no rule (48_unaligned.md R247). -/
  repun : Bool
  /-- Position not given: named for portability only, read by no rule. -/
  disiocache : Bool
deriving DecidableEq, Repr

/-- The six control bits of CvmMemCtl the source names (10_state.md R33). No rule reads them. -/
structure CvmMemCtl where
  cmvsegenau : Bool
  cmvsegenas : Bool
  xkmemenau : Bool
  xkioenau : Bool
  xkmemenas : Bool
  xkioenas : Bool
deriving DecidableEq, Repr

/-- `use_left` of 48_unaligned.md R236: the unaligned instructions are the left opcodes. -/
def CvmCtl.useLeft (c : CvmCtl) : Bool := c.usely || !c.le

/-- CvmCtl at reset. DESIGN CHOICE (log 4), unsafe: the source gives no reset value; these are the
values 95_test_vectors.md takes unless a line says otherwise. -/
def Config.resetCvmCtl : CvmCtl :=
  { usely := false, le := false, useun := true, nomul := false, repun := false, disiocache := false }

/-- CvmMemCtl at reset. DESIGN CHOICE (log 5), unsafe: the source gives no reset value. -/
def Config.resetCvmMemCtl : CvmMemCtl :=
  { cmvsegenau := false, cmvsegenas := false, xkmemenau := false, xkioenau := false,
    xkmemenas := false, xkioenas := false }

/-- The `k`-th value drawn for a register the manual calls unpredictable (00_scope.md R12(a);
92_eei_decisions.md D6, the alternative "a draw"). It has no body: a statement that holds of the
model holds whatever these values are. Log 8. -/
opaque Config.freeValue : Nat → Word

end Sys2Proof
end

