-- ==== Sys2Proof/Syntax.lean ====
section
/-! DEFINITION. The instructions: one constructor per row of spec/opcode_table.json. Operands stand in the
order of the assembler syntax (30_encoding.md R119). ULD, ULW, USD and USW have two rows each, one
for the left and one for the right major opcode of their pair (30_encoding.md R113, log 33). -/

namespace Sys2Proof

inductive Instr where
  /-- BADDU rd, rs, rt (40_baddu.md R140). -/
  | baddu (rd rs rt : Reg)
  /-- BBIT0 rs, p, offset (41_bbit.md R145). -/
  | bbit0 (rs : Reg) (p : Pos) (offset : Off16)
  /-- BBIT032 rs, p, offset (41_bbit.md R146). -/
  | bbit032 (rs : Reg) (p : Pos) (offset : Off16)
  /-- BBIT1 rs, p, offset (41_bbit.md R147). -/
  | bbit1 (rs : Reg) (p : Pos) (offset : Off16)
  /-- BBIT132 rs, p, offset (41_bbit.md R148). -/
  | bbit132 (rs : Reg) (p : Pos) (offset : Off16)
  /-- CINS rt, rs, p, lenm1 (42_bitfield.md R160). -/
  | cins (rt rs : Reg) (p lenm1 : Pos)
  /-- CINS32 rt, rs, p, lenm1 (42_bitfield.md R161). -/
  | cins32 (rt rs : Reg) (p lenm1 : Pos)
  /-- DMUL rd, rs, rt (43_dmul.md R175). -/
  | dmul (rd rs rt : Reg)
  /-- DPOP rd, rs (44_popcount.md R180). -/
  | dpop (rd rs : Reg)
  /-- EXTS rt, rs, p, lenm1 (42_bitfield.md R162). -/
  | exts (rt rs : Reg) (p lenm1 : Pos)
  /-- EXTS32 rt, rs, p, lenm1 (42_bitfield.md R163). -/
  | exts32 (rt rs : Reg) (p lenm1 : Pos)
  /-- MTM0 rs (45_multiplier_regs.md R190). -/
  | mtm0 (rs : Reg)
  /-- MTM1 rs (45_multiplier_regs.md R191). -/
  | mtm1 (rs : Reg)
  /-- MTM2 rs (45_multiplier_regs.md R192). -/
  | mtm2 (rs : Reg)
  /-- MTP0 rs (45_multiplier_regs.md R193). -/
  | mtp0 (rs : Reg)
  /-- MTP1 rs (45_multiplier_regs.md R194). -/
  | mtp1 (rs : Reg)
  /-- MTP2 rs (45_multiplier_regs.md R195). -/
  | mtp2 (rs : Reg)
  /-- POP rd, rs (44_popcount.md R181). -/
  | pop (rd rs : Reg)
  /-- SEQ rd, rs, rt (46_set_on_equal.md R210). -/
  | seq (rd rs rt : Reg)
  /-- SEQI rt, rs, immediate (46_set_on_equal.md R211). -/
  | seqi (rt rs : Reg) (imm : Imm10)
  /-- SNE rd, rs, rt (46_set_on_equal.md R212). -/
  | sne (rd rs rt : Reg)
  /-- SNEI rt, rs, immediate (46_set_on_equal.md R213). -/
  | snei (rt rs : Reg) (imm : Imm10)
  /-- SYNCIOBDMA (47_sync.md R221). -/
  | synciobdma
  /-- SYNCS (47_sync.md R222). -/
  | syncs
  /-- SYNCW (47_sync.md R223). -/
  | syncw
  /-- SYNCWS (47_sync.md R224). -/
  | syncws
  /-- ULD rt, offset(base) in the left opcode, LDL (48_unaligned.md R237). -/
  | uldLeft (rt : Reg) (offset : Off16) (base : Reg)
  /-- ULD rt, offset(base) in the right opcode, LDR (48_unaligned.md R237). -/
  | uldRight (rt : Reg) (offset : Off16) (base : Reg)
  /-- ULW rt, offset(base) in the left opcode, LWL (48_unaligned.md R238). -/
  | ulwLeft (rt : Reg) (offset : Off16) (base : Reg)
  /-- ULW rt, offset(base) in the right opcode, LWR (48_unaligned.md R238). -/
  | ulwRight (rt : Reg) (offset : Off16) (base : Reg)
  /-- USD rt, offset(base) in the left opcode, SDL (48_unaligned.md R239). -/
  | usdLeft (rt : Reg) (offset : Off16) (base : Reg)
  /-- USD rt, offset(base) in the right opcode, SDR (48_unaligned.md R239). -/
  | usdRight (rt : Reg) (offset : Off16) (base : Reg)
  /-- USW rt, offset(base) in the left opcode, SWL (48_unaligned.md R240). -/
  | uswLeft (rt : Reg) (offset : Off16) (base : Reg)
  /-- USW rt, offset(base) in the right opcode, SWR (48_unaligned.md R240). -/
  | uswRight (rt : Reg) (offset : Off16) (base : Reg)
  /-- The NOP form of the LDR opcode (48_unaligned.md R243). -/
  | nopLdr (rt : Reg) (offset : Off16) (base : Reg)
  /-- The NOP form of the LDL opcode (48_unaligned.md R243). -/
  | nopLdl (rt : Reg) (offset : Off16) (base : Reg)
  /-- The NOP form of the LWR opcode (48_unaligned.md R243). -/
  | nopLwr (rt : Reg) (offset : Off16) (base : Reg)
  /-- The NOP form of the LWL opcode (48_unaligned.md R243). -/
  | nopLwl (rt : Reg) (offset : Off16) (base : Reg)
  /-- The NOP form of the SDR opcode (48_unaligned.md R243). -/
  | nopSdr (rt : Reg) (offset : Off16) (base : Reg)
  /-- The NOP form of the SDL opcode (48_unaligned.md R243). -/
  | nopSdl (rt : Reg) (offset : Off16) (base : Reg)
  /-- The NOP form of the SWR opcode (48_unaligned.md R243). -/
  | nopSwr (rt : Reg) (offset : Off16) (base : Reg)
  /-- The NOP form of the SWL opcode (48_unaligned.md R243). -/
  | nopSwl (rt : Reg) (offset : Off16) (base : Reg)
  /-- V3MULU rd, rs, rt (49_vmul.md R265). -/
  | v3mulu (rd rs rt : Reg)
  /-- VMM0 rd, rs, rt (49_vmul.md R267). -/
  | vmm0 (rd rs rt : Reg)
  /-- VMULU rd, rs, rt (49_vmul.md R269). -/
  | vmulu (rd rs rt : Reg)
deriving DecidableEq, Repr

end Sys2Proof
end

