-- ==== Sys2Proof/WellFormed.lean ====
section
/-! DEFINITION. When an instruction exists in a configuration (48_unaligned.md R235, R236, R243;
30_encoding.md R113, R118). The fields of an instruction have exactly the widths of the encoding, so
every value of a field is legal (42_bitfield.md R165) and only the configuration is left to check. -/

namespace Sys2Proof

/-- The four unaligned instructions stand in the left opcodes and the right opcodes are NOP forms. -/
def CvmCtl.leftIsUnaligned (c : CvmCtl) : Bool := c.useun && c.useLeft

/-- The four unaligned instructions stand in the right opcodes and the left opcodes are NOP forms. -/
def CvmCtl.rightIsUnaligned (c : CvmCtl) : Bool := c.useun && !c.useLeft

/-- Does the instruction exist under `c`? Only the rows of the eight displaced opcodes have a
condition (the "condition" entries of spec/opcode_table.json, less `ops64`, which does not change
decoding, 30_encoding.md R118). -/
def Instr.wf (c : CvmCtl) : Instr → Bool
  | .baddu _ _ _ | .bbit0 _ _ _ | .bbit032 _ _ _ | .bbit1 _ _ _ | .bbit132 _ _ _ => true
  | .cins _ _ _ _ | .cins32 _ _ _ _ | .exts _ _ _ _ | .exts32 _ _ _ _ => true
  | .dmul _ _ _ | .dpop _ _ | .pop _ _ => true
  | .mtm0 _ | .mtm1 _ | .mtm2 _ | .mtp0 _ | .mtp1 _ | .mtp2 _ => true
  | .seq _ _ _ | .seqi _ _ _ | .sne _ _ _ | .snei _ _ _ => true
  | .synciobdma | .syncs | .syncw | .syncws => true
  | .v3mulu _ _ _ | .vmm0 _ _ _ | .vmulu _ _ _ => true
  | .uldLeft _ _ _ | .ulwLeft _ _ _ | .usdLeft _ _ _ | .uswLeft _ _ _ => c.leftIsUnaligned
  | .nopLdr _ _ _ | .nopLwr _ _ _ | .nopSdr _ _ _ | .nopSwr _ _ _ => c.leftIsUnaligned
  | .uldRight _ _ _ | .ulwRight _ _ _ | .usdRight _ _ _ | .uswRight _ _ _ => c.rightIsUnaligned
  | .nopLdl _ _ _ | .nopLwl _ _ _ | .nopSdl _ _ _ | .nopSwl _ _ _ => c.rightIsUnaligned

end Sys2Proof
end

