-- ==== Sys2Proof/Decode.lean ====
section
/-! DEFINITION. The decoder (30_encoding.md R115) and, after it, the encoder, both from the formats F1 to F8
(R102 to R109) and the opcode map (Tables R111, R112, R113 and rule R114). Decoding reads the word and
the configuration CvmCtl only (R118). The numbers the source has lost are the spec's, from general
knowledge (93_implementation_defined.md G1 to G8; log 25). -/

namespace Sys2Proof

/-- The base-architecture instructions the spec names and does not define, refused by name (00_scope.md R6(a),
92_eei_decisions.md D1). LWC2, LDC2, SWC2 and SDC2 have no word left: the four branches have taken their major
opcodes (30_encoding.md R114). -/
inductive BaseInstr where
  | sync | ldl | ldr | lwl | lwr | sdl | sdr | swl | swr
  | ld | lw | sd | sw | j | jr | eret | deret | wait
deriving DecidableEq, Repr

/-- Why the decoder gives a word no instruction. Every case is safe: the model stops where the
source says nothing (92_eei_decisions.md D1, D18; log 26). -/
inductive Reject where
  /-- Fewer than four bytes were given. -/
  | truncated
  /-- A base-architecture instruction the source names and does not define (00_scope.md R6(a)). -/
  | baseInstruction (b : BaseInstr)
  /-- A field the figure of this function shows as zero is not zero (30_encoding.md R116). -/
  | reservedField (fn : BitVec 6)
  /-- A Special2 function outside Table R111 (30_encoding.md R117). -/
  | unknownSpecial2 (fn : BitVec 6)
  /-- A Special function other than SYNC and JR (30_encoding.md R117). -/
  | unknownSpecial (fn : BitVec 6)
  /-- A SYNC stype outside Table R112 (30_encoding.md R117). -/
  | unknownStype (stype : BitVec 5)
  /-- Any other word whose major opcode no row of the map names (30_encoding.md R117). -/
  | unknownMajor (op : BitVec 6)
deriving DecidableEq, Repr

/-! ## Fields of a word (30_encoding.md R100 to R110) -/

/-- Bits 31:26, the major opcode. -/
def opOf (w : InsnWord) : BitVec 6 := w.extractLsb' 26 6
/-- Bits 25:21, rs or base. -/
def rsOf (w : InsnWord) : Reg := w.extractLsb' 21 5
/-- Bits 20:16, rt (and p of format F7). -/
def rtOf (w : InsnWord) : Reg := w.extractLsb' 16 5
/-- Bits 15:11, rd (and lenm1 of format F3). -/
def rdOf (w : InsnWord) : Reg := w.extractLsb' 11 5
/-- Bits 10:6, p of format F3, stype of format F6, zero in F1 and F2. -/
def saOf (w : InsnWord) : BitVec 5 := w.extractLsb' 6 5
/-- Bits 5:0, the function. -/
def fnOf (w : InsnWord) : BitVec 6 := w.extractLsb' 0 6
/-- Bits 15:6, the immediate of format F4. -/
def immOf (w : InsnWord) : Imm10 := w.extractLsb' 6 10
/-- Bits 15:0, the offset of formats F7 and F8. -/
def offOf (w : InsnWord) : Off16 := w.extractLsb' 0 16
/-- Bits 20:6, zero in format F5. -/
def f5ZeroOf (w : InsnWord) : BitVec 15 := w.extractLsb' 6 15
/-- Bits 25:11, zero in format F6. -/
def f6ZeroOf (w : InsnWord) : BitVec 15 := w.extractLsb' 11 15

/-! ## The decoder -/

/-- `i` where the zero fields of the format hold zero, refused by name otherwise (30_encoding.md R116). -/
def withZeros (zeros : Bool) (w : InsnWord) (i : Instr) : Except Reject Instr :=
  if zeros then .ok i else .error (.reservedField (fnOf w))

/-- Format F1 (30_encoding.md R102). -/
def decodeF1 (w : InsnWord) (mk : Reg → Reg → Reg → Instr) : Except Reject Instr :=
  withZeros (saOf w == 0#5) w (mk (rdOf w) (rsOf w) (rtOf w))
/-- Format F2 (30_encoding.md R103). -/
def decodeF2 (w : InsnWord) (mk : Reg → Reg → Instr) : Except Reject Instr :=
  withZeros (rtOf w == 0#5 && saOf w == 0#5) w (mk (rdOf w) (rsOf w))
/-- Format F3 (30_encoding.md R104): the word holds lenm1 above p. -/
def decodeF3 (w : InsnWord) (mk : Reg → Reg → Pos → Pos → Instr) : Except Reject Instr :=
  .ok (mk (rtOf w) (rsOf w) (saOf w) (rdOf w))
/-- Format F4 (30_encoding.md R105). -/
def decodeF4 (w : InsnWord) (mk : Reg → Reg → Imm10 → Instr) : Except Reject Instr :=
  .ok (mk (rtOf w) (rsOf w) (immOf w))
/-- Format F5 (30_encoding.md R106). -/
def decodeF5 (w : InsnWord) (mk : Reg → Instr) : Except Reject Instr :=
  withZeros (f5ZeroOf w == 0#15) w (mk (rsOf w))
/-- Format F7 (30_encoding.md R108). -/
def decodeF7 (w : InsnWord) (mk : Reg → Pos → Off16 → Instr) : Except Reject Instr :=
  .ok (mk (rsOf w) (rtOf w) (offOf w))
/-- Format F8 (30_encoding.md R109). -/
def decodeF8 (w : InsnWord) (mk : Reg → Off16 → Reg → Instr) : Except Reject Instr :=
  .ok (mk (rtOf w) (offOf w) (rsOf w))

/-- Major opcode Special2: Table R111, by the function field. -/
def decodeSpecial2 (w : InsnWord) : Except Reject Instr :=
  match fnOf w with
  | 0x03#6 => decodeF1 w .dmul
  | 0x08#6 => decodeF5 w .mtm0
  | 0x09#6 => decodeF5 w .mtp0
  | 0x0A#6 => decodeF5 w .mtp1
  | 0x0B#6 => decodeF5 w .mtp2
  | 0x0C#6 => decodeF5 w .mtm1
  | 0x0D#6 => decodeF5 w .mtm2
  | 0x0F#6 => decodeF1 w .vmulu
  | 0x10#6 => decodeF1 w .vmm0
  | 0x11#6 => decodeF1 w .v3mulu
  | 0x28#6 => decodeF1 w .baddu
  | 0x2A#6 => decodeF1 w .seq
  | 0x2B#6 => decodeF1 w .sne
  | 0x2C#6 => decodeF2 w .pop
  | 0x2D#6 => decodeF2 w .dpop
  | 0x2E#6 => decodeF4 w .seqi
  | 0x2F#6 => decodeF4 w .snei
  | 0x32#6 => decodeF3 w .cins
  | 0x33#6 => decodeF3 w .cins32
  | 0x3A#6 => decodeF3 w .exts
  | 0x3B#6 => decodeF3 w .exts32
  | fn => .error (.unknownSpecial2 fn)

/-- The synchronisation instruction of an stype: Table R112. stype 0 is the base SYNC, refused by name. -/
def decodeStype (stype : BitVec 5) : Except Reject Instr :=
  match stype with
  | 0x00#5 => .error (.baseInstruction .sync)
  | 0x02#5 => .ok .synciobdma
  | 0x04#5 => .ok .syncw
  | 0x05#5 => .ok .syncws
  | 0x06#5 => .ok .syncs
  | st => .error (.unknownStype st)

/-- The name of a refused word of major opcode Special whose function is not SYNC: JR, or the function. That JR
is function 001000 is the family's encoding (PRESUMED, log 37). -/
def specialRefusal (fn : BitVec 6) : Reject :=
  match fn with
  | 0x08#6 => .baseInstruction .jr
  | fn => .unknownSpecial fn

/-- The name of a refused word of major opcode 010000 (COP0): ERET, DERET or WAIT where bit 25 is 1, by the
function, or the major opcode. These are the family's encodings (PRESUMED, log 37). -/
def cop0Refusal (w : InsnWord) : Reject :=
  if w.getLsbD 25 then
    match fnOf w with
    | 0x18#6 => .baseInstruction .eret
    | 0x1F#6 => .baseInstruction .deret
    | 0x20#6 => .baseInstruction .wait
    | _ => .unknownMajor (opOf w)
  else .unknownMajor (opOf w)

/-- The name of a refused word whose major opcode the map does not hold: the base instruction where the spec
names it (00_scope.md R6(a), D1), or the major opcode. The numbers are the family's (PRESUMED, log 37). -/
def majorRefusal (w : InsnWord) : Reject :=
  match opOf w with
  | 0x02#6 => .baseInstruction .j
  | 0x10#6 => cop0Refusal w
  | 0x23#6 => .baseInstruction .lw
  | 0x2B#6 => .baseInstruction .sw
  | 0x37#6 => .baseInstruction .ld
  | 0x3F#6 => .baseInstruction .sd
  | op => .unknownMajor op

/-- Major opcode Special (30_encoding.md R107, R112): only SYNC with bits 25:11 zero is read. -/
def decodeSpecial (w : InsnWord) : Except Reject Instr :=
  if fnOf w = 0x0F#6 then
    if f6ZeroOf w = 0#15 then decodeStype (saOf w) else .error (.reservedField (fnOf w))
  else .error (specialRefusal (fnOf w))

/-- A left opcode of Table R113: the unaligned instruction or the NOP form as Table R236 says, and the
base instruction, refused by name, while USEUN is clear. -/
def decodeLeft (c : CvmCtl) (w : InsnWord) (base : BaseInstr) (unaligned nop : Reg → Off16 → Reg → Instr) :
    Except Reject Instr :=
  if c.useun then
    if c.useLeft then decodeF8 w unaligned else decodeF8 w nop
  else .error (.baseInstruction base)

/-- A right opcode of Table R113, the other way round. -/
def decodeRight (c : CvmCtl) (w : InsnWord) (base : BaseInstr) (unaligned nop : Reg → Off16 → Reg → Instr) :
    Except Reject Instr :=
  if c.useun then
    if c.useLeft then decodeF8 w nop else decodeF8 w unaligned
  else .error (.baseInstruction base)

/-- The instruction a 32-bit word stands for under configuration `c` (30_encoding.md R115). -/
def decodeWord (c : CvmCtl) (w : InsnWord) : Except Reject Instr :=
  match opOf w with
  | 0x00#6 => decodeSpecial w
  | 0x1C#6 => decodeSpecial2 w
  | 0x32#6 => decodeF7 w .bbit0
  | 0x36#6 => decodeF7 w .bbit032
  | 0x3A#6 => decodeF7 w .bbit1
  | 0x3E#6 => decodeF7 w .bbit132
  | 0x1A#6 => decodeLeft c w .ldl .uldLeft .nopLdl
  | 0x1B#6 => decodeRight c w .ldr .uldRight .nopLdr
  | 0x22#6 => decodeLeft c w .lwl .ulwLeft .nopLwl
  | 0x26#6 => decodeRight c w .lwr .ulwRight .nopLwr
  | 0x2C#6 => decodeLeft c w .sdl .usdLeft .nopSdl
  | 0x2D#6 => decodeRight c w .sdr .usdRight .nopSdr
  | 0x2A#6 => decodeLeft c w .swl .uswLeft .nopSwl
  | 0x2E#6 => decodeRight c w .swr .uswRight .nopSwr
  | _ => .error (majorRefusal w)

/-! ## Words as bytes (20_memory.md R63, R65) -/

/-- The value of a list of bytes, the first byte most significant. -/
def beNat : List Byte → Nat
  | [] => 0
  | b :: bs => b.toNat * 256 ^ bs.length + beNat bs

/-- The value of a list of bytes, the first byte least significant. -/
def leNat : List Byte → Nat
  | [] => 0
  | b :: bs => b.toNat + 256 * leNat bs

/-- The value of the bytes of memory, lowest address first, in the byte order `le` (20_memory.md R63). -/
def bytesToNat (le : Bool) (bs : List Byte) : Nat := if le then leNat bs else beNat bs

/-- The `n` low bytes of a value, the least significant first. -/
def leBytes : Nat → Nat → List Byte
  | 0, _ => []
  | n + 1, v => BitVec.ofNat 8 v :: leBytes n (v / 256)

/-- The `n` bytes that hold a value in memory, lowest address first, in the byte order `le`
(20_memory.md R64). -/
def natToBytes (le : Bool) (n v : Nat) : List Byte :=
  if le then leBytes n v else (leBytes n v).reverse

/-- Decode the instruction at the head of a list of bytes as memory holds them (20_memory.md R65), and
give the bytes after it. Total: fewer than four bytes are refused by name. -/
def decodeBytes (c : CvmCtl) : List Byte → Except Reject (Instr × List Byte)
  | b0 :: b1 :: b2 :: b3 :: rest =>
    match decodeWord c (BitVec.ofNat 32 (bytesToNat c.le [b0, b1, b2, b3])) with
    | .ok i => .ok (i, rest)
    | .error r => .error r
  | _ => .error .truncated

/-! ## The encoder -/

/-- Format F1 (30_encoding.md R102). -/
def encodeF1 (fn : BitVec 6) (rd rs rt : Reg) : InsnWord := 0x1C#6 ++ rs ++ rt ++ rd ++ 0#5 ++ fn
/-- Format F2 (30_encoding.md R103). -/
def encodeF2 (fn : BitVec 6) (rd rs : Reg) : InsnWord := 0x1C#6 ++ rs ++ 0#5 ++ rd ++ 0#5 ++ fn
/-- Format F3 (30_encoding.md R104). -/
def encodeF3 (fn : BitVec 6) (rt rs : Reg) (p lenm1 : Pos) : InsnWord :=
  0x1C#6 ++ rs ++ rt ++ lenm1 ++ p ++ fn
/-- Format F4 (30_encoding.md R105). -/
def encodeF4 (fn : BitVec 6) (rt rs : Reg) (imm : Imm10) : InsnWord := 0x1C#6 ++ rs ++ rt ++ imm ++ fn
/-- Format F5 (30_encoding.md R106). -/
def encodeF5 (fn : BitVec 6) (rs : Reg) : InsnWord := 0x1C#6 ++ rs ++ 0#15 ++ fn
/-- Format F6 (30_encoding.md R107). -/
def encodeF6 (stype : BitVec 5) : InsnWord := 0#6 ++ 0#15 ++ stype ++ 0x0F#6
/-- Format F7 (30_encoding.md R108). -/
def encodeF7 (op : BitVec 6) (rs : Reg) (p : Pos) (offset : Off16) : InsnWord := op ++ rs ++ p ++ offset
/-- Format F8 (30_encoding.md R109). -/
def encodeF8 (op : BitVec 6) (rt : Reg) (offset : Off16) (base : Reg) : InsnWord :=
  op ++ base ++ rt ++ offset

/-- The word of an instruction (30_encoding.md R102 to R114). -/
def encode : Instr → InsnWord
  | .dmul rd rs rt => encodeF1 0x03#6 rd rs rt
  | .vmulu rd rs rt => encodeF1 0x0F#6 rd rs rt
  | .vmm0 rd rs rt => encodeF1 0x10#6 rd rs rt
  | .v3mulu rd rs rt => encodeF1 0x11#6 rd rs rt
  | .baddu rd rs rt => encodeF1 0x28#6 rd rs rt
  | .seq rd rs rt => encodeF1 0x2A#6 rd rs rt
  | .sne rd rs rt => encodeF1 0x2B#6 rd rs rt
  | .pop rd rs => encodeF2 0x2C#6 rd rs
  | .dpop rd rs => encodeF2 0x2D#6 rd rs
  | .cins rt rs p lenm1 => encodeF3 0x32#6 rt rs p lenm1
  | .cins32 rt rs p lenm1 => encodeF3 0x33#6 rt rs p lenm1
  | .exts rt rs p lenm1 => encodeF3 0x3A#6 rt rs p lenm1
  | .exts32 rt rs p lenm1 => encodeF3 0x3B#6 rt rs p lenm1
  | .seqi rt rs imm => encodeF4 0x2E#6 rt rs imm
  | .snei rt rs imm => encodeF4 0x2F#6 rt rs imm
  | .mtm0 rs => encodeF5 0x08#6 rs
  | .mtp0 rs => encodeF5 0x09#6 rs
  | .mtp1 rs => encodeF5 0x0A#6 rs
  | .mtp2 rs => encodeF5 0x0B#6 rs
  | .mtm1 rs => encodeF5 0x0C#6 rs
  | .mtm2 rs => encodeF5 0x0D#6 rs
  | .synciobdma => encodeF6 0x02#5
  | .syncw => encodeF6 0x04#5
  | .syncws => encodeF6 0x05#5
  | .syncs => encodeF6 0x06#5
  | .bbit0 rs p offset => encodeF7 0x32#6 rs p offset
  | .bbit032 rs p offset => encodeF7 0x36#6 rs p offset
  | .bbit1 rs p offset => encodeF7 0x3A#6 rs p offset
  | .bbit132 rs p offset => encodeF7 0x3E#6 rs p offset
  | .uldLeft rt offset base | .nopLdl rt offset base => encodeF8 0x1A#6 rt offset base
  | .uldRight rt offset base | .nopLdr rt offset base => encodeF8 0x1B#6 rt offset base
  | .ulwLeft rt offset base | .nopLwl rt offset base => encodeF8 0x22#6 rt offset base
  | .ulwRight rt offset base | .nopLwr rt offset base => encodeF8 0x26#6 rt offset base
  | .usdLeft rt offset base | .nopSdl rt offset base => encodeF8 0x2C#6 rt offset base
  | .usdRight rt offset base | .nopSdr rt offset base => encodeF8 0x2D#6 rt offset base
  | .uswLeft rt offset base | .nopSwl rt offset base => encodeF8 0x2A#6 rt offset base
  | .uswRight rt offset base | .nopSwr rt offset base => encodeF8 0x2E#6 rt offset base

/-! ## The opcode table's numbering -/

/-- The instruction the decoder reads from an instruction whose bits are `w` (spec/opcode_table.json
numbers bit 0 as the least significant). The word is laid out in the byte order of the reset
configuration and decoded under that configuration (log 32): of two rows that share a word, the
one whose condition holds there is answered. -/
def decodeTableWord (nbits w : Nat) : Option Instr :=
  match decodeBytes Config.resetCvmCtl
      (natToBytes Config.resetCvmCtl.le 4 (w % 2 ^ min nbits 32)) with
  | .ok (i, _) => some i
  | .error _ => none

end Sys2Proof
end

