-- ==== Sys2Proof/Machine/State.lean ====
section
/-! DEFINITION. The state of the machine, as plain data: every piece of state the spec gives the core
(10_state.md, Table R42; 60_exceptions.md R296; 70_reset_and_hazards.md R353, R355), the parameters
of a run the spec leaves open (00_scope.md R8), the reasons a step can stop, and the state at reset. -/

namespace Sys2Proof.Machine

/-! ## Exceptions (60_exceptions.md R290 to R296) -/

/-- The address-class exceptions, decided by the parameter Admit (60_exceptions.md R293). -/
inductive AddrExc where
  | tlbRefill | tlbInvalid | tlbModified | busError | addressError | watch | breakpoint
deriving DecidableEq, Repr

/-- The eight exceptions the source names (60_exceptions.md R290, R317(b)). -/
inductive ExcCause where
  | reservedInstruction
  | access (e : AddrExc)
deriving DecidableEq, Repr

/-- The information an exception outcome carries (60_exceptions.md R292, R293). -/
inductive ExcInfo where
  /-- Reserved Instruction: the instruction word. -/
  | insn (w : InsnWord)
  /-- An address-class exception: the first byte address of the part that was not admitted. -/
  | address (a : Word)
deriving DecidableEq, Repr

/-- What the model records of an exception outcome (60_exceptions.md R296). -/
structure ExceptionRecord where
  cause : ExcCause
  /-- The address of the instruction that raised. -/
  pc : Word
  /-- The instruction stood in a branch delay slot (41_bbit.md R153). -/
  inDelaySlot : Bool
  info : ExcInfo
deriving DecidableEq, Repr

/-! ## The multiply state (10_state.md R26 to R30) -/

/-- Which of MTM*/VMM0, VMULU, V3MULU executed last, MTP* not counted (10_state.md R30). -/
inductive MSeq where
  | fresh | loaded | afterVmulu | afterV3mulu
deriving DecidableEq, Repr

/-- HI and LO, the multiplier registers, the product registers and the sequencing state. -/
structure MulState where
  /-- 10_state.md R26; written by DMUL only, never read by an instruction of the spec. -/
  hi : Word
  /-- 10_state.md R26; written by DMUL only, never read by an instruction of the spec. -/
  lo : Word
  /-- Multiplier register MPL0, the least significant (10_state.md R27). -/
  mpl0 : Word
  mpl1 : Word
  mpl2 : Word
  /-- Product register P0, the least significant (10_state.md R28). -/
  p0 : Word
  p1 : Word
  p2 : Word
  mseq : MSeq
  /-- An MTP* has executed since the last MTM*/VMM0/VMULU/V3MULU while `mseq` was not Loaded
  (10_state.md R30). -/
  mtpDirty : Bool
deriving DecidableEq, Repr

/-! ## Memory, admission and the program text -/

/-- Memory: the bytes that differ from what an unlisted address reads as, by rising address. Log 12. -/
abbrev Memory := List Host.Cell

/-- What a byte nothing has written reads as. DESIGN CHOICE (log 12), unsafe: the spec leaves the
contents of memory to the launch state (10_state.md R42). -/
def Memory.unlisted : Byte := 0#8

/-- What an access does: the `kind` of the parameter Admit (20_memory.md R71). -/
inductive AccessKind where
  | load | store | fetch
deriving DecidableEq, Repr

/-- An answer of the parameter Admit (20_memory.md R71; 92_eei_decisions.md D17). -/
inductive AdmitAnswer where
  | ok
  | raise (e : AddrExc)
  /-- The address is not admitted and no exception is named: the agent has no step. -/
  | noStep
deriving DecidableEq, Repr

/-- One line of the parameter Admit as data: the answer for accesses of kind `kind` whose first byte
address is from `lo` to `hi` and, where `width` names one, whose length is `width`. Log 13. -/
structure AdmitRule where
  lo : Nat
  hi : Nat
  width : Option Nat
  kind : AccessKind
  answer : AdmitAnswer
deriving DecidableEq, Repr

/-- The parameter Admit: the first rule that matches answers, `other` where none does. Every function
Admit(addr, n, kind) can be written so, its domain being finite. Log 13. -/
structure Admission where
  rules : List AdmitRule
  other : AdmitAnswer
deriving DecidableEq, Repr

/-- The byte addresses from `lo` up to and without `hi`. -/
structure AddrRange where
  lo : Nat
  hi : Nat
deriving DecidableEq, Repr

/-- A barrier event of the history (47_sync.md R220; 70_reset_and_hazards.md R356). -/
inductive BarrierEvent where
  | synciobdma | syncs | syncw | syncws
deriving DecidableEq, Repr

/-! ## The state -/

structure State where
  /-- x[0] to x[31] (10_state.md R20); x[0] is read and written through the operations only. -/
  regs : Vector Word 32
  /-- The address of the instruction being executed (10_state.md R24). -/
  pc : Word
  /-- `some t` in a delay slot, `t` being where control goes after it (10_state.md R24). -/
  delay : Option Word
  mul : MulState
  /-- 10_state.md R31, R32. No instruction of the spec writes it (R36). -/
  cvmCtl : CvmCtl
  /-- 10_state.md R33. No instruction of the spec reads or writes it. -/
  cvmMemCtl : CvmMemCtl
  /-- The answer of Are64bitOperationsEnabled() (10_state.md R34). -/
  ops64 : Bool
  mem : Memory
  /-- The parameter Admit (20_memory.md R71). -/
  admission : Admission
  /-- The addresses of the program text (20_memory.md R79; 70_reset_and_hazards.md R353). -/
  text : List AddrRange
  /-- The parameter halt_pc (70_reset_and_hazards.md R355). -/
  haltPc : Option Word
  /-- The barrier events so far, oldest first (47_sync.md R220). -/
  history : List BarrierEvent
  /-- The exception outcome the run has ended in (60_exceptions.md R296). -/
  exception : Option ExceptionRecord
  /-- THE MODEL'S OWN: how many free values have been drawn (log 8). -/
  freeCount : Nat
deriving DecidableEq, Repr

/-! ## Why a step stops -/

/-- The two operations the source calls unpredictable or forbids without a consequence. -/
inductive Unpredictable where
  /-- A branch stands in the delay slot of a branch (41_bbit.md R151). -/
  | branchInDelaySlot
  /-- A multiply breaks the sequencing restrictions (49_vmul.md R271; 70_reset_and_hazards.md R346). -/
  | multiplierSequence
deriving DecidableEq, Repr

/-- Why the machine stops. -/
inductive Fault where
  /-- UnpredictableOperation (60_exceptions.md R317(c)). Raised by BBIT0, BBIT032, BBIT1, BBIT132
  (branchInDelaySlot) and by VMULU, VMM0, V3MULU (multiplierSequence). Safe: nothing is asserted of
  the machine afterwards (92_eei_decisions.md D5, D22; log 18, log 19). -/
  | unpredictableOperation (why : Unpredictable)
  /-- Raised by `step` in a state that has recorded an exception outcome: the run has stopped there
  (60_exceptions.md R296, R317). Safe: no handler is entered (92_eei_decisions.md D8; log 10). -/
  | stoppedByException (r : ExceptionRecord)
deriving DecidableEq, Repr

/-- Why there is no step (60_exceptions.md R317(e)). -/
inductive Refusal where
  /-- Raised by `exec` for an instruction that has no meaning yet. Safe. -/
  | notModelled (mnemonic : String)
  /-- Raised by `step`: the decoder gives the word at pc no instruction (30_encoding.md R115 to R117).
  Safe: the source says nothing of these words (log 26). -/
  | undecodable (r : Reject)
  /-- Raised by `step`: pc is not a multiple of 4 (10_state.md R25; 92_eei_decisions.md D10; log 16). Safe. -/
  | misalignedPc
  /-- Raised by `step`: the word at pc is not program text (20_memory.md R79; log 15). Safe. -/
  | fetchOutsideText
  /-- Raised by `step`: Admit does not admit the fetch (60_exceptions.md R299; log 14). Safe. -/
  | fetchNotAdmitted
  /-- Raised by `step`: pc = halt_pc outside a delay slot (70_reset_and_hazards.md R355; log 27). Safe. -/
  | halted
  /-- Raised by ULD, ULW, USD, USW: Admit answers no step for a part of the access (20_memory.md R71;
  92_eei_decisions.md D17; log 14). Safe. -/
  | accessNotAdmitted
  /-- Raised by USD, USW: the stored bytes overlap the program text (20_memory.md R79;
  92_eei_decisions.md D16; log 15). Safe. -/
  | storeToProgramText
  /-- Raised by the NOP forms of LDL, LDR, SDL, SDR while `ops64` is false (48_unaligned.md R243;
  92_eei_decisions.md D26; log 20). Safe. -/
  | doublewordNopWithout64
deriving DecidableEq, Repr

/-! ## Reset -/

/-- The multiply state at reset: `mseq = Fresh` and `mtp_dirty = false` are the spec's (10_state.md R42);
the registers are 0 by DESIGN CHOICE (log 3), unsafe. -/
def MulState.reset : MulState :=
  { hi := 0#64, lo := 0#64, mpl0 := 0#64, mpl1 := 0#64, mpl2 := 0#64, p0 := 0#64, p1 := 0#64, p2 := 0#64,
    mseq := .fresh, mtpDirty := false }

/-- The machine right after reset (10_state.md R42, 70_reset_and_hazards.md R340, R353). The spec states
x[0], `delay`, `mseq` and `mtp_dirty`; every other value is named in a log entry: registers (log 1,
log 3), pc (PRESUMED, the MIPS64 reset vector, log 2), configuration (log 4 to 6), memory, Admit and
program text (log 12, 13, 15), halt_pc (log 27), history and exception (log 24, log 10), the free
value counter (log 8). -/
def State.reset : State :=
  { regs := Vector.replicate 32 0#64
    pc := 0xFFFFFFFFBFC00000#64
    delay := none
    mul := MulState.reset
    cvmCtl := Config.resetCvmCtl
    cvmMemCtl := Config.resetCvmMemCtl
    ops64 := true
    mem := []
    admission := { rules := [], other := .ok }
    text := []
    haltPc := none
    history := []
    exception := none
    freeCount := 0 }

end Sys2Proof.Machine
end

