-- ==== Sys2Proof/Machine/Flags.lean ====
section
/-! DEFINITION. The core has no condition codes or status flags (10_state.md R37). What stands in their place:
the 0 or 1 a comparison writes to a general register, the register bit a branch tests, and the two
conditions under which an instruction is reserved. -/

namespace Sys2Proof.Machine

/-- The result of a comparison: 1 (true) or 0 (false) as a 64-bit value (46_set_on_equal.md R214). -/
def setOn (b : Bool) : Word := if b then 1#64 else 0#64

/-- Bit `n` of a register, the condition of the branches (41_bbit.md R145 to R148). -/
def testedBit (x : Word) (n : Nat) : Bool := x.getLsbD n

/-- 64-bit operations are enabled: the condition of CINS, CINS32, DMUL, DPOP, EXTS, EXTS32, ULD and USD
(60_exceptions.md R292(a), R292(c)). -/
def State.enabled64 (s : State) : Bool := s.ops64

/-- 64-bit operations are enabled and CvmCtl.NOMUL is clear: the condition of MTM0-2, MTP0-2, V3MULU, VMM0
and VMULU (60_exceptions.md R292(b)). -/
def State.enabledMul (s : State) : Bool := s.ops64 && !s.cvmCtl.nomul

end Sys2Proof.Machine
end

