-- ==== Sys2Proof/Machine/Operands.lean ====
section
/-! DEFINITION. How the fields of an instruction become values (30_encoding.md R110): immediates, effective
addresses, branch targets, bit positions and bit fields. -/

namespace Sys2Proof.Machine

/-- The 10-bit immediate of SEQI and SNEI, sign-extended (30_encoding.md R110(d)). -/
def immValue (imm : Imm10) : Word := imm.signExtend 64

/-- The byte offset of F8, sign-extended and not scaled (30_encoding.md R110(f)). -/
def memOffset (offset : Off16) : Word := offset.signExtend 64

/-- The branch offset of F7: the field followed by two zero bits, sign-extended from 18 bits
(30_encoding.md R110(e)). -/
def branchOffset (offset : Off16) : Word := (offset ++ 0#2 : BitVec 18).signExtend 64

/-- The target of a branch at `pc` (41_bbit.md R150), modulo 2^64. -/
def branchTarget (pc : Word) (offset : Off16) : Word := pc + 4#64 + branchOffset offset

/-- The bit position `p` of CINS, EXTS, BBIT0 and BBIT1 (30_encoding.md R110(b)). -/
def lowPos (p : Pos) : Nat := p.toNat

/-- The bit position `p + 32` of the "32" forms (30_encoding.md R110(b)). -/
def highPos (p : Pos) : Nat := p.toNat + 32

/-- The length of a bit field, `lenm1 + 1` (30_encoding.md R110(c)). -/
def fieldLen (lenm1 : Pos) : Nat := lenm1.toNat + 1

/-- The low `len` bits of `x`, inserted at bit `pos` of a word of zeros (42_bitfield.md R160, R161). -/
def insertField (x : Word) (pos len : Nat) : Word := (x.extractLsb' 0 len).setWidth 64 <<< pos

/-- The `len` bits of `x` from bit `pos`, sign-extended (42_bitfield.md R162, R163). -/
def extractField (x : Word) (pos len : Nat) : Word := (x.extractLsb' pos len).signExtend 64

/-- The field of a "32" form reaches past bit 63: `p + 32 + lenm1 > 63` (42_bitfield.md R166). -/
def fieldOverruns (p lenm1 : Pos) : Bool := decide (highPos p + lenm1.toNat > 63)

/-- The number of one bits among the low `n` bits of `x` (00_scope.md R10, popcount_N). -/
def popcount (x : Word) : Nat → Nat
  | 0 => 0
  | n + 1 => popcount x n + if x.getLsbD n then 1 else 0

/-- The effective address `x[base] + sext(offset)`, modulo 2^64 (20_memory.md R72). -/
def effectiveAddress (base : Word) (offset : Off16) : Word := base + memOffset offset

end Sys2Proof.Machine
end

