-- ==== Sys2Proof/Machine/Ops.lean ====
section
/-! DEFINITION. The named operations: general registers, pc and delay slot, free values, memory, admission,
loads and stores of any alignment, the multiply unit, barriers, and raising an exception. -/

namespace Sys2Proof.Machine

/-! ## General registers (10_state.md R20, R21) -/

/-- `x[r]`: register 0 reads as zero. -/
def State.readReg (s : State) (r : Reg) : Word := if r = 0#5 then 0#64 else s.regs[r.toNat]

/-- `x[r] <- v`: a write to register 0 is discarded. -/
def State.writeReg (s : State) (r : Reg) (v : Word) : State :=
  { s with regs := if r = 0#5 then s.regs else s.regs.set r.toNat v }

/-! ## Program counter and delay slot (10_state.md R24) -/

/-- Where control goes after an instruction that is no branch: the pending target in a delay slot, the
next word otherwise. -/
def State.nextPc (s : State) : Word := s.delay.getD (s.pc + 4#64)

/-- The end of an instruction that is no branch. -/
def State.advance (s : State) : State := { s with pc := s.nextPc, delay := none }

/-- The end of a branch whose delay-slot instruction is followed by the one at `t`. -/
def State.enterDelaySlot (s : State) (t : Word) : State := { s with pc := s.pc + 4#64, delay := some t }

/-! ## Free values (00_scope.md R12(a), log 8) -/

/-- The `k`-th of the free values an instruction draws in state `s`. -/
def State.free (s : State) (k : Nat) : Word := Config.freeValue (s.freeCount + k)

/-- `n` free values have been drawn. -/
def State.drew (s : State) (n : Nat) : State := { s with freeCount := s.freeCount + n }

/-! ## Taking an exception (60_exceptions.md R296) -/

/-- `raise E(info)`: the exception outcome. It records the cause, the pc of the instruction, whether the
instruction stood in a delay slot, and the information; nothing else changes. The run stops: `step`
gives a state that has recorded an outcome no step (log 10). -/
def State.raise (s : State) (cause : ExcCause) (info : ExcInfo) : State :=
  { s with exception := some { cause := cause, pc := s.pc, inDelaySlot := s.delay.isSome, info := info } }

/-- Reserved Instruction; its information is the instruction word (60_exceptions.md R292). -/
def State.raiseReserved (s : State) (i : Instr) : State := s.raise .reservedInstruction (.insn (encode i))

/-! ## Barriers (47_sync.md R220) -/

/-- Append a barrier event to the history. -/
def State.recordBarrier (s : State) (e : BarrierEvent) : State := { s with history := s.history ++ [e] }

/-! ## The multiply unit -/

/-- Replace the multiply state. -/
def State.withMul (s : State) (m : MulState) : State := { s with mul := m }

/-- What every MTM* does besides loading: P0 to P2 become zero, `mseq` Loaded, `mtp_dirty` false
(45_multiplier_regs.md R190, R197). -/
def MulState.loaded (m : MulState) : MulState :=
  { m with p0 := 0#64, p1 := 0#64, p2 := 0#64, mseq := .loaded, mtpDirty := false }

/-- What every MTP* does to the sequencing state (45_multiplier_regs.md R193, R197). -/
def MulState.presetSeq (m : MulState) : MulState :=
  { m with mtpDirty := if m.mseq = .loaded then m.mtpDirty else true }

/-- The checks of VMULU and VMM0 before executing fail (70_reset_and_hazards.md Table R346). -/
def MulState.breaksVmulu (m : MulState) : Bool := m.mtpDirty || decide (m.mseq = .afterV3mulu)

/-- The check of V3MULU before executing fails (70_reset_and_hazards.md Table R346). -/
def MulState.breaksV3mulu (m : MulState) : Bool := m.mtpDirty

/-- The 192-bit multiplier `MPL2 || MPL1 || MPL0` (10_state.md R27). -/
def MulState.multiplier (m : MulState) : Nat :=
  m.mpl2.toNat * 2 ^ 128 + m.mpl1.toNat * 2 ^ 64 + m.mpl0.toNat

/-- The 192-bit accumulator `P2 || P1 || P0` (10_state.md R28). -/
def MulState.accumulator (m : MulState) : Nat :=
  m.p2.toNat * 2 ^ 128 + m.p1.toNat * 2 ^ 64 + m.p0.toNat

/-- The exact sum of VMULU and VMM0, `x[rs] * MPL0 + P0 + x[rt]`, all unsigned (49_vmul.md R267, R269). -/
def MulState.sum1 (m : MulState) (a b : Word) : Nat := a.toNat * m.mpl0.toNat + m.p0.toNat + b.toNat

/-- The exact sum of V3MULU, `x[rs] * M + acc + x[rt]`, all unsigned (49_vmul.md R265). -/
def MulState.sum3 (m : MulState) (a b : Word) : Nat := a.toNat * m.multiplier + m.accumulator + b.toNat

/-- Bits `64k + 63` to `64k` of an exact sum. -/
def limb (n k : Nat) : Word := BitVec.ofNat 64 (n / 2 ^ (64 * k))

/-! ## Memory (20_memory.md R60) -/

/-- The byte at an address. -/
def Memory.read : Memory → Nat → Byte
  | [], _ => Memory.unlisted
  | (k, b) :: rest, a => if k = a then b else Memory.read rest a

/-- Write the byte at an address, keeping the canonical form: writing what an unlisted address reads as
removes the entry. -/
def Memory.write : Memory → Nat → Byte → Memory
  | [], a, v => if v = Memory.unlisted then [] else [(a, v)]
  | (k, b) :: rest, a, v =>
    if a < k then (if v = Memory.unlisted then (k, b) :: rest else (a, v) :: (k, b) :: rest)
    else if a = k then (if v = Memory.unlisted then rest else (a, v) :: rest)
    else (k, b) :: Memory.write rest a v

/-- The canonical form from address `lo` on: strictly rising addresses below 2^64, no entry equal to what
an unlisted address reads as. -/
def Memory.wfFrom : Nat → Memory → Bool
  | _, [] => true
  | lo, (k, b) :: rest =>
    decide (lo ≤ k) && decide (k < 2 ^ 64) && decide (b ≠ Memory.unlisted) && Memory.wfFrom (k + 1) rest

/-- The canonical form holds. -/
def Memory.wf (m : Memory) : Bool := Memory.wfFrom 0 m

/-- `n` bytes from address `a` up, lowest address first, addresses modulo 2^64 (20_memory.md R63). -/
def Memory.readBytes (m : Memory) (a : Word) : Nat → List Byte
  | 0 => []
  | n + 1 => m.read a.toNat :: Memory.readBytes m (a + 1#64) n

/-- Write bytes from address `a` up, addresses modulo 2^64 (20_memory.md R64). -/
def Memory.writeBytes (m : Memory) (a : Word) : List Byte → Memory
  | [] => m
  | b :: bs => Memory.writeBytes (m.write a.toNat b) (a + 1#64) bs

/-- The byte of memory at an address. -/
def State.readByte (s : State) (a : Word) : Byte := s.mem.read a.toNat

/-- Replace the memory. -/
def State.withMem (s : State) (m : Memory) : State := { s with mem := m }

/-- `MemRead(addr, n)`: the `n`-byte value in the current byte order (20_memory.md R63). -/
def State.memRead (s : State) (a : Word) (n : Nat) : Nat :=
  bytesToNat s.cvmCtl.le (s.mem.readBytes a n)

/-- Is the address in the program text? -/
def State.inText (s : State) (a : Word) : Bool :=
  s.text.any fun r => decide (r.lo ≤ a.toNat) && decide (a.toNat < r.hi)

/-- Some of the `n` bytes from address `a` up are program text. -/
def State.overlapsText (s : State) (a : Word) : Nat → Bool
  | 0 => false
  | n + 1 => s.inText a || State.overlapsText s (a + 1#64) n

/-- All of the `n` bytes from address `a` up are program text. -/
def State.withinText (s : State) (a : Word) : Nat → Bool
  | 0 => true
  | n + 1 => s.inText a && State.withinText s (a + 1#64) n

/-! ## Admission (20_memory.md R71) -/

/-- The rule speaks of an access of `n` bytes at `a` of this kind. -/
def AdmitRule.matches (r : AdmitRule) (a : Word) (n : Nat) (k : AccessKind) : Bool :=
  decide (r.lo ≤ a.toNat) && decide (a.toNat ≤ r.hi) && decide (r.width.getD n = n) && decide (r.kind = k)

/-- `Admit(addr, n, kind)`. -/
def Admission.answerFor (p : Admission) (a : Word) (n : Nat) (k : AccessKind) : AdmitAnswer :=
  match p.rules.find? fun r => r.matches a n k with
  | some r => r.answer
  | none => p.other

/-- TLB Modified is an exception of stores only (60_exceptions.md R293): no answer names it elsewhere. -/
def Admission.wf (p : Admission) : Bool :=
  decide (p.other ≠ .raise .tlbModified) &&
    p.rules.all fun r => decide (r.answer = .raise .tlbModified → r.kind = .store)

/-- A part of an access: its first byte address and its length. -/
structure Part where
  addr : Word
  len : Nat
deriving DecidableEq, Repr

/-- The parts of an access of `n` bytes at `ea` (20_memory.md R69): one where no 8-byte boundary is
crossed, otherwise the bytes up to the boundary and then the rest. -/
def accessParts (ea : Word) (n : Nat) : List Part :=
  if ea.toNat % 8 + n ≤ 8 then [⟨ea, n⟩]
  else [⟨ea, 8 - ea.toNat % 8⟩, ⟨ea + BitVec.ofNat 64 (8 - ea.toNat % 8), n - (8 - ea.toNat % 8)⟩]

/-- What the admission of a load's parts answers. -/
inductive LoadCheck where
  | admitted
  | raised (e : AddrExc) (a : Word)
  | noStep
deriving DecidableEq, Repr

/-- Ask Admit for each part of a load, in address order; the first part not admitted decides
(48_unaligned.md R237, R238). -/
def checkLoad (p : Admission) : List Part → LoadCheck
  | [] => .admitted
  | q :: qs =>
    match p.answerFor q.addr q.len .load with
    | .ok => checkLoad p qs
    | .raise e => .raised e q.addr
    | .noStep => .noStep

/-- What a store's parts do: the memory after them, or the memory and the exception where a part is
refused. -/
inductive StoreResult where
  | done (m : Memory)
  | raised (m : Memory) (e : AddrExc) (a : Word)
  | noStep
deriving DecidableEq, Repr

/-- Store the parts in address order, each admitted on its own: a part that is not admitted leaves the
earlier ones stored (48_unaligned.md R239, R240, R242). -/
def storeParts (p : Admission) (m : Memory) : List Part → List Byte → StoreResult
  | [], _ => .done m
  | q :: qs, bs =>
    match p.answerFor q.addr q.len .store with
    | .ok => storeParts p (m.writeBytes q.addr (bs.take q.len)) qs (bs.drop q.len)
    | .raise e => .raised m e q.addr
    | .noStep => .noStep

/-- A load of `n` bytes at `ea` whose value is given to `rt` by `val` (48_unaligned.md R237, R238): on an
exception nothing is written. -/
def loadUnaligned (rt : Reg) (ea : Word) (n : Nat) (val : Nat → Word) (s : State) :
    Host.Outcome State Fault Refusal :=
  match checkLoad s.admission (accessParts ea n) with
  | .admitted => .next (s.writeReg rt (val (s.memRead ea n))).advance
  | .raised e a => .next (s.raise (.access e) (.address a))
  | .noStep => .refused .accessNotAdmitted

/-- A store of the low `n` bytes of `v` at `ea` (48_unaligned.md R239, R240). A store over program text
has no step (20_memory.md R79, log 15). -/
def storeUnaligned (ea : Word) (n : Nat) (v : Word) (s : State) : Host.Outcome State Fault Refusal :=
  if s.overlapsText ea n then .refused .storeToProgramText
  else
    match storeParts s.admission s.mem (accessParts ea n) (natToBytes s.cvmCtl.le n v.toNat) with
    | .done m => .next (s.withMem m).advance
    | .raised m e a => .next ((s.withMem m).raise (.access e) (.address a))
    | .noStep => .refused .accessNotAdmitted

/-! ## Reserved instructions -/

/-- Run `f` where 64-bit operations are enabled, raise Reserved Instruction otherwise
(60_exceptions.md R292(a), R292(c)). -/
def need64 (i : Instr) (f : State → Host.Outcome State Fault Refusal) (s : State) :
    Host.Outcome State Fault Refusal :=
  if s.enabled64 then f s else .next (s.raiseReserved i)

/-- Run `f` where the multiplier unit may be used, raise Reserved Instruction otherwise
(60_exceptions.md R292(b)). -/
def needMul (i : Instr) (f : State → Host.Outcome State Fault Refusal) (s : State) :
    Host.Outcome State Fault Refusal :=
  if s.enabledMul then f s else .next (s.raiseReserved i)

/-! ## Shared shapes -/

/-- Write a result and go on: the shape of every instruction that only writes a general register. -/
def writeAndAdvance (r : Reg) (v : Word) (s : State) : Host.Outcome State Fault Refusal :=
  .next (s.writeReg r v).advance

/-- Replace the multiply state and go on: the shape of MTM* and MTP*. -/
def setMulAndAdvance (m : MulState) (s : State) : Host.Outcome State Fault Refusal :=
  .next (s.withMul m).advance

/-- A branch on a bit (41_bbit.md R145 to R152): in a delay slot the operation is unpredictable; both
outcomes set the delay state. -/
def branchOn (cond : Bool) (offset : Off16) (s : State) : Host.Outcome State Fault Refusal :=
  if s.delay.isSome then .fault (.unpredictableOperation .branchInDelaySlot)
  else .next (s.enterDelaySlot (if cond then branchTarget s.pc offset else s.pc + 8#64))

/-- A barrier: its event is recorded and nothing else changes (47_sync.md R220). -/
def barrier (e : BarrierEvent) (s : State) : Host.Outcome State Fault Refusal :=
  .next (s.recordBarrier e).advance

/-- A NOP form changes only pc (48_unaligned.md R243). -/
def nopForm (s : State) : Host.Outcome State Fault Refusal := .next s.advance

/-- A NOP form of a doubleword pair: that meaning only while `ops64` is true (48_unaligned.md R243, log 20). -/
def doublewordNopForm (s : State) : Host.Outcome State Fault Refusal :=
  if s.enabled64 then nopForm s else .refused .doublewordNopWithout64

/-! ## Fetch (20_memory.md R65) -/

/-- The bytes of the instruction at `pc`, lowest address first. -/
def State.fetchBytes (s : State) : List Byte := s.mem.readBytes s.pc 4

/-- Fetch and decode the instruction at `pc` (70_reset_and_hazards.md R354), or say why there is no step
(60_exceptions.md R298(1), R317(e)): the end of the run, a misaligned pc, a word outside the program
text, a fetch that is not admitted, a word the decoder refuses. -/
def State.fetch (s : State) : Except Refusal Instr :=
  if s.haltPc = some s.pc ∧ s.delay = none then .error .halted
  else if s.pc.toNat % 4 ≠ 0 then .error .misalignedPc
  else if s.withinText s.pc 4 = false then .error .fetchOutsideText
  else if s.admission.answerFor s.pc 4 .fetch ≠ .ok then .error .fetchNotAdmitted
  else
    match decodeBytes s.cvmCtl s.fetchBytes with
    | .ok (i, _) => .ok i
    | .error r => .error (.undecodable r)

/-- Place an instruction word at `pc` as program text: its four bytes in the current byte order
(70_reset_and_hazards.md R353; log 32). -/
def State.placeAtPc (s : State) (w : Nat) : State :=
  { s with
    mem := s.mem.writeBytes s.pc (natToBytes s.cvmCtl.le 4 w)
    text := { lo := s.pc.toNat, hi := s.pc.toNat + 4 } :: s.text }

end Sys2Proof.Machine
end

