-- ==== Sys2Proof/Machine/Arith.lean ====
section
/-! DEFINITION. Meanings of BADDU (40_baddu.md), DMUL (43_dmul.md), DPOP and POP (44_popcount.md). -/

namespace Sys2Proof.Machine

/-- BADDU rd, rs, rt (40_baddu.md R140): the low 8 bits of the sum, zero-extended. No exception. -/
def execBaddu (rd rs rt : Reg) (s : State) : Host.Outcome State Fault Refusal :=
  writeAndAdvance rd (((s.readReg rs + s.readReg rt).setWidth 8).setWidth 64) s

/-- What DMUL leaves of the multiply state: HI, LO, P0, P1 and P2 are free values; MPL0 to MPL2 and the
sequencing state keep theirs (43_dmul.md R175, R176; log 8). -/
def State.dmulMul (s : State) : MulState :=
  { s.mul with hi := s.free 0, lo := s.free 1, p0 := s.free 2, p1 := s.free 3, p2 := s.free 4 }

/-- DMUL rd, rs, rt (43_dmul.md R175): the low 64 bits of the exact signed product. It does not test
CvmCtl.NOMUL (92_eei_decisions.md D29). -/
def execDmul (rd rs rt : Reg) (s : State) : Host.Outcome State Fault Refusal :=
  need64 (.dmul rd rs rt) (fun s =>
    writeAndAdvance rd (BitVec.ofInt 64 ((s.readReg rs).toInt * (s.readReg rt).toInt))
      ((s.withMul s.dmulMul).drew 5)) s

/-- DPOP rd, rs (44_popcount.md R180): the number of ones of all 64 bits. -/
def execDpop (rd rs : Reg) (s : State) : Host.Outcome State Fault Refusal :=
  need64 (.dpop rd rs) (fun s => writeAndAdvance rd (BitVec.ofNat 64 (popcount (s.readReg rs) 64)) s) s

/-- POP rd, rs (44_popcount.md R181): the number of ones of bits 31 to 0. It does not test `ops64`. -/
def execPop (rd rs : Reg) (s : State) : Host.Outcome State Fault Refusal :=
  writeAndAdvance rd (BitVec.ofNat 64 (popcount (s.readReg rs) 32)) s

end Sys2Proof.Machine
end

