-- ==== Sys2Proof/Machine/BitField.lean ====
section
/-! DEFINITION. Meanings of the bit-field instructions CINS, CINS32, EXTS and EXTS32 (42_bitfield.md). -/

namespace Sys2Proof.Machine

/-- CINS rt, rs, p, lenm1 (42_bitfield.md R160). -/
def execCins (rt rs : Reg) (p lenm1 : Pos) (s : State) : Host.Outcome State Fault Refusal :=
  need64 (.cins rt rs p lenm1) (fun s =>
    writeAndAdvance rt (insertField (s.readReg rs) (lowPos p) (fieldLen lenm1)) s) s

/-- CINS32 rt, rs, p, lenm1 (42_bitfield.md R161): where the field would pass bit 63, x[rt] is a free value
and nothing else is (R166, log 8). -/
def execCins32 (rt rs : Reg) (p lenm1 : Pos) (s : State) : Host.Outcome State Fault Refusal :=
  need64 (.cins32 rt rs p lenm1) (fun s =>
    if fieldOverruns p lenm1 then writeAndAdvance rt (s.free 0) (s.drew 1)
    else writeAndAdvance rt (insertField (s.readReg rs) (highPos p) (fieldLen lenm1)) s) s

/-- EXTS rt, rs, p, lenm1 (42_bitfield.md R162). -/
def execExts (rt rs : Reg) (p lenm1 : Pos) (s : State) : Host.Outcome State Fault Refusal :=
  need64 (.exts rt rs p lenm1) (fun s =>
    writeAndAdvance rt (extractField (s.readReg rs) (lowPos p) (fieldLen lenm1)) s) s

/-- EXTS32 rt, rs, p, lenm1 (42_bitfield.md R163): where the field would pass bit 63, x[rt] is a free value
and nothing else is (R166, log 8). -/
def execExts32 (rt rs : Reg) (p lenm1 : Pos) (s : State) : Host.Outcome State Fault Refusal :=
  need64 (.exts32 rt rs p lenm1) (fun s =>
    if fieldOverruns p lenm1 then writeAndAdvance rt (s.free 0) (s.drew 1)
    else writeAndAdvance rt (extractField (s.readReg rs) (highPos p) (fieldLen lenm1)) s) s

end Sys2Proof.Machine
end

