-- ==== Sys2Proof/Machine/Branch.lean ====
section
/-! DEFINITION. Meanings of the branches on a bit, BBIT0, BBIT032, BBIT1 and BBIT132 (41_bbit.md). -/

namespace Sys2Proof.Machine

/-- BBIT0 rs, p, offset (41_bbit.md R145): branch if bit `p` is clear. -/
def execBbit0 (rs : Reg) (p : Pos) (offset : Off16) (s : State) : Host.Outcome State Fault Refusal :=
  branchOn (!testedBit (s.readReg rs) (lowPos p)) offset s

/-- BBIT032 rs, p, offset (41_bbit.md R146): branch if bit `p + 32` is clear. -/
def execBbit032 (rs : Reg) (p : Pos) (offset : Off16) (s : State) : Host.Outcome State Fault Refusal :=
  branchOn (!testedBit (s.readReg rs) (highPos p)) offset s

/-- BBIT1 rs, p, offset (41_bbit.md R147): branch if bit `p` is set. -/
def execBbit1 (rs : Reg) (p : Pos) (offset : Off16) (s : State) : Host.Outcome State Fault Refusal :=
  branchOn (testedBit (s.readReg rs) (lowPos p)) offset s

/-- BBIT132 rs, p, offset (41_bbit.md R148): branch if bit `p + 32` is set. -/
def execBbit132 (rs : Reg) (p : Pos) (offset : Off16) (s : State) : Host.Outcome State Fault Refusal :=
  branchOn (testedBit (s.readReg rs) (highPos p)) offset s

end Sys2Proof.Machine
end

