-- ==== Sys2Proof/Machine/Compare.lean ====
section
/-! DEFINITION. Meanings of the comparisons SEQ, SEQI, SNE and SNEI (46_set_on_equal.md). -/

namespace Sys2Proof.Machine

/-- SEQ rd, rs, rt (46_set_on_equal.md R210). -/
def execSeq (rd rs rt : Reg) (s : State) : Host.Outcome State Fault Refusal :=
  writeAndAdvance rd (setOn (s.readReg rs == s.readReg rt)) s

/-- SEQI rt, rs, immediate (46_set_on_equal.md R211). -/
def execSeqi (rt rs : Reg) (imm : Imm10) (s : State) : Host.Outcome State Fault Refusal :=
  writeAndAdvance rt (setOn (s.readReg rs == immValue imm)) s

/-- SNE rd, rs, rt (46_set_on_equal.md R212). -/
def execSne (rd rs rt : Reg) (s : State) : Host.Outcome State Fault Refusal :=
  writeAndAdvance rd (setOn (s.readReg rs != s.readReg rt)) s

/-- SNEI rt, rs, immediate (46_set_on_equal.md R213). -/
def execSnei (rt rs : Reg) (imm : Imm10) (s : State) : Host.Outcome State Fault Refusal :=
  writeAndAdvance rt (setOn (s.readReg rs != immValue imm)) s

end Sys2Proof.Machine
end

