-- ==== Sys2Proof/Machine/MultRegs.lean ====
section
/-! DEFINITION. Meanings of the moves into the multiplier unit, MTM0-2 and MTP0-2 (45_multiplier_regs.md). -/

namespace Sys2Proof.Machine

/-- MTM0 rs (45_multiplier_regs.md R190): MPL0 is loaded, P0 to P2 are zeroed. -/
def execMtm0 (rs : Reg) (s : State) : Host.Outcome State Fault Refusal :=
  needMul (.mtm0 rs) (fun s =>
    setMulAndAdvance { s.mul.loaded with mpl0 := s.readReg rs } s) s

/-- MTM1 rs (45_multiplier_regs.md R191): MPL1 is loaded, P0 to P2 are zeroed. -/
def execMtm1 (rs : Reg) (s : State) : Host.Outcome State Fault Refusal :=
  needMul (.mtm1 rs) (fun s =>
    setMulAndAdvance { s.mul.loaded with mpl1 := s.readReg rs } s) s

/-- MTM2 rs (45_multiplier_regs.md R192): MPL2 is loaded, P0 to P2 are zeroed. -/
def execMtm2 (rs : Reg) (s : State) : Host.Outcome State Fault Refusal :=
  needMul (.mtm2 rs) (fun s =>
    setMulAndAdvance { s.mul.loaded with mpl2 := s.readReg rs } s) s

/-- MTP0 rs (45_multiplier_regs.md R193): P0 is loaded, nothing is zeroed. -/
def execMtp0 (rs : Reg) (s : State) : Host.Outcome State Fault Refusal :=
  needMul (.mtp0 rs) (fun s =>
    setMulAndAdvance { s.mul.presetSeq with p0 := s.readReg rs } s) s

/-- MTP1 rs (45_multiplier_regs.md R194): P1 is loaded, nothing is zeroed. -/
def execMtp1 (rs : Reg) (s : State) : Host.Outcome State Fault Refusal :=
  needMul (.mtp1 rs) (fun s =>
    setMulAndAdvance { s.mul.presetSeq with p1 := s.readReg rs } s) s

/-- MTP2 rs (45_multiplier_regs.md R195): P2 is loaded, nothing is zeroed. -/
def execMtp2 (rs : Reg) (s : State) : Host.Outcome State Fault Refusal :=
  needMul (.mtp2 rs) (fun s =>
    setMulAndAdvance { s.mul.presetSeq with p2 := s.readReg rs } s) s

end Sys2Proof.Machine
end

