-- ==== Sys2Proof/Machine/Sync.lean ====
section
/-! DEFINITION. Meanings of the barriers SYNCIOBDMA, SYNCS, SYNCW and SYNCWS (47_sync.md): in a model of one core each
records its event and advances pc (R220, log 24). -/

namespace Sys2Proof.Machine

/-- SYNCIOBDMA (47_sync.md R221): no IOBDMA is ever outstanding in the model. -/
def execSynciobdma (s : State) : Host.Outcome State Fault Refusal := barrier .synciobdma s

/-- SYNCS (47_sync.md R222). -/
def execSyncs (s : State) : Host.Outcome State Fault Refusal := barrier .syncs s

/-- SYNCW (47_sync.md R223). -/
def execSyncw (s : State) : Host.Outcome State Fault Refusal := barrier .syncw s

/-- SYNCWS (47_sync.md R224). -/
def execSyncws (s : State) : Host.Outcome State Fault Refusal := barrier .syncws s

end Sys2Proof.Machine
end

