-- ==== Sys2Proof/Machine/Unaligned.lean ====
section
/-! DEFINITION. Meanings of the unaligned loads and stores ULD, ULW, USD and USW and of the NOP forms
(48_unaligned.md). The opcode an instruction stands in has no effect on what it does (R246); whether it
exists is the decoder's question (R235, R236; log 33). -/

namespace Sys2Proof.Machine

/-- ULD (48_unaligned.md R237, R241): the doubleword at the effective address. -/
def loadDoubleword (i : Instr) (rt : Reg) (offset : Off16) (base : Reg) (s : State) :
    Host.Outcome State Fault Refusal :=
  need64 i (fun s =>
    loadUnaligned rt (effectiveAddress (s.readReg base) offset) 8 (BitVec.ofNat 64) s) s

/-- ULW (48_unaligned.md R238): the word at the effective address, sign-extended. It does not test `ops64`. -/
def loadWord (rt : Reg) (offset : Off16) (base : Reg) (s : State) : Host.Outcome State Fault Refusal :=
  loadUnaligned rt (effectiveAddress (s.readReg base) offset) 4
    (fun v => (BitVec.ofNat 32 v).signExtend 64) s

/-- USD (48_unaligned.md R239, R241): the doubleword of rt. -/
def storeDoubleword (i : Instr) (rt : Reg) (offset : Off16) (base : Reg) (s : State) :
    Host.Outcome State Fault Refusal :=
  need64 i (fun s => storeUnaligned (effectiveAddress (s.readReg base) offset) 8 (s.readReg rt) s) s

/-- USW (48_unaligned.md R240): the low word of rt (log 30). It does not test `ops64`. -/
def storeWord (rt : Reg) (offset : Off16) (base : Reg) (s : State) : Host.Outcome State Fault Refusal :=
  storeUnaligned (effectiveAddress (s.readReg base) offset) 4 (s.readReg rt) s

/-- ULD in the left opcode (48_unaligned.md R237). -/
def execUldLeft (rt : Reg) (offset : Off16) (base : Reg) (s : State) : Host.Outcome State Fault Refusal :=
  loadDoubleword (.uldLeft rt offset base) rt offset base s

/-- ULW in the left opcode (48_unaligned.md R238). -/
def execUlwLeft (rt : Reg) (offset : Off16) (base : Reg) (s : State) : Host.Outcome State Fault Refusal :=
  loadWord rt offset base s

/-- USD in the left opcode (48_unaligned.md R239). -/
def execUsdLeft (rt : Reg) (offset : Off16) (base : Reg) (s : State) : Host.Outcome State Fault Refusal :=
  storeDoubleword (.usdLeft rt offset base) rt offset base s

/-- USW in the left opcode (48_unaligned.md R240). -/
def execUswLeft (rt : Reg) (offset : Off16) (base : Reg) (s : State) : Host.Outcome State Fault Refusal :=
  storeWord rt offset base s

/-- ULD in the right opcode (48_unaligned.md R237). -/
def execUldRight (rt : Reg) (offset : Off16) (base : Reg) (s : State) : Host.Outcome State Fault Refusal :=
  loadDoubleword (.uldRight rt offset base) rt offset base s

/-- ULW in the right opcode (48_unaligned.md R238). -/
def execUlwRight (rt : Reg) (offset : Off16) (base : Reg) (s : State) : Host.Outcome State Fault Refusal :=
  loadWord rt offset base s

/-- USD in the right opcode (48_unaligned.md R239). -/
def execUsdRight (rt : Reg) (offset : Off16) (base : Reg) (s : State) : Host.Outcome State Fault Refusal :=
  storeDoubleword (.usdRight rt offset base) rt offset base s

/-- USW in the right opcode (48_unaligned.md R240). -/
def execUswRight (rt : Reg) (offset : Off16) (base : Reg) (s : State) : Host.Outcome State Fault Refusal :=
  storeWord rt offset base s

/-- The NOP form of LDR (48_unaligned.md R243): a meaning only while `ops64` is true. -/
def execNopLdr (s : State) : Host.Outcome State Fault Refusal := doublewordNopForm s

/-- The NOP form of LDL (48_unaligned.md R243): a meaning only while `ops64` is true. -/
def execNopLdl (s : State) : Host.Outcome State Fault Refusal := doublewordNopForm s

/-- The NOP form of SDR (48_unaligned.md R243): a meaning only while `ops64` is true. -/
def execNopSdr (s : State) : Host.Outcome State Fault Refusal := doublewordNopForm s

/-- The NOP form of SDL (48_unaligned.md R243): a meaning only while `ops64` is true. -/
def execNopSdl (s : State) : Host.Outcome State Fault Refusal := doublewordNopForm s

/-- The NOP form of LWR (48_unaligned.md R243). -/
def execNopLwr (s : State) : Host.Outcome State Fault Refusal := nopForm s

/-- The NOP form of LWL (48_unaligned.md R243). -/
def execNopLwl (s : State) : Host.Outcome State Fault Refusal := nopForm s

/-- The NOP form of SWR (48_unaligned.md R243). -/
def execNopSwr (s : State) : Host.Outcome State Fault Refusal := nopForm s

/-- The NOP form of SWL (48_unaligned.md R243). -/
def execNopSwl (s : State) : Host.Outcome State Fault Refusal := nopForm s

end Sys2Proof.Machine
end

