-- ==== Sys2Proof/Machine/VMul.lean ====
section
/-! DEFINITION. Meanings of the multiply-and-add instructions V3MULU, VMM0 and VMULU (49_vmul.md). -/

namespace Sys2Proof.Machine

/-- V3MULU on a sum (49_vmul.md R265): P0 to P2 take bits 255:64. -/
def State.v3muluMul (s : State) (n : Nat) : MulState :=
  { s.mul with p0 := limb n 1, p1 := limb n 2, p2 := limb n 3, mseq := .afterV3mulu, mtpDirty := false }

/-- V3MULU rd, rs, rt (49_vmul.md R265, R270, R271). -/
def execV3mulu (rd rs rt : Reg) (s : State) : Host.Outcome State Fault Refusal :=
  needMul (.v3mulu rd rs rt) (fun s =>
    if s.mul.breaksV3mulu then .fault (.unpredictableOperation .multiplierSequence)
    else
      writeAndAdvance rd (limb (s.mul.sum3 (s.readReg rs) (s.readReg rt)) 0)
        (s.withMul (s.v3muluMul (s.mul.sum3 (s.readReg rs) (s.readReg rt))))) s

/-- VMM0 on a sum (49_vmul.md R267): MPL0 takes the low word, or a free value where `rd` is register 0
(R268, log 9); MPL1 and MPL2 are free values (log 8); P0 to P2 are zero. -/
def State.vmm0Mul (s : State) (rd : Reg) (n : Nat) : MulState :=
  { s.mul.loaded with mpl0 := if rd = 0#5 then s.free 2 else limb n 0, mpl1 := s.free 0, mpl2 := s.free 1 }

/-- VMM0 rd, rs, rt (49_vmul.md R267, R268, R270, R271). -/
def execVmm0 (rd rs rt : Reg) (s : State) : Host.Outcome State Fault Refusal :=
  needMul (.vmm0 rd rs rt) (fun s =>
    if s.mul.breaksVmulu then .fault (.unpredictableOperation .multiplierSequence)
    else
      writeAndAdvance rd (limb (s.mul.sum1 (s.readReg rs) (s.readReg rt)) 0)
        ((s.withMul (s.vmm0Mul rd (s.mul.sum1 (s.readReg rs) (s.readReg rt)))).drew 3)) s

/-- VMULU on a sum (49_vmul.md R269): P0 takes bits 127:64; P1, P2, MPL1 and MPL2 are free values (log 8);
MPL0 keeps its value. -/
def State.vmuluMul (s : State) (n : Nat) : MulState :=
  { s.mul with
    mpl1 := s.free 0, mpl2 := s.free 1, p0 := limb n 1, p1 := s.free 2, p2 := s.free 3
    mseq := .afterVmulu, mtpDirty := false }

/-- VMULU rd, rs, rt (49_vmul.md R269, R270, R271). -/
def execVmulu (rd rs rt : Reg) (s : State) : Host.Outcome State Fault Refusal :=
  needMul (.vmulu rd rs rt) (fun s =>
    if s.mul.breaksVmulu then .fault (.unpredictableOperation .multiplierSequence)
    else
      writeAndAdvance rd (limb (s.mul.sum1 (s.readReg rs) (s.readReg rt)) 0)
        ((s.withMul (s.vmuluMul (s.mul.sum1 (s.readReg rs) (s.readReg rt)))).drew 4)) s

end Sys2Proof.Machine
end

