-- ==== Sys2Proof/Machine/Dispatch.lean ====
section
/-! DEFINITION. The meaning of every instruction, one arm per constructor: each arm is one direct call of the
meaning that the family's file gives the instruction. -/

namespace Sys2Proof.Machine

def exec (i : Instr) (s : State) : Host.Outcome State Fault Refusal :=
  match i with
  | .baddu rd rs rt => Sys2Proof.Machine.execBaddu rd rs rt s
  | .bbit0 rs p offset => Sys2Proof.Machine.execBbit0 rs p offset s
  | .bbit032 rs p offset => Sys2Proof.Machine.execBbit032 rs p offset s
  | .bbit1 rs p offset => Sys2Proof.Machine.execBbit1 rs p offset s
  | .bbit132 rs p offset => Sys2Proof.Machine.execBbit132 rs p offset s
  | .cins rt rs p lenm1 => Sys2Proof.Machine.execCins rt rs p lenm1 s
  | .cins32 rt rs p lenm1 => Sys2Proof.Machine.execCins32 rt rs p lenm1 s
  | .dmul rd rs rt => Sys2Proof.Machine.execDmul rd rs rt s
  | .dpop rd rs => Sys2Proof.Machine.execDpop rd rs s
  | .exts rt rs p lenm1 => Sys2Proof.Machine.execExts rt rs p lenm1 s
  | .exts32 rt rs p lenm1 => Sys2Proof.Machine.execExts32 rt rs p lenm1 s
  | .mtm0 rs => Sys2Proof.Machine.execMtm0 rs s
  | .mtm1 rs => Sys2Proof.Machine.execMtm1 rs s
  | .mtm2 rs => Sys2Proof.Machine.execMtm2 rs s
  | .mtp0 rs => Sys2Proof.Machine.execMtp0 rs s
  | .mtp1 rs => Sys2Proof.Machine.execMtp1 rs s
  | .mtp2 rs => Sys2Proof.Machine.execMtp2 rs s
  | .pop rd rs => Sys2Proof.Machine.execPop rd rs s
  | .seq rd rs rt => Sys2Proof.Machine.execSeq rd rs rt s
  | .seqi rt rs imm => Sys2Proof.Machine.execSeqi rt rs imm s
  | .sne rd rs rt => Sys2Proof.Machine.execSne rd rs rt s
  | .snei rt rs imm => Sys2Proof.Machine.execSnei rt rs imm s
  | .synciobdma => Sys2Proof.Machine.execSynciobdma s
  | .syncs => Sys2Proof.Machine.execSyncs s
  | .syncw => Sys2Proof.Machine.execSyncw s
  | .syncws => Sys2Proof.Machine.execSyncws s
  | .uldLeft rt offset base => Sys2Proof.Machine.execUldLeft rt offset base s
  | .uldRight rt offset base => Sys2Proof.Machine.execUldRight rt offset base s
  | .ulwLeft rt offset base => Sys2Proof.Machine.execUlwLeft rt offset base s
  | .ulwRight rt offset base => Sys2Proof.Machine.execUlwRight rt offset base s
  | .usdLeft rt offset base => Sys2Proof.Machine.execUsdLeft rt offset base s
  | .usdRight rt offset base => Sys2Proof.Machine.execUsdRight rt offset base s
  | .uswLeft rt offset base => Sys2Proof.Machine.execUswLeft rt offset base s
  | .uswRight rt offset base => Sys2Proof.Machine.execUswRight rt offset base s
  | .nopLdr _ _ _ => Sys2Proof.Machine.execNopLdr s
  | .nopLdl _ _ _ => Sys2Proof.Machine.execNopLdl s
  | .nopLwr _ _ _ => Sys2Proof.Machine.execNopLwr s
  | .nopLwl _ _ _ => Sys2Proof.Machine.execNopLwl s
  | .nopSdr _ _ _ => Sys2Proof.Machine.execNopSdr s
  | .nopSdl _ _ _ => Sys2Proof.Machine.execNopSdl s
  | .nopSwr _ _ _ => Sys2Proof.Machine.execNopSwr s
  | .nopSwl _ _ _ => Sys2Proof.Machine.execNopSwl s
  | .v3mulu rd rs rt => Sys2Proof.Machine.execV3mulu rd rs rt s
  | .vmm0 rd rs rt => Sys2Proof.Machine.execVmm0 rd rs rt s
  | .vmulu rd rs rt => Sys2Proof.Machine.execVmulu rd rs rt s

end Sys2Proof.Machine
end

