-- ==== Sys2Proof/Machine/Step.lean ====
section
/-! DEFINITION. One step of the machine (70_reset_and_hazards.md R354), and the placing of an instruction where
the next step fetches. -/

namespace Sys2Proof.Machine

/-- One step: a state that has recorded an exception outcome has stopped (60_exceptions.md R296); otherwise
the instruction at pc is fetched, decoded and executed. The meaning itself moves pc and the delay
state (10_state.md R24). -/
def step (s : State) : Host.Outcome State Fault Refusal :=
  match s.exception with
  | some r => .fault (.stoppedByException r)
  | none =>
    match s.fetch with
    | .ok i => exec i s
    | .error r => .refused r

/-- `s` with an instruction stored at its pc, as program text, its bits above `nbits` zero. Log 32. -/
def State.withFetchWord (s : State) (nbits w : Nat) : State :=
  s.placeAtPc (w % 2 ^ min nbits 32)

end Sys2Proof.Machine
end

