-- ==== Sys2Proof/Safety.lean ====
section
/-! DEFINITION. The terms in which statements speak of a step: what stays the same (frames), the result of an
instruction that goes on, when a multiply keeps the sequencing restrictions, which exceptions an
instruction may raise, and the invariant that every step keeps. -/

namespace Sys2Proof.Machine

/-! ## Frames -/

/-- Every general register reads as before. -/
def SameRegs (s t : State) : Prop := ∀ r : Reg, t.readReg r = s.readReg r

/-- Register `d` reads `v` (zero where `d` is register 0, 10_state.md R21); every other register reads as
before. -/
def WroteReg (d : Reg) (v : Word) (s t : State) : Prop :=
  t.readReg d = (if d = 0#5 then 0#64 else v) ∧ ∀ r : Reg, r ≠ d → t.readReg r = s.readReg r

/-- Every byte of memory reads as before. -/
def SameMem (s t : State) : Prop := ∀ a : Word, t.readByte a = s.readByte a

/-- Every byte outside the `n` bytes from `ea` up (modulo 2^64) reads as before. -/
def SameMemOutside (ea : Word) (n : Nat) (s t : State) : Prop :=
  ∀ a : Word, (∀ k < n, a ≠ ea + BitVec.ofNat 64 k) → t.readByte a = s.readByte a

/-- The configuration of the run is as before (10_state.md R36): CvmCtl, CvmMemCtl, `ops64`, Admit, the
addresses of the program text, halt_pc. -/
def SameConfig (s t : State) : Prop :=
  t.cvmCtl = s.cvmCtl ∧ t.cvmMemCtl = s.cvmMemCtl ∧ t.ops64 = s.ops64 ∧
    t.admission = s.admission ∧ t.text = s.text ∧ t.haltPc = s.haltPc

/-- No barrier event was recorded and no exception raised. -/
def SameRecord (s t : State) : Prop := t.history = s.history ∧ t.exception = s.exception

/-- Control went on as after every instruction that is no branch (10_state.md R24): to the pending target
in a delay slot, to the next word otherwise. -/
def WentOn (s t : State) : Prop :=
  t.delay = none ∧ t.pc = match s.delay with
    | some d => d
    | none => s.pc + 4#64

/-- The frame of an instruction that only writes general register `d`. -/
def OnlyWrites (d : Reg) (v : Word) (s t : State) : Prop :=
  WroteReg d v s t ∧ SameMem s t ∧ t.mul = s.mul ∧ SameConfig s t ∧ SameRecord s t ∧ WentOn s t

/-- The frame of an instruction that writes general register `d` and the multiply state, of which the
statement speaks on its own. -/
def WritesWithMul (d : Reg) (v : Word) (s t : State) : Prop :=
  WroteReg d v s t ∧ SameMem s t ∧ SameConfig s t ∧ SameRecord s t ∧ WentOn s t

/-- The frame of an instruction that writes the multiply state only. -/
def OnlyWritesMul (s t : State) : Prop :=
  SameRegs s t ∧ SameMem s t ∧ SameConfig s t ∧ SameRecord s t ∧ WentOn s t

/-- The frame of an instruction that changes nothing but pc and the delay state. -/
def OnlyGoesOn (s t : State) : Prop :=
  SameRegs s t ∧ SameMem s t ∧ t.mul = s.mul ∧ SameConfig s t ∧ SameRecord s t ∧ WentOn s t

/-- The frame of a store of `n` bytes at `ea` that completes. -/
def OnlyStores (ea : Word) (n : Nat) (s t : State) : Prop :=
  SameRegs s t ∧ SameMemOutside ea n s t ∧ t.mul = s.mul ∧ SameConfig s t ∧ SameRecord s t ∧ WentOn s t

/-- The exception outcome of an instruction that has written nothing (60_exceptions.md R296, R297): the
state before it, with the outcome recorded. -/
def OnlyRaises (cause : ExcCause) (info : ExcInfo) (s t : State) : Prop :=
  t = { s with exception := some ⟨cause, s.pc, s.delay.isSome, info⟩ }

/-! ## Conditions -/

/-- Admit admits every part of an access of `n` bytes at `ea` (20_memory.md R69, R71). -/
def AllAdmitted (s : State) (ea : Word) (n : Nat) (k : AccessKind) : Prop :=
  ∀ q ∈ accessParts ea n, s.admission.answerFor q.addr q.len k = .ok

/-- No byte of the `n` bytes from `ea` up is program text (20_memory.md R79). -/
def ClearOfText (s : State) (ea : Word) (n : Nat) : Prop :=
  ∀ k < n, s.inText (ea + BitVec.ofNat 64 k) = false

/-- Byte `k` from the effective address of an `n`-byte value `v`, in byte order `le` (20_memory.md R64). -/
def byteAt (le : Bool) (n : Nat) (v : Word) (k : Nat) : Byte :=
  v.extractLsb' (8 * if le then k else n - 1 - k) 8

/-- The field `x` of an instruction word, its lowest bit at bit `k` of the word. -/
def fieldAt {n : Nat} (x : BitVec n) (k : Nat) : InsnWord := x.setWidth 32 <<< k

/-- The instruction tests `ops64` (60_exceptions.md R292(a), R292(c)). -/
def tests64 : Instr → Bool
  | .cins _ _ _ _ | .cins32 _ _ _ _ | .exts _ _ _ _ | .exts32 _ _ _ _ | .dmul _ _ _ | .dpop _ _ => true
  | .uldLeft _ _ _ | .uldRight _ _ _ | .usdLeft _ _ _ | .usdRight _ _ _ => true
  | _ => false

/-- The instruction tests `ops64` and CvmCtl.NOMUL (60_exceptions.md R292(b)). -/
def testsMul : Instr → Bool
  | .mtm0 _ | .mtm1 _ | .mtm2 _ | .mtp0 _ | .mtp1 _ | .mtp2 _ => true
  | .v3mulu _ _ _ | .vmm0 _ _ _ | .vmulu _ _ _ => true
  | _ => false

/-- USD and USW, in either opcode. -/
def isStore : Instr → Bool
  | .usdLeft _ _ _ | .usdRight _ _ _ | .uswLeft _ _ _ | .uswRight _ _ _ => true
  | _ => false

/-- ULD and ULW, in either opcode. -/
def isLoad : Instr → Bool
  | .uldLeft _ _ _ | .uldRight _ _ _ | .ulwLeft _ _ _ | .ulwRight _ _ _ => true
  | _ => false

/-- The four branches on a bit (41_bbit.md). -/
def isBranch : Instr → Bool
  | .bbit0 _ _ _ | .bbit032 _ _ _ | .bbit1 _ _ _ | .bbit132 _ _ _ => true
  | _ => false

/-- VMULU, VMM0 and V3MULU (49_vmul.md). -/
def isMultiply : Instr → Bool
  | .v3mulu _ _ _ | .vmm0 _ _ _ | .vmulu _ _ _ => true
  | _ => false

/-- The NOP forms of the LDL/LDR and SDL/SDR pairs (48_unaligned.md R243). -/
def isDoublewordNop : Instr → Bool
  | .nopLdl _ _ _ | .nopLdr _ _ _ | .nopSdl _ _ _ | .nopSdr _ _ _ => true
  | _ => false

/-- The fourteen instructions that raise no exception (60_exceptions.md R291). -/
def isOfTheFourteen : Instr → Bool
  | .baddu _ _ _ | .bbit0 _ _ _ | .bbit032 _ _ _ | .bbit1 _ _ _ | .bbit132 _ _ _ | .pop _ _ => true
  | .seq _ _ _ | .seqi _ _ _ | .sne _ _ _ | .snei _ _ _ => true
  | .synciobdma | .syncs | .syncw | .syncws => true
  | _ => false

/-- The barrier event an instruction records, if it is a barrier (47_sync.md R220). -/
def barrierEvent : Instr → List BarrierEvent
  | .synciobdma => [.synciobdma]
  | .syncs => [.syncs]
  | .syncw => [.syncw]
  | .syncws => [.syncws]
  | _ => []

/-- The exceptions the source lists for an instruction (60_exceptions.md Table R290). -/
def mayRaise (i : Instr) : ExcCause → Bool
  | .reservedInstruction => tests64 i || testsMul i
  | .access .tlbModified => isStore i
  | .access _ => isLoad i || isStore i

/-- The instruction is reserved in `s` (60_exceptions.md R292). -/
def Reserved (i : Instr) (s : State) : Prop :=
  (tests64 i = true ∧ s.ops64 = false) ∨ (testsMul i = true ∧ (s.ops64 = false ∨ s.cvmCtl.nomul = true))

/-- The memory access an instruction asks for: its effective address, its length in bytes, its kind
(20_memory.md R66, R67, R72). -/
def State.accessOf (s : State) : Instr → Option (Word × Nat × AccessKind)
  | .uldLeft _ offset base | .uldRight _ offset base =>
    some (effectiveAddress (s.readReg base) offset, 8, .load)
  | .ulwLeft _ offset base | .ulwRight _ offset base =>
    some (effectiveAddress (s.readReg base) offset, 4, .load)
  | .usdLeft _ offset base | .usdRight _ offset base =>
    some (effectiveAddress (s.readReg base) offset, 8, .store)
  | .uswLeft _ offset base | .uswRight _ offset base =>
    some (effectiveAddress (s.readReg base) offset, 4, .store)
  | _ => none

/-- Of the parts of an access, the first that Admit does not admit is given no step (20_memory.md R71,
60_exceptions.md R317(e)). -/
def FirstGivesNoStep (p : Admission) (k : AccessKind) (parts : List Part) : Prop :=
  ∃ (before : List Part) (q : Part) (after : List Part), parts = before ++ q :: after ∧
    (∀ b ∈ before, p.answerFor b.addr b.len k = .ok) ∧ p.answerFor q.addr q.len k = .noStep

/-- The access of an instruction that is not reserved and, if a store, clear of the program text has no step. -/
def NoStepAccess (i : Instr) (s : State) : Prop :=
  ∃ (ea : Word) (n : Nat) (k : AccessKind), s.accessOf i = some (ea, n, k) ∧ ¬ Reserved i s ∧
    (k = .store → ClearOfText s ea n) ∧ FirstGivesNoStep s.admission k (accessParts ea n)

/-! ## How a step may stop, and the invariant -/

/-- Why `exec` may stop instead of answering a next state, and nothing else: UnpredictableOperation
(60_exceptions.md R317(c)) for a branch in a delay slot or a multiply that breaks the sequencing
restrictions; no step (R317(e)) for an access Admit gives none, a store over program text, a
doubleword NOP form without 64-bit operations. -/
def StopsAsNamed (i : Instr) (s : State) : Host.Outcome State Fault Refusal → Prop
  | .next _ => True
  | .fault (.unpredictableOperation .branchInDelaySlot) => isBranch i = true ∧ s.delay ≠ none
  | .fault (.unpredictableOperation .multiplierSequence) =>
    isMultiply i = true ∧ s.ops64 = true ∧ s.cvmCtl.nomul = false ∧
      (s.mul.mtpDirty = true ∨ (s.mul.mseq = .afterV3mulu ∧ ∀ rd rs rt : Reg, i ≠ .v3mulu rd rs rt))
  | .fault (.stoppedByException _) => False
  | .refused .accessNotAdmitted => NoStepAccess i s
  | .refused .storeToProgramText =>
    ∃ (ea : Word) (n : Nat), s.accessOf i = some (ea, n, .store) ∧ ¬ Reserved i s ∧ ¬ ClearOfText s ea n
  | .refused .doublewordNopWithout64 => isDoublewordNop i = true ∧ s.ops64 = false
  | .refused _ => False

/-- The invariant of the machine: memory is in canonical form; the stored cell of register 0 is zero; pc and
a pending target are multiples of 4 (10_state.md R25); `mtp_dirty` holds only while `mseq` is not
Loaded (10_state.md R30); no answer of Admit names TLB Modified for anything but a store
(60_exceptions.md R293); and a recorded exception outcome names the pc and the delay slot the run
stopped at (60_exceptions.md R296). -/
def State.Inv (s : State) : Prop :=
  s.mem.wf = true ∧ s.regs[0] = 0#64 ∧ s.pc.toNat % 4 = 0 ∧
    (∀ t : Word, s.delay = some t → t.toNat % 4 = 0) ∧
    (s.mul.mtpDirty = true → s.mul.mseq ≠ .loaded) ∧ s.admission.wf = true ∧
    (∀ r : ExceptionRecord, s.exception = some r → r.pc = s.pc ∧ r.inDelaySlot = s.delay.isSome)

end Sys2Proof.Machine
end

