-- ==== Sys2Proof/Certificates/Slice0/Obligations.lean ====
section
/-! DEFINITION. The statements for the provers: one `def Obligations.<Name> : Prop` each. A docstring names the
rule of spec/ it rests on. Where a statement rests on a choice of the model its docstring names the
log entry. -/

open Sys2Proof Sys2Proof.Machine

/-! ## Encoding -/

/-- Decoding the word of an instruction that exists under the configuration gives the instruction, for
every operand at every value (30_encoding.md R102 to R115; some numbers are from general knowledge, log 25). -/
def Obligations.DecodeOfEncode : Prop :=
  ∀ (c : CvmCtl) (i : Instr), i.wf c = true → decodeWord c (encode i) = .ok i

/-- A word that decodes is the word of the instruction it decodes to, so no bit of it is ignored, and that
instruction exists under the configuration (30_encoding.md R115; that zero fields are checked is the spec's
decision D18, log 26; some numbers are from general knowledge, log 25). -/
def Obligations.EncodeOfDecode : Prop :=
  ∀ (c : CvmCtl) (w : InsnWord) (i : Instr), decodeWord c w = .ok i → encode i = w ∧ i.wf c = true

/-- Four bytes that hold a word in the byte order of the configuration decode as the word does, and the
bytes after them are left (20_memory.md R65; 92_eei_decisions.md D10, log 16). -/
def Obligations.DecodeOfStoredBytes : Prop :=
  ∀ (c : CvmCtl) (w : InsnWord) (rest : List Byte),
    decodeBytes c (natToBytes c.le 4 w.toNat ++ rest) =
      match decodeWord c w with
      | .ok i => .ok (i, rest)
      | .error r => .error r

/-- Words the spec writes out in its examples decode to the instructions it names (the Example lines of
40_baddu.md to 49_vmul.md), under big-endian and little-endian configurations with USEUN set. The numbers of
BADDU, BBIT0, BBIT132, EXTS32 and ULD are from general knowledge (log 25). -/
def Obligations.SpecWordsDecode : Prop :=
  ∀ c : CvmCtl, c.useun = true → c.usely = false →
    decodeWord c 0x70221828#32 = .ok (.baddu 3#5 1#5 2#5) ∧
    decodeWord c 0xC843FFFE#32 = .ok (.bbit0 2#5 3#5 0xFFFE#16) ∧
    decodeWord c 0xF8BF8000#32 = .ok (.bbit132 5#5 31#5 0x8000#16) ∧
    decodeWord c 0x70227A32#32 = .ok (.cins 2#5 1#5 8#5 15#5) ∧
    decodeWord c 0x70227A3B#32 = .ok (.exts32 2#5 1#5 8#5 15#5) ∧
    decodeWord c 0x70221803#32 = .ok (.dmul 3#5 1#5 2#5) ∧
    decodeWord c 0x7020182C#32 = .ok (.pop 3#5 1#5) ∧
    decodeWord c 0x7080000C#32 = .ok (.mtm1 4#5) ∧
    decodeWord c 0x7022802F#32 = .ok (.snei 2#5 1#5 0x200#10) ∧
    decodeWord c 0x0000014F#32 = .ok .syncws ∧
    decodeWord c 0x70221811#32 = .ok (.v3mulu 3#5 1#5 2#5) ∧
    (c.le = false → decodeWord c 0x6886FFFD#32 = .ok (.uldLeft 6#5 0xFFFD#16 4#5)) ∧
    (c.le = true → decodeWord c 0x6C86FFFD#32 = .ok (.uldRight 6#5 0xFFFD#16 4#5))

/-- 48_unaligned.md R235: ULD, ULW, USD and USW exist only while CvmCtl.USEUN is 1; with it clear the eight
major opcodes are the base architecture's and are refused by name. Their numbers are from general knowledge
(log 25). -/
def Obligations.UnalignedExistOnlyWithUseun : Prop :=
  (∀ (c : CvmCtl) (w : InsnWord) (i : Instr), decodeWord c w = .ok i →
    (isLoad i = true ∨ isStore i = true) → c.useun = true) ∧
  (∀ (c : CvmCtl) (w : InsnWord) (op : BitVec 6) (b : BaseInstr), c.useun = false →
    (op, b) ∈ [(0x1A#6, BaseInstr.ldl), (0x1B#6, .ldr), (0x22#6, .lwl), (0x26#6, .lwr),
      (0x2C#6, .sdl), (0x2D#6, .sdr), (0x2A#6, .swl), (0x2E#6, .swr)] →
    w.extractLsb' 26 6 = op → decodeWord c w = .error (.baseInstruction b))

/-- 48_unaligned.md R236, Table R236: with USEUN set the left opcode of each pair is the unaligned
instruction when USELY = 1 or LE = 0, otherwise the right one is; the other is the NOP form. The opcode numbers
are from general knowledge (log 25). -/
def Obligations.UnalignedOpcodeSelection : Prop :=
  ∀ (c : CvmCtl) (rt : Reg) (offset : Off16) (base : Reg), c.useun = true →
    let fields := fieldAt base 21 ||| fieldAt rt 16 ||| fieldAt offset 0
    let useLeft := c.usely = true ∨ c.le = false
    (useLeft →
      decodeWord c (0x68000000#32 ||| fields) = .ok (.uldLeft rt offset base) ∧
      decodeWord c (0x6C000000#32 ||| fields) = .ok (.nopLdr rt offset base) ∧
      decodeWord c (0x88000000#32 ||| fields) = .ok (.ulwLeft rt offset base) ∧
      decodeWord c (0x98000000#32 ||| fields) = .ok (.nopLwr rt offset base) ∧
      decodeWord c (0xB0000000#32 ||| fields) = .ok (.usdLeft rt offset base) ∧
      decodeWord c (0xB4000000#32 ||| fields) = .ok (.nopSdr rt offset base) ∧
      decodeWord c (0xA8000000#32 ||| fields) = .ok (.uswLeft rt offset base) ∧
      decodeWord c (0xB8000000#32 ||| fields) = .ok (.nopSwr rt offset base)) ∧
    (¬ useLeft →
      decodeWord c (0x68000000#32 ||| fields) = .ok (.nopLdl rt offset base) ∧
      decodeWord c (0x6C000000#32 ||| fields) = .ok (.uldRight rt offset base) ∧
      decodeWord c (0x88000000#32 ||| fields) = .ok (.nopLwl rt offset base) ∧
      decodeWord c (0x98000000#32 ||| fields) = .ok (.ulwRight rt offset base) ∧
      decodeWord c (0xB0000000#32 ||| fields) = .ok (.nopSdl rt offset base) ∧
      decodeWord c (0xB4000000#32 ||| fields) = .ok (.usdRight rt offset base) ∧
      decodeWord c (0xA8000000#32 ||| fields) = .ok (.nopSwl rt offset base) ∧
      decodeWord c (0xB8000000#32 ||| fields) = .ok (.uswRight rt offset base))

/-- A word with a non-zero value in a field the figure shows as zero is refused (30_encoding.md R116, the
spec's decision D18; log 26): formats F1, F2, F5 of Special2, and F6. -/
def Obligations.ReservedFieldsRefused : Prop :=
  ∀ (c : CvmCtl) (w : InsnWord),
    (w.extractLsb' 26 6 = 0x1C#6 →
      (w.extractLsb' 0 6 ∈ [0x03#6, 0x0F#6, 0x10#6, 0x11#6, 0x28#6, 0x2A#6, 0x2B#6] →
        w.extractLsb' 6 5 ≠ 0#5 → decodeWord c w = .error (.reservedField (w.extractLsb' 0 6))) ∧
      (w.extractLsb' 0 6 ∈ [0x2C#6, 0x2D#6] →
        (w.extractLsb' 16 5 ≠ 0#5 ∨ w.extractLsb' 6 5 ≠ 0#5) →
        decodeWord c w = .error (.reservedField (w.extractLsb' 0 6))) ∧
      (w.extractLsb' 0 6 ∈ [0x08#6, 0x09#6, 0x0A#6, 0x0B#6, 0x0C#6, 0x0D#6] →
        w.extractLsb' 6 15 ≠ 0#15 → decodeWord c w = .error (.reservedField (w.extractLsb' 0 6)))) ∧
    (w.extractLsb' 26 6 = 0x00#6 → w.extractLsb' 0 6 = 0x0F#6 → w.extractLsb' 11 15 ≠ 0#15 →
      decodeWord c w = .error (.reservedField 0x0F#6))

/-! ## The step -/

/-- When the bytes at pc decode to an instruction, and the run has neither ended nor stopped, step is exec
of that instruction: the meaning itself moves pc and the delay state (70_reset_and_hazards.md R354). -/
def Obligations.StepRunsDecodedInstruction : Prop :=
  ∀ (s : State) (i : Instr) (rest : List Byte), s.exception = none →
    ¬ (s.haltPc = some s.pc ∧ s.delay = none) → s.pc.toNat % 4 = 0 → s.withinText s.pc 4 = true →
    s.admission.answerFor s.pc 4 .fetch = .ok →
    decodeBytes s.cvmCtl (s.mem.readBytes s.pc 4) = .ok (i, rest) →
    step s = exec i s

/-- Where there is no step (60_exceptions.md R298(1), R299, R317(e); 70_reset_and_hazards.md R355;
10_state.md R25): the end of the run (the form of halt_pc is the model's choice, log 27), a misaligned pc (the
spec's decision D10, log 16), a word outside the program text (the model's choice, log 15), a fetch that is not
admitted (the refusal is the model's choice, log 14), a word that is no instruction (log 26). The order is the
model's (log 31). -/
def Obligations.StepRefusesWithoutInstruction : Prop :=
  ∀ s : State, s.exception = none →
    ((s.haltPc = some s.pc ∧ s.delay = none) → step s = .refused .halted) ∧
    (¬ (s.haltPc = some s.pc ∧ s.delay = none) →
      (s.pc.toNat % 4 ≠ 0 → step s = .refused .misalignedPc) ∧
      (s.pc.toNat % 4 = 0 →
        (s.withinText s.pc 4 = false → step s = .refused .fetchOutsideText) ∧
        (s.withinText s.pc 4 = true →
          (s.admission.answerFor s.pc 4 .fetch ≠ .ok → step s = .refused .fetchNotAdmitted) ∧
          (s.admission.answerFor s.pc 4 .fetch = .ok →
            ∀ r : Reject, decodeBytes s.cvmCtl (s.mem.readBytes s.pc 4) = .error r →
              step s = .refused (.undecodable r)))))

/-- A state that has recorded an exception outcome has stopped: no instruction runs after it, however many
steps are asked for (60_exceptions.md R296; the form is the model's, log 10). -/
def Obligations.RecordedExceptionStopsRun : Prop :=
  ∀ (s : State) (r : ExceptionRecord) (n : Nat), s.exception = some r →
    Sys2Proof.core.run (n + 1) s = .fault (.stoppedByException r)

/-! ## Invariants and rules of the whole machine -/

/-- Every step keeps the invariant (canonical memory, register 0, alignment of pc and the pending target,
the sequencing state, Admit's domain, the recorded exception). The last two clauses speak of the model's own
forms (log 13, log 10); pc aligned is the spec's decision D10 (log 16). -/
def Obligations.StepKeepsInv : Prop :=
  ∀ s t : State, s.Inv → step s = .next t → t.Inv

/-- The invariant holds at reset. Of its clauses 10_state.md Table R42 gives x[0], no delay slot, `mseq` Fresh and
`mtp_dirty` false; the others rest on reset values that are the model's: pc (PRESUMED, log 2), memory with nothing
listed (log 12), Admit (log 13), no recorded exception (log 10). -/
def Obligations.ResetHasInv : Prop := State.reset.Inv

/-- What the spec gives for reset (10_state.md Table R42): x[0] is 0, no delay slot, `mseq` Fresh,
`mtp_dirty` false. -/
def Obligations.ResetValues : Prop :=
  State.reset.readReg 0#5 = 0#64 ∧ State.reset.delay = none ∧ State.reset.mul.mseq = .fresh ∧
    State.reset.mul.mtpDirty = false

/-- No step changes the configuration: no instruction writes CvmCtl, CvmMemCtl or `ops64` (10_state.md R36),
and the parameters of the run stay as given. -/
def Obligations.StepKeepsConfiguration : Prop :=
  ∀ s t : State, step s = .next t → SameConfig s t

/-- The program text is fixed for a run: no step changes a byte of it, a store that ends in an exception
included (20_memory.md R79, the spec's decision D16; log 15). -/
def Obligations.StepKeepsProgramText : Prop :=
  ∀ (s t : State) (a : Word), step s = .next t → s.inText a = true →
    t.readByte a = s.readByte a ∧ t.inText a = true

/-- Only USD and USW change memory, and no byte but the 8 or 4 at their effective address, whether they
complete or raise (20_memory.md R67, R72). -/
def Obligations.OnlyStoresWriteMemory : Prop :=
  ∀ (i : Instr) (s t : State), exec i s = .next t →
    (isStore i = false → SameMem s t) ∧
    (∀ (rt : Reg) (offset : Off16) (base : Reg),
      (i = .usdLeft rt offset base ∨ i = .usdRight rt offset base →
        SameMemOutside (effectiveAddress (s.readReg base) offset) 8 s t) ∧
      (i = .uswLeft rt offset base ∨ i = .uswRight rt offset base →
        SameMemOutside (effectiveAddress (s.readReg base) offset) 4 s t))

/-- The history grows by the event of a barrier and by nothing else (47_sync.md R220; the event form is the
spec's decision D15, log 24). -/
def Obligations.HistoryRecordsBarriers : Prop :=
  ∀ (i : Instr) (s t : State), exec i s = .next t → t.history = s.history ++ barrierEvent i

/-- An instruction raises only the exceptions Table R290 lists for it, and the outcome records its pc and
whether it stood in a delay slot (60_exceptions.md R290, R296; the record is the model's form, log 10). -/
def Obligations.RaisedExceptionIsListed : Prop :=
  ∀ (i : Instr) (s t : State) (r : ExceptionRecord), s.exception = none → s.admission.wf = true →
    exec i s = .next t → t.exception = some r →
    mayRaise i r.cause = true ∧ r.pc = s.pc ∧ r.inDelaySlot = s.delay.isSome

/-- 60_exceptions.md R291: fourteen instructions raise no exception under any operand value or
configuration. What can still stop one of them is a branch in a delay slot. -/
def Obligations.FourteenRaiseNothing : Prop :=
  ∀ (i : Instr) (s : State), isOfTheFourteen i = true →
    (∃ t, exec i s = .next t ∧ t.exception = s.exception) ∨
    (isBranch i = true ∧ s.delay ≠ none ∧ exec i s = .fault (.unpredictableOperation .branchInDelaySlot))

/-- Every exception is raised before the instruction writes anything but the first part of a store: no
register, no multiply state, no pc, no history, and no memory unless it is a store (60_exceptions.md R296,
R297, R318); and for a store no byte outside its first part, and no byte at all unless it was the second
part that raised (48_unaligned.md R242; which part is first is the spec's decision D12, log 17; the record is the
model's form, log 10). -/
def Obligations.ExceptionLeavesStateBefore : Prop :=
  ∀ (i : Instr) (s t : State) (r : ExceptionRecord), s.exception = none → exec i s = .next t →
    t.exception = some r →
    SameRegs s t ∧ t.mul = s.mul ∧ t.pc = s.pc ∧ t.delay = s.delay ∧ SameConfig s t ∧
      t.history = s.history ∧ (isStore i = false → SameMem s t) ∧
      ∀ (ea : Word) (n : Nat), s.accessOf i = some (ea, n, .store) →
        ∀ (first : Part) (others : List Part), accessParts ea n = first :: others →
          SameMemOutside first.addr first.len s t ∧
          ((∀ p ∈ others, r.info ≠ .address p.addr) → SameMem s t)

/-- An instruction raises Reserved Instruction, with nothing written, exactly when it tests `ops64` and
`ops64` is false, or it is a multiplier-unit instruction and `ops64` is false or NOMUL is 1
(60_exceptions.md R292; its part (c) is the spec's decision D9, log 21). -/
def Obligations.ReservedInstructionExactly : Prop :=
  ∀ (i : Instr) (s : State), s.exception = none →
    (((tests64 i = true ∧ s.ops64 = false) ∨
        (testsMul i = true ∧ (s.ops64 = false ∨ s.cvmCtl.nomul = true))) →
      ∃ t, exec i s = .next t ∧ OnlyRaises .reservedInstruction (.insn (encode i)) s t) ∧
    (¬ ((tests64 i = true ∧ s.ops64 = false) ∨
        (testsMul i = true ∧ (s.ops64 = false ∨ s.cvmCtl.nomul = true))) →
      ∀ t r, exec i s = .next t → t.exception = some r → r.cause ≠ .reservedInstruction)

/-- Where exec answers no next state it stops for one of the named reasons and under its condition
(60_exceptions.md R317): nothing else ends a run. And an access is refused as not admitted exactly where the
instruction is not reserved, a store is clear of the program text, and the first part Admit does not admit is given
no step (20_memory.md R71). The refusals are the model's names for no step (log 14, 15, 20); the faults are log 18 and
log 19; the order of the tests is log 31. -/
def Obligations.ExecStopsAsNamed : Prop :=
  ∀ (i : Instr) (s : State), StopsAsNamed i s (exec i s) ∧
    (NoStepAccess i s → exec i s = .refused .accessNotAdmitted)

/-- The instruction in a delay slot is followed by the pending target and the slot is left, whatever the
instruction, unless it raises (10_state.md R24; 41_bbit.md R152). -/
def Obligations.DelaySlotGoesToTarget : Prop :=
  ∀ (s t : State) (d : Word), s.delay = some d → step s = .next t → t.exception = none →
    t.pc = d ∧ t.delay = none

/-! ## BADDU, DMUL, POP and DPOP -/

/-- BADDU writes the sum modulo 256, zero-extended, in every configuration (40_baddu.md R140). -/
def Obligations.BadduAddsBytes : Prop :=
  ∀ (rd rs rt : Reg) (s : State), ∃ t, exec (.baddu rd rs rt) s = .next t ∧
    OnlyWrites rd (BitVec.ofNat 64 (((s.readReg rs).toNat + (s.readReg rt).toNat) % 256)) s t

/-- 43_dmul.md R175: the word of DMUL; Reserved Instruction when `ops64` is false; otherwise x[rd] takes the
low 64 bits of the signed product, which are also the unsigned product modulo 2^64, HI, LO and P0 to
P2 hold any values, and MPL0 to MPL2 and the sequencing state are unchanged. That NOMUL is not tested is the spec's
decision D29 (log 29). -/
def Obligations.DmulMultiplies : Prop :=
  ∀ (rd rs rt : Reg) (s : State),
    encode (.dmul rd rs rt) = 0x70000003#32 ||| fieldAt rs 21 ||| fieldAt rt 16 ||| fieldAt rd 11 ∧
    (s.ops64 = false → ∃ t, exec (.dmul rd rs rt) s = .next t ∧
      OnlyRaises .reservedInstruction (.insn (encode (.dmul rd rs rt))) s t) ∧
    (s.ops64 = true → ∃ t v, exec (.dmul rd rs rt) s = .next t ∧ WritesWithMul rd v s t ∧
      (2 : Int) ^ 64 ∣ v.toInt - (s.readReg rs).toInt * (s.readReg rt).toInt ∧
      v.toNat = (s.readReg rs).toNat * (s.readReg rt).toNat % 2 ^ 64 ∧
      t.mul.mpl0 = s.mul.mpl0 ∧ t.mul.mpl1 = s.mul.mpl1 ∧ t.mul.mpl2 = s.mul.mpl2 ∧
      t.mul.mseq = s.mul.mseq ∧ t.mul.mtpDirty = s.mul.mtpDirty)

/-- 44_popcount.md R181: the word of POP, and x[rd] takes the number of ones of bits 31 to 0 in every
configuration. -/
def Obligations.PopCountsOnes : Prop :=
  ∀ (rd rs : Reg) (s : State),
    encode (.pop rd rs) = 0x7000002C#32 ||| fieldAt rs 21 ||| fieldAt rd 11 ∧
    ∃ t, exec (.pop rd rs) s = .next t ∧
      OnlyWrites rd (BitVec.ofNat 64 ((List.range 32).countP fun j => (s.readReg rs).getLsbD j)) s t

/-- DPOP writes the number of ones of all 64 bits while 64-bit operations are enabled (44_popcount.md R180). -/
def Obligations.DpopCountsOnes : Prop :=
  ∀ (rd rs : Reg) (s : State), s.ops64 = true →
    ∃ t, exec (.dpop rd rs) s = .next t ∧
      OnlyWrites rd (BitVec.ofNat 64 ((List.range 64).countP fun j => (s.readReg rs).getLsbD j)) s t

/-! ## Branches -/

/-- Outside a delay slot each of the four branches goes to its delay slot and sets the pending target: the
branch target `pc + 4 + 4 * offset` (signed, modulo 2^64) when the bit has the value it branches on, the
word after the slot otherwise (41_bbit.md R145 to R148, R150, R152; 10_state.md R24). -/
def Obligations.BranchOnBitEntersDelaySlot : Prop :=
  ∀ (rs : Reg) (p : Pos) (offset : Off16) (s : State) (i : Instr) (taken : Bool), s.delay = none →
    ((i = .bbit0 rs p offset ∧ taken = !(s.readReg rs).getLsbD p.toNat) ∨
      (i = .bbit032 rs p offset ∧ taken = !(s.readReg rs).getLsbD (p.toNat + 32)) ∨
      (i = .bbit1 rs p offset ∧ taken = (s.readReg rs).getLsbD p.toNat) ∨
      (i = .bbit132 rs p offset ∧ taken = (s.readReg rs).getLsbD (p.toNat + 32))) →
    ∃ t, exec i s = .next t ∧ t.pc = s.pc + 4#64 ∧
      t.delay = some (if taken then BitVec.ofInt 64 (s.pc.toNat + 4 + 4 * offset.toInt) else s.pc + 8#64) ∧
      SameRegs s t ∧ SameMem s t ∧ t.mul = s.mul ∧ SameConfig s t ∧ SameRecord s t

/-- A branch in a delay slot is the fault UnpredictableOperation (41_bbit.md R151; the fault is the spec's
decision D5, log 19). -/
def Obligations.BranchInDelaySlotFaults : Prop :=
  ∀ (i : Instr) (s : State), isBranch i = true → s.delay ≠ none →
    exec i s = .fault (.unpredictableOperation .branchInDelaySlot)

/-- The pending target of a branch lies within 128 KB of the delay slot and is a multiple of 4 whenever pc
is (41_bbit.md R150). -/
def Obligations.BranchTargetRange : Prop :=
  ∀ (i : Instr) (s t : State), isBranch i = true → exec i s = .next t →
    ∃ (d : Word) (k : Int), t.delay = some d ∧ -131072 ≤ k ∧ k ≤ 131068 ∧ k % 4 = 0 ∧
      d = s.pc + 4#64 + BitVec.ofInt 64 k ∧ (s.pc.toNat % 4 = 0 → d.toNat % 4 = 0)

/-! ## Bit fields -/

/-- 42_bitfield.md R160: the word of CINS; Reserved Instruction when `ops64` is false; otherwise bits
p + lenm1 to p of x[rt] are bits lenm1 to 0 of x[rs] and every other bit of x[rt] is zero. -/
def Obligations.CinsInsertsField : Prop :=
  ∀ (rt rs : Reg) (p lenm1 : Pos) (s : State),
    encode (.cins rt rs p lenm1) =
      0x70000032#32 ||| fieldAt rs 21 ||| fieldAt rt 16 ||| fieldAt lenm1 11 ||| fieldAt p 6 ∧
    (s.ops64 = false → ∃ t, exec (.cins rt rs p lenm1) s = .next t ∧
      OnlyRaises .reservedInstruction (.insn (encode (.cins rt rs p lenm1))) s t) ∧
    (s.ops64 = true → ∃ t v, exec (.cins rt rs p lenm1) s = .next t ∧ OnlyWrites rt v s t ∧
      ∀ j < 64, v.getLsbD j = (decide (p.toNat ≤ j ∧ j ≤ p.toNat + lenm1.toNat) &&
        (s.readReg rs).getLsbD (j - p.toNat)))

/-- 42_bitfield.md R161: the word of CINS32; Reserved Instruction when `ops64` is false; where the field fits,
the field stands at bit p + 32 of x[rt] and every other bit is zero; where it does not, x[rt] holds any
value and only x[rt] changes. -/
def Obligations.Cins32InsertsField : Prop :=
  ∀ (rt rs : Reg) (p lenm1 : Pos) (s : State),
    encode (.cins32 rt rs p lenm1) =
      0x70000033#32 ||| fieldAt rs 21 ||| fieldAt rt 16 ||| fieldAt lenm1 11 ||| fieldAt p 6 ∧
    (s.ops64 = false → ∃ t, exec (.cins32 rt rs p lenm1) s = .next t ∧
      OnlyRaises .reservedInstruction (.insn (encode (.cins32 rt rs p lenm1))) s t) ∧
    (s.ops64 = true → ∃ t v, exec (.cins32 rt rs p lenm1) s = .next t ∧ OnlyWrites rt v s t ∧
      (p.toNat + 32 + lenm1.toNat ≤ 63 →
        ∀ j < 64, v.getLsbD j = (decide (p.toNat + 32 ≤ j ∧ j ≤ p.toNat + 32 + lenm1.toNat) &&
          (s.readReg rs).getLsbD (j - (p.toNat + 32)))))

/-- 42_bitfield.md R162: the word of EXTS; Reserved Instruction when `ops64` is false; otherwise the low bits
of x[rt] are bits p + lenm1 to p of x[rs] and every bit above is a copy of bit p + lenm1. -/
def Obligations.ExtsExtractsField : Prop :=
  ∀ (rt rs : Reg) (p lenm1 : Pos) (s : State),
    encode (.exts rt rs p lenm1) =
      0x7000003A#32 ||| fieldAt rs 21 ||| fieldAt rt 16 ||| fieldAt lenm1 11 ||| fieldAt p 6 ∧
    (s.ops64 = false → ∃ t, exec (.exts rt rs p lenm1) s = .next t ∧
      OnlyRaises .reservedInstruction (.insn (encode (.exts rt rs p lenm1))) s t) ∧
    (s.ops64 = true → ∃ t v, exec (.exts rt rs p lenm1) s = .next t ∧ OnlyWrites rt v s t ∧
      ∀ j < 64, v.getLsbD j = (s.readReg rs).getLsbD (p.toNat + min j lenm1.toNat))

/-- EXTS32 (42_bitfield.md R163; its function value is from general knowledge, log 25): where the field fits,
the low bits of x[rt] are bits p + 32 + lenm1 to p + 32 of x[rs] and every bit above copies the highest;
where it does not, only x[rt] changes. -/
def Obligations.Exts32ExtractsField : Prop :=
  ∀ (rt rs : Reg) (p lenm1 : Pos) (s : State), s.ops64 = true →
    ∃ t v, exec (.exts32 rt rs p lenm1) s = .next t ∧ OnlyWrites rt v s t ∧
      (p.toNat + 32 + lenm1.toNat ≤ 63 →
        ∀ j < 64, v.getLsbD j = (s.readReg rs).getLsbD (p.toNat + 32 + min j lenm1.toNat))

/-- 42_bitfield.md R164: each of CINS, CINS32, EXTS and EXTS32 raises Reserved Instruction and writes nothing
when `ops64` is false, whatever its operands; when it is true each completes and writes x[rt] only, whatever CvmCtl
holds, and where the result is defined (CINS, EXTS, and the other two when p + 32 + lenm1 <= 63) the value is one and
the same whatever CvmCtl holds. Nothing is said of the unpredictable value of R166. -/
def Obligations.BitFieldTests64First : Prop :=
  ∀ (rt rs : Reg) (p lenm1 : Pos) (s : State) (i : Instr),
    (i = .cins rt rs p lenm1 ∨ i = .cins32 rt rs p lenm1 ∨ i = .exts rt rs p lenm1 ∨
      i = .exts32 rt rs p lenm1) →
    (s.ops64 = false → ∃ t, exec i s = .next t ∧
      OnlyRaises .reservedInstruction (.insn (encode i)) s t) ∧
    (s.ops64 = true →
      (∀ c : CvmCtl, ∃ t v, exec i { s with cvmCtl := c } = .next t ∧
        OnlyWrites rt v { s with cvmCtl := c } t) ∧
      ((i = .cins rt rs p lenm1 ∨ i = .exts rt rs p lenm1 ∨ p.toNat + 32 + lenm1.toNat ≤ 63) →
        ∃ v : Word, ∀ c : CvmCtl, ∃ t, exec i { s with cvmCtl := c } = .next t ∧
          OnlyWrites rt v { s with cvmCtl := c } t))

/-- 42_bitfield.md R166: when p + 32 + lenm1 > 63, CINS32 and EXTS32 complete without exception (given
`ops64`) and only x[rt] is affected; nothing is said of its value. If rt is 0 nothing is written. -/
def Obligations.OverrunningFieldAffectsOnlyRt : Prop :=
  ∀ (rt rs : Reg) (p lenm1 : Pos) (s : State) (i : Instr), s.ops64 = true →
    p.toNat + 32 + lenm1.toNat > 63 →
    (i = .cins32 rt rs p lenm1 ∨ i = .exts32 rt rs p lenm1) →
    ∃ t, exec i s = .next t ∧ (∀ r : Reg, r ≠ rt → t.readReg r = s.readReg r) ∧
      (rt = 0#5 → SameRegs s t) ∧ SameMem s t ∧ t.mul = s.mul ∧ SameConfig s t ∧ SameRecord s t ∧
      WentOn s t

/-! ## The multiplier unit -/

/-- 45_multiplier_regs.md R190, R191, R192: the words of MTM0, MTM1 and MTM2; Reserved Instruction when `ops64`
is false or NOMUL is 1; otherwise MPL0, MPL1 or MPL2 takes x[rs], P0 to P2 become zero, `mseq` Loaded and
`mtp_dirty` false, and nothing else of the multiply state changes. The sequencing state is the spec's decision
D22 (log 18). -/
def Obligations.MtmLoadsMultiplier : Prop :=
  ∀ (rs : Reg) (s : State) (i : Instr) (w : InsnWord) (m : MulState),
    ((i = .mtm0 rs ∧ w = 0x70000008#32 ||| fieldAt rs 21 ∧ m = { s.mul with
        mpl0 := s.readReg rs, p0 := 0#64, p1 := 0#64, p2 := 0#64, mseq := .loaded, mtpDirty := false }) ∨
      (i = .mtm1 rs ∧ w = 0x7000000C#32 ||| fieldAt rs 21 ∧ m = { s.mul with
        mpl1 := s.readReg rs, p0 := 0#64, p1 := 0#64, p2 := 0#64, mseq := .loaded, mtpDirty := false }) ∨
      (i = .mtm2 rs ∧ w = 0x7000000D#32 ||| fieldAt rs 21 ∧ m = { s.mul with
        mpl2 := s.readReg rs, p0 := 0#64, p1 := 0#64, p2 := 0#64, mseq := .loaded, mtpDirty := false })) →
    encode i = w ∧
    ((s.ops64 = false ∨ s.cvmCtl.nomul = true) → ∃ t, exec i s = .next t ∧
      OnlyRaises .reservedInstruction (.insn w) s t) ∧
    (s.ops64 = true → s.cvmCtl.nomul = false → ∃ t, exec i s = .next t ∧ t.mul = m ∧ OnlyWritesMul s t)

/-- 45_multiplier_regs.md R194, R195, and R193 for MTP0 (whose function value is from general knowledge,
log 25): the words; Reserved Instruction when `ops64` is false or NOMUL is 1; otherwise P0, P1 or P2 takes
x[rs], `mtp_dirty` becomes true unless `mseq` is Loaded, and nothing else of the multiply state changes. The
sequencing state is the spec's decision D22 (log 18). -/
def Obligations.MtpLoadsProduct : Prop :=
  ∀ (rs : Reg) (s : State) (i : Instr) (w : InsnWord) (m : MulState) (dirty : Bool),
    dirty = (if s.mul.mseq = .loaded then s.mul.mtpDirty else true) →
    ((i = .mtp0 rs ∧ w = 0x70000009#32 ||| fieldAt rs 21 ∧
        m = { s.mul with p0 := s.readReg rs, mtpDirty := dirty }) ∨
      (i = .mtp1 rs ∧ w = 0x7000000A#32 ||| fieldAt rs 21 ∧
        m = { s.mul with p1 := s.readReg rs, mtpDirty := dirty }) ∨
      (i = .mtp2 rs ∧ w = 0x7000000B#32 ||| fieldAt rs 21 ∧
        m = { s.mul with p2 := s.readReg rs, mtpDirty := dirty })) →
    encode i = w ∧
    ((s.ops64 = false ∨ s.cvmCtl.nomul = true) → ∃ t, exec i s = .next t ∧
      OnlyRaises .reservedInstruction (.insn w) s t) ∧
    (s.ops64 = true → s.cvmCtl.nomul = false → ∃ t, exec i s = .next t ∧ t.mul = m ∧ OnlyWritesMul s t)

/-- VMULU on the restrictions' good side: the 128-bit value of P0 and x[rd] is the exact sum
P0 + x[rt] + x[rs] * MPL0, no bit lost; MPL0, HI and LO are unchanged; P1, P2, MPL1 and MPL2 hold any
values (49_vmul.md R269, R273, R274; 70_reset_and_hazards.md Table R346, the spec's decision D22, log 18). -/
def Obligations.VmuluExactSum : Prop :=
  ∀ (rd rs rt : Reg) (s : State), s.ops64 = true → s.cvmCtl.nomul = false → s.mul.mtpDirty = false →
    s.mul.mseq ≠ .afterV3mulu →
    ∃ t v, exec (.vmulu rd rs rt) s = .next t ∧ WritesWithMul rd v s t ∧
      v.toNat + 2 ^ 64 * t.mul.p0.toNat =
        s.mul.p0.toNat + (s.readReg rt).toNat + (s.readReg rs).toNat * s.mul.mpl0.toNat ∧
      t.mul.mpl0 = s.mul.mpl0 ∧ t.mul.hi = s.mul.hi ∧ t.mul.lo = s.mul.lo ∧
      t.mul.mseq = .afterVmulu ∧ t.mul.mtpDirty = false

/-- VMM0 on the restrictions' good side: x[rd] takes the low 64 bits of P0 + x[rt] + x[rs] * MPL0, and so does
MPL0 unless rd is 0 (nothing is said of MPL0 then, R268, log 9); P0 to P2 become zero; HI and LO are
unchanged; MPL1 and MPL2 hold any values (49_vmul.md R267; 70_reset_and_hazards.md Table R346, the spec's
decision D22, log 18). -/
def Obligations.Vmm0LowSumMoves : Prop :=
  ∀ (rd rs rt : Reg) (s : State), s.ops64 = true → s.cvmCtl.nomul = false → s.mul.mtpDirty = false →
    s.mul.mseq ≠ .afterV3mulu →
    ∃ t v, exec (.vmm0 rd rs rt) s = .next t ∧ WritesWithMul rd v s t ∧
      v.toNat =
        (s.mul.p0.toNat + (s.readReg rt).toNat + (s.readReg rs).toNat * s.mul.mpl0.toNat) % 2 ^ 64 ∧
      (rd ≠ 0#5 → t.mul.mpl0 = v) ∧ t.mul.p0 = 0#64 ∧ t.mul.p1 = 0#64 ∧ t.mul.p2 = 0#64 ∧
      t.mul.hi = s.mul.hi ∧ t.mul.lo = s.mul.lo ∧ t.mul.mseq = .loaded ∧ t.mul.mtpDirty = false

/-- V3MULU on the restrictions' good side: the 256-bit value of P2, P1, P0 and x[rd] is the exact sum
(P2 || P1 || P0) + x[rt] + x[rs] * (MPL2 || MPL1 || MPL0), no bit lost; MPL0 to MPL2, HI and LO are unchanged
(49_vmul.md R265, R273, R274; 70_reset_and_hazards.md Table R346, the spec's decision D22, log 18). -/
def Obligations.V3muluExactSum : Prop :=
  ∀ (rd rs rt : Reg) (s : State), s.ops64 = true → s.cvmCtl.nomul = false → s.mul.mtpDirty = false →
    ∃ t v, exec (.v3mulu rd rs rt) s = .next t ∧ WritesWithMul rd v s t ∧
      v.toNat + 2 ^ 64 * t.mul.p0.toNat + 2 ^ 128 * t.mul.p1.toNat + 2 ^ 192 * t.mul.p2.toNat =
        (s.mul.p0.toNat + 2 ^ 64 * s.mul.p1.toNat + 2 ^ 128 * s.mul.p2.toNat) + (s.readReg rt).toNat +
          (s.readReg rs).toNat *
            (s.mul.mpl0.toNat + 2 ^ 64 * s.mul.mpl1.toNat + 2 ^ 128 * s.mul.mpl2.toNat) ∧
      t.mul.mpl0 = s.mul.mpl0 ∧ t.mul.mpl1 = s.mul.mpl1 ∧ t.mul.mpl2 = s.mul.mpl2 ∧
      t.mul.hi = s.mul.hi ∧ t.mul.lo = s.mul.lo ∧ t.mul.mseq = .afterV3mulu ∧ t.mul.mtpDirty = false

/-- A multiply that breaks the sequencing restrictions is the fault UnpredictableOperation, once it is not
reserved (70_reset_and_hazards.md Table R346; the spec's decision D22, log 18). -/
def Obligations.BrokenSequenceFaults : Prop :=
  ∀ (rd rs rt : Reg) (s : State) (i : Instr), s.ops64 = true → s.cvmCtl.nomul = false →
    (((i = .vmulu rd rs rt ∨ i = .vmm0 rd rs rt) ∧
        (s.mul.mtpDirty = true ∨ s.mul.mseq = .afterV3mulu)) ∨
      (i = .v3mulu rd rs rt ∧ s.mul.mtpDirty = true)) →
    exec i s = .fault (.unpredictableOperation .multiplierSequence)

/-- VMM0 rd, rs, rt and the sequence VMULU rd, rs, rt; MTM0 rd leave the same general registers, P0 to P2, HI,
LO, sequencing state and memory, and the same MPL0 unless rd is 0, where the source's two readings of MPL0
differ (49_vmul.md R268, log 9). -/
def Obligations.Vmm0IsVmuluThenMtm0 : Prop :=
  ∀ (rd rs rt : Reg) (s : State), s.ops64 = true → s.cvmCtl.nomul = false →
    s.mul.mtpDirty = false → s.mul.mseq ≠ .afterV3mulu →
    ∃ t u v, exec (.vmm0 rd rs rt) s = .next t ∧ exec (.vmulu rd rs rt) s = .next u ∧
      exec (.mtm0 rd) u = .next v ∧ SameRegs t v ∧ SameMem t v ∧ SameConfig t v ∧
      (rd ≠ 0#5 → t.mul.mpl0 = v.mul.mpl0) ∧
      t.mul.p0 = v.mul.p0 ∧ t.mul.p1 = v.mul.p1 ∧ t.mul.p2 = v.mul.p2 ∧
      t.mul.hi = v.mul.hi ∧ t.mul.lo = v.mul.lo ∧ t.mul.mseq = v.mul.mseq ∧
      t.mul.mtpDirty = v.mul.mtpDirty

/-- V3MULU rd, r0, r0 reads the accumulator out: x[rd] takes P0, P0 takes P1, P1 takes P2 and P2 becomes zero,
MPL0 to MPL2 unchanged (10_state.md R28; 49_vmul.md R265). -/
def Obligations.V3muluDrainsAccumulator : Prop :=
  ∀ (rd : Reg) (s : State), s.ops64 = true → s.cvmCtl.nomul = false → s.mul.mtpDirty = false →
    ∃ t, exec (.v3mulu rd 0#5 0#5) s = .next t ∧ WritesWithMul rd s.mul.p0 s t ∧
      t.mul = { s.mul with
        p0 := s.mul.p1, p1 := s.mul.p2, p2 := 0#64, mseq := .afterV3mulu, mtpDirty := false }

/-- 45_multiplier_regs.md R196: each of MTM0 to MTM2 and MTP0 to MTP2 raises Reserved Instruction, writing
nothing, when `ops64` is false or CvmCtl.NOMUL is 1, and not otherwise. -/
def Obligations.MultiplierMovesReserved : Prop :=
  ∀ (rs : Reg) (s : State) (i : Instr), s.exception = none →
    (i = .mtm0 rs ∨ i = .mtm1 rs ∨ i = .mtm2 rs ∨ i = .mtp0 rs ∨ i = .mtp1 rs ∨ i = .mtp2 rs) →
    ((s.ops64 = false ∨ s.cvmCtl.nomul = true) → ∃ t, exec i s = .next t ∧
      OnlyRaises .reservedInstruction (.insn (encode i)) s t) ∧
    (¬ (s.ops64 = false ∨ s.cvmCtl.nomul = true) → ∃ t, exec i s = .next t ∧ t.exception = none)

/-! ## Comparisons and barriers -/

/-- 46_set_on_equal.md R210 to R214: the words of SEQ, SNE, SEQI and SNEI; x[rd] (or x[rt]) takes exactly 1 or 0
by the comparison of all 64 bits with x[rt] or the sign-extended immediate, in every configuration, and
nothing else changes. -/
def Obligations.ComparisonsSetZeroOrOne : Prop :=
  ∀ (rd rs rt : Reg) (imm : Imm10) (s : State) (i : Instr) (w : InsnWord) (holds : Prop),
    ((i = .seq rd rs rt ∧ w = 0x7000002A#32 ||| fieldAt rs 21 ||| fieldAt rt 16 ||| fieldAt rd 11 ∧
        holds = (s.readReg rs = s.readReg rt)) ∨
      (i = .sne rd rs rt ∧ w = 0x7000002B#32 ||| fieldAt rs 21 ||| fieldAt rt 16 ||| fieldAt rd 11 ∧
        holds = (s.readReg rs ≠ s.readReg rt)) ∨
      (i = .seqi rd rs imm ∧ w = 0x7000002E#32 ||| fieldAt rs 21 ||| fieldAt rd 16 ||| fieldAt imm 6 ∧
        holds = ((s.readReg rs).toInt = imm.toInt)) ∨
      (i = .snei rd rs imm ∧ w = 0x7000002F#32 ||| fieldAt rs 21 ||| fieldAt rd 16 ||| fieldAt imm 6 ∧
        holds = ((s.readReg rs).toInt ≠ imm.toInt))) →
    encode i = w ∧
    ∃ t v, exec i s = .next t ∧ OnlyWrites rd v s t ∧ (holds → v = 1#64) ∧ (¬ holds → v = 0#64)

/-- Each barrier completes in every state: its event is recorded, control goes on, and no register, memory
byte, multiply state or configuration changes (47_sync.md R220 to R224; log 24). -/
def Obligations.BarriersOnlyRecord : Prop :=
  ∀ (s : State) (i : Instr) (e : BarrierEvent),
    ((i = .synciobdma ∧ e = .synciobdma) ∨ (i = .syncs ∧ e = .syncs) ∨ (i = .syncw ∧ e = .syncw) ∨
      (i = .syncws ∧ e = .syncws)) →
    ∃ t, exec i s = .next t ∧ t.history = s.history ++ [e] ∧ t.exception = s.exception ∧
      SameRegs s t ∧ SameMem s t ∧ t.mul = s.mul ∧ SameConfig s t ∧ WentOn s t

/-! ## Unaligned loads and stores -/

/-- The parts of an access of 1 to 8 bytes (20_memory.md R69, the spec's decision D12, log 17): no part crosses an
8-byte boundary or is empty, the lengths add up, the first part starts at the effective address, a second
part starts on the boundary, and there is one part exactly when no boundary is crossed. -/
def Obligations.PartsStayInDoubleword : Prop :=
  ∀ (ea : Word) (n : Nat), 0 < n → n ≤ 8 →
    (∀ q ∈ accessParts ea n, 0 < q.len ∧ q.addr.toNat % 8 + q.len ≤ 8) ∧
    ((accessParts ea n).map Part.len).sum = n ∧
    ((accessParts ea n).head?.map Part.addr) = some ea ∧
    (∀ q ∈ (accessParts ea n).tail, q.addr.toNat % 8 = 0 ∧
      ∀ p ∈ (accessParts ea n).head?, q.addr = p.addr + BitVec.ofNat 64 p.len) ∧
    ((accessParts ea n).length = 1 ↔ ea.toNat / 8 = (ea.toNat + n - 1) / 8)

/-- ULD, in either opcode, loads the doubleword at x[base] + offset at any alignment, byte by byte in the
byte order of CvmCtl.LE, when 64-bit operations are enabled and every part is admitted
(48_unaligned.md R237, R246; 20_memory.md R63, R72). -/
def Obligations.UldLoadsDoubleword : Prop :=
  ∀ (rt : Reg) (offset : Off16) (base : Reg) (s : State) (i : Instr),
    (i = .uldLeft rt offset base ∨ i = .uldRight rt offset base) → s.ops64 = true →
    let ea := effectiveAddress (s.readReg base) offset
    AllAdmitted s ea 8 .load →
    ea = BitVec.ofInt 64 ((s.readReg base).toNat + offset.toInt) ∧
    ∃ t v, exec i s = .next t ∧ OnlyWrites rt v s t ∧
      ∀ k < 8, byteAt s.cvmCtl.le 8 v k = s.readByte (ea + BitVec.ofNat 64 k)

/-- ULW, in either opcode, loads the word at the effective address at any alignment, sign-extended, whatever
`ops64` is, when every part is admitted (48_unaligned.md R238, R246). -/
def Obligations.UlwLoadsSignedWord : Prop :=
  ∀ (rt : Reg) (offset : Off16) (base : Reg) (s : State) (i : Instr),
    (i = .ulwLeft rt offset base ∨ i = .ulwRight rt offset base) →
    let ea := effectiveAddress (s.readReg base) offset
    AllAdmitted s ea 4 .load →
    ∃ t v, exec i s = .next t ∧ OnlyWrites rt v s t ∧ v = (v.setWidth 32).signExtend 64 ∧
      ∀ k < 4, byteAt s.cvmCtl.le 4 v k = s.readByte (ea + BitVec.ofNat 64 k)

/-- USD, in either opcode, stores the doubleword of x[rt] at the effective address at any alignment, byte by
byte in the byte order of CvmCtl.LE, and changes no other byte, when 64-bit operations are enabled, every
part is admitted and no byte is program text (48_unaligned.md R239, R246; 20_memory.md R64, R79). -/
def Obligations.UsdStoresDoubleword : Prop :=
  ∀ (rt : Reg) (offset : Off16) (base : Reg) (s : State) (i : Instr),
    (i = .usdLeft rt offset base ∨ i = .usdRight rt offset base) → s.ops64 = true → s.mem.wf = true →
    let ea := effectiveAddress (s.readReg base) offset
    AllAdmitted s ea 8 .store → ClearOfText s ea 8 →
    ∃ t, exec i s = .next t ∧ OnlyStores ea 8 s t ∧ t.mem.wf = true ∧
      ∀ k < 8, t.readByte (ea + BitVec.ofNat 64 k) = byteAt s.cvmCtl.le 8 (s.readReg rt) k

/-- USW, in either opcode, stores the low word of x[rt] (log 30) at the effective address at any alignment and
changes no other byte, whatever `ops64` is, when every part is admitted and no byte is program text
(48_unaligned.md R240, R246). -/
def Obligations.UswStoresLowWord : Prop :=
  ∀ (rt : Reg) (offset : Off16) (base : Reg) (s : State) (i : Instr),
    (i = .uswLeft rt offset base ∨ i = .uswRight rt offset base) → s.mem.wf = true →
    let ea := effectiveAddress (s.readReg base) offset
    AllAdmitted s ea 4 .store → ClearOfText s ea 4 →
    ∃ t, exec i s = .next t ∧ OnlyStores ea 4 s t ∧ t.mem.wf = true ∧
      ∀ k < 4, t.readByte (ea + BitVec.ofNat 64 k) = byteAt s.cvmCtl.le 4 (s.readReg rt) k

/-- The NOP forms change nothing but pc and the delay state: those of the word pairs in every state, those of
the doubleword pairs while `ops64` is true (48_unaligned.md R243). -/
def Obligations.NopFormsOnlyGoOn : Prop :=
  ∀ (rt : Reg) (offset : Off16) (base : Reg) (s : State) (i : Instr),
    (i = .nopLwl rt offset base ∨ i = .nopLwr rt offset base ∨ i = .nopSwl rt offset base ∨
      i = .nopSwr rt offset base ∨
      (s.ops64 = true ∧ (i = .nopLdl rt offset base ∨ i = .nopLdr rt offset base ∨
        i = .nopSdl rt offset base ∨ i = .nopSdr rt offset base))) →
    ∃ t, exec i s = .next t ∧ OnlyGoesOn s t

/-- The NOP forms of the doubleword pairs are refused while `ops64` is false (48_unaligned.md R243, the spec's
decision D26; log 20). -/
def Obligations.DoublewordNopRefusedWithout64 : Prop :=
  ∀ (i : Instr) (s : State), isDoublewordNop i = true → s.ops64 = false →
    exec i s = .refused .doublewordNopWithout64

/-- A load raises the exception of the first part that Admit refuses, in address order, and writes nothing
(48_unaligned.md R237, R238, R244; 60_exceptions.md R297; the spec's decision D17, log 13). -/
def Obligations.LoadRaisesFirstRefusedPart : Prop :=
  ∀ (rt : Reg) (offset : Off16) (base : Reg) (s : State) (i : Instr) (n : Nat) (e : AddrExc)
    (before : List Part) (q : Part) (after : List Part),
    ((n = 8 ∧ s.ops64 = true ∧ (i = .uldLeft rt offset base ∨ i = .uldRight rt offset base)) ∨
      (n = 4 ∧ (i = .ulwLeft rt offset base ∨ i = .ulwRight rt offset base))) →
    accessParts (effectiveAddress (s.readReg base) offset) n = before ++ q :: after →
    (∀ p ∈ before, s.admission.answerFor p.addr p.len .load = .ok) →
    s.admission.answerFor q.addr q.len .load = .raise e →
    ∃ t, exec i s = .next t ∧ OnlyRaises (.access e) (.address q.addr) s t

/-- A store whose first part is refused with an exception stores nothing; one whose second part is refused
has stored the bytes of its first part and no other byte (48_unaligned.md R242; 20_memory.md R68; which
part is first is the spec's decision D12, log 17). -/
def Obligations.RefusedStorePartiallyCompletes : Prop :=
  ∀ (rt : Reg) (offset : Off16) (base : Reg) (s : State) (i : Instr) (n : Nat) (e : AddrExc),
    ((n = 8 ∧ s.ops64 = true ∧ (i = .usdLeft rt offset base ∨ i = .usdRight rt offset base)) ∨
      (n = 4 ∧ (i = .uswLeft rt offset base ∨ i = .uswRight rt offset base))) →
    let ea := effectiveAddress (s.readReg base) offset
    ClearOfText s ea n → s.mem.wf = true →
    (∀ (q : Part) (after : List Part), accessParts ea n = q :: after →
      s.admission.answerFor q.addr q.len .store = .raise e →
      ∃ t, exec i s = .next t ∧ OnlyRaises (.access e) (.address q.addr) s t) ∧
    (∀ q1 q2 : Part, accessParts ea n = [q1, q2] → s.admission.answerFor q1.addr q1.len .store = .ok →
      s.admission.answerFor q2.addr q2.len .store = .raise e →
      ∃ t, exec i s = .next t ∧
        t.exception = some ⟨.access e, s.pc, s.delay.isSome, .address q2.addr⟩ ∧
        (∀ k < q1.len, t.readByte (ea + BitVec.ofNat 64 k) = byteAt s.cvmCtl.le n (s.readReg rt) k) ∧
        SameMemOutside ea q1.len s t ∧ SameRegs s t ∧ t.mul = s.mul ∧ t.pc = s.pc ∧ t.delay = s.delay ∧
        SameConfig s t ∧ t.history = s.history)

/-- A USD or USW of which a byte is program text has no step (20_memory.md R79, the spec's decision D16,
log 15), once it is not reserved. -/
def Obligations.StoreOverTextRefused : Prop :=
  ∀ (rt : Reg) (offset : Off16) (base : Reg) (s : State) (i : Instr) (n k : Nat),
    ((n = 8 ∧ s.ops64 = true ∧ (i = .usdLeft rt offset base ∨ i = .usdRight rt offset base)) ∨
      (n = 4 ∧ (i = .uswLeft rt offset base ∨ i = .uswRight rt offset base))) →
    k < n → s.inText (effectiveAddress (s.readReg base) offset + BitVec.ofNat 64 k) = true →
    exec i s = .refused .storeToProgramText

/-- What a USD stored a ULD at the same address loads back, in either byte order and at any alignment
(48_unaligned.md R245). -/
def Obligations.StoredDoublewordLoadsBack : Prop :=
  ∀ (rt rt' : Reg) (offset : Off16) (base : Reg) (s t u : State) (i j : Instr),
    s.mem.wf = true → s.exception = none →
    (i = .usdLeft rt offset base ∨ i = .usdRight rt offset base) →
    (j = .uldLeft rt' offset base ∨ j = .uldRight rt' offset base) →
    exec i s = .next t → t.exception = none → exec j t = .next u → u.exception = none →
    u.readReg rt' = if rt' = 0#5 then 0#64 else s.readReg rt

/-- What a USW stored a ULW at the same address loads back, sign-extended from its low word
(48_unaligned.md R245). -/
def Obligations.StoredWordLoadsBack : Prop :=
  ∀ (rt rt' : Reg) (offset : Off16) (base : Reg) (s t u : State) (i j : Instr),
    s.mem.wf = true → s.exception = none →
    (i = .uswLeft rt offset base ∨ i = .uswRight rt offset base) →
    (j = .ulwLeft rt' offset base ∨ j = .ulwRight rt' offset base) →
    exec i s = .next t → t.exception = none → exec j t = .next u → u.exception = none →
    u.readReg rt' = if rt' = 0#5 then 0#64 else ((s.readReg rt).setWidth 32).signExtend 64

/-- A doubleword stored at an address and read as two words: the word at the address is the high half when
big-endian and the low half when little-endian, and the word 4 above it the other half
(48_unaligned.md R245; 20_memory.md R62). -/
def Obligations.StoredDoublewordReadsAsWords : Prop :=
  ∀ (rt rt' : Reg) (offset offset' : Off16) (base base' : Reg) (s t u : State) (i j : Instr) (high : Bool),
    s.mem.wf = true → s.exception = none →
    (i = .usdLeft rt offset base ∨ i = .usdRight rt offset base) →
    (j = .ulwLeft rt' offset' base' ∨ j = .ulwRight rt' offset' base') →
    (effectiveAddress (s.readReg base') offset' =
      effectiveAddress (s.readReg base) offset + (if high = s.cvmCtl.le then 4#64 else 0#64)) →
    exec i s = .next t → t.exception = none → exec j t = .next u → u.exception = none →
    u.readReg rt' =
      if rt' = 0#5 then 0#64
      else ((s.readReg rt).extractLsb' (if high then 32 else 0) 32).signExtend 64
end

