-- ==== Sys2Proof/Laws/Encoding.lean ====
section
/-! SUPPORT. What each field reader reads from each format of the encoder, and back: the word of a format made
from the fields of a word is that word where its constant fields hold their constants. -/

namespace Sys2Proof

/-- Bit `i` of a concatenation. -/
theorem getLsbD_field {a b : Nat} (x : BitVec a) (y : BitVec b) (i : Nat) :
    (x ++ y).getLsbD i = if i < b then y.getLsbD i else x.getLsbD (i - b) := by
  rw [BitVec.getLsbD_append]

/-! ### Format F1 -/

@[simp] theorem opOf_encodeF1 (fn : BitVec 6) (rd rs rt : Reg) : opOf (encodeF1 fn rd rs rt) = 0x1C#6 := by
  apply BitVec.eq_of_getLsbD_eq
  intro i hi
  simp only [opOf, encodeF1, BitVec.getLsbD_extractLsb']
  repeat rw [getLsbD_field]
  interval_cases i <;> simp

@[simp] theorem rsOf_encodeF1 (fn : BitVec 6) (rd rs rt : Reg) : rsOf (encodeF1 fn rd rs rt) = rs := by
  apply BitVec.eq_of_getLsbD_eq
  intro i hi
  simp only [rsOf, encodeF1, BitVec.getLsbD_extractLsb']
  repeat rw [getLsbD_field]
  interval_cases i <;> simp

@[simp] theorem rtOf_encodeF1 (fn : BitVec 6) (rd rs rt : Reg) : rtOf (encodeF1 fn rd rs rt) = rt := by
  apply BitVec.eq_of_getLsbD_eq
  intro i hi
  simp only [rtOf, encodeF1, BitVec.getLsbD_extractLsb']
  repeat rw [getLsbD_field]
  interval_cases i <;> simp

@[simp] theorem rdOf_encodeF1 (fn : BitVec 6) (rd rs rt : Reg) : rdOf (encodeF1 fn rd rs rt) = rd := by
  apply BitVec.eq_of_getLsbD_eq
  intro i hi
  simp only [rdOf, encodeF1, BitVec.getLsbD_extractLsb']
  repeat rw [getLsbD_field]
  interval_cases i <;> simp

@[simp] theorem saOf_encodeF1 (fn : BitVec 6) (rd rs rt : Reg) : saOf (encodeF1 fn rd rs rt) = 0#5 := by
  apply BitVec.eq_of_getLsbD_eq
  intro i hi
  simp only [saOf, encodeF1, BitVec.getLsbD_extractLsb']
  repeat rw [getLsbD_field]
  interval_cases i <;> simp

@[simp] theorem fnOf_encodeF1 (fn : BitVec 6) (rd rs rt : Reg) : fnOf (encodeF1 fn rd rs rt) = fn := by
  apply BitVec.eq_of_getLsbD_eq
  intro i hi
  simp only [fnOf, encodeF1, BitVec.getLsbD_extractLsb']
  repeat rw [getLsbD_field]
  interval_cases i <;> simp

/-! ### Format F2 -/

@[simp] theorem opOf_encodeF2 (fn : BitVec 6) (rd rs : Reg) : opOf (encodeF2 fn rd rs) = 0x1C#6 := by
  apply BitVec.eq_of_getLsbD_eq
  intro i hi
  simp only [opOf, encodeF2, BitVec.getLsbD_extractLsb']
  repeat rw [getLsbD_field]
  interval_cases i <;> simp

@[simp] theorem rsOf_encodeF2 (fn : BitVec 6) (rd rs : Reg) : rsOf (encodeF2 fn rd rs) = rs := by
  apply BitVec.eq_of_getLsbD_eq
  intro i hi
  simp only [rsOf, encodeF2, BitVec.getLsbD_extractLsb']
  repeat rw [getLsbD_field]
  interval_cases i <;> simp

@[simp] theorem rtOf_encodeF2 (fn : BitVec 6) (rd rs : Reg) : rtOf (encodeF2 fn rd rs) = 0#5 := by
  apply BitVec.eq_of_getLsbD_eq
  intro i hi
  simp only [rtOf, encodeF2, BitVec.getLsbD_extractLsb']
  repeat rw [getLsbD_field]
  interval_cases i <;> simp

@[simp] theorem rdOf_encodeF2 (fn : BitVec 6) (rd rs : Reg) : rdOf (encodeF2 fn rd rs) = rd := by
  apply BitVec.eq_of_getLsbD_eq
  intro i hi
  simp only [rdOf, encodeF2, BitVec.getLsbD_extractLsb']
  repeat rw [getLsbD_field]
  interval_cases i <;> simp

@[simp] theorem saOf_encodeF2 (fn : BitVec 6) (rd rs : Reg) : saOf (encodeF2 fn rd rs) = 0#5 := by
  apply BitVec.eq_of_getLsbD_eq
  intro i hi
  simp only [saOf, encodeF2, BitVec.getLsbD_extractLsb']
  repeat rw [getLsbD_field]
  interval_cases i <;> simp

@[simp] theorem fnOf_encodeF2 (fn : BitVec 6) (rd rs : Reg) : fnOf (encodeF2 fn rd rs) = fn := by
  apply BitVec.eq_of_getLsbD_eq
  intro i hi
  simp only [fnOf, encodeF2, BitVec.getLsbD_extractLsb']
  repeat rw [getLsbD_field]
  interval_cases i <;> simp

/-! ### Format F3 -/

@[simp] theorem opOf_encodeF3 (fn : BitVec 6) (rt rs : Reg) (p lenm1 : Pos) : opOf (encodeF3 fn rt rs p lenm1) = 0x1C#6 := by
  apply BitVec.eq_of_getLsbD_eq
  intro i hi
  simp only [opOf, encodeF3, BitVec.getLsbD_extractLsb']
  repeat rw [getLsbD_field]
  interval_cases i <;> simp

@[simp] theorem rsOf_encodeF3 (fn : BitVec 6) (rt rs : Reg) (p lenm1 : Pos) : rsOf (encodeF3 fn rt rs p lenm1) = rs := by
  apply BitVec.eq_of_getLsbD_eq
  intro i hi
  simp only [rsOf, encodeF3, BitVec.getLsbD_extractLsb']
  repeat rw [getLsbD_field]
  interval_cases i <;> simp

@[simp] theorem rtOf_encodeF3 (fn : BitVec 6) (rt rs : Reg) (p lenm1 : Pos) : rtOf (encodeF3 fn rt rs p lenm1) = rt := by
  apply BitVec.eq_of_getLsbD_eq
  intro i hi
  simp only [rtOf, encodeF3, BitVec.getLsbD_extractLsb']
  repeat rw [getLsbD_field]
  interval_cases i <;> simp

@[simp] theorem rdOf_encodeF3 (fn : BitVec 6) (rt rs : Reg) (p lenm1 : Pos) : rdOf (encodeF3 fn rt rs p lenm1) = lenm1 := by
  apply BitVec.eq_of_getLsbD_eq
  intro i hi
  simp only [rdOf, encodeF3, BitVec.getLsbD_extractLsb']
  repeat rw [getLsbD_field]
  interval_cases i <;> simp

@[simp] theorem saOf_encodeF3 (fn : BitVec 6) (rt rs : Reg) (p lenm1 : Pos) : saOf (encodeF3 fn rt rs p lenm1) = p := by
  apply BitVec.eq_of_getLsbD_eq
  intro i hi
  simp only [saOf, encodeF3, BitVec.getLsbD_extractLsb']
  repeat rw [getLsbD_field]
  interval_cases i <;> simp

@[simp] theorem fnOf_encodeF3 (fn : BitVec 6) (rt rs : Reg) (p lenm1 : Pos) : fnOf (encodeF3 fn rt rs p lenm1) = fn := by
  apply BitVec.eq_of_getLsbD_eq
  intro i hi
  simp only [fnOf, encodeF3, BitVec.getLsbD_extractLsb']
  repeat rw [getLsbD_field]
  interval_cases i <;> simp

/-! ### Format F4 -/

@[simp] theorem opOf_encodeF4 (fn : BitVec 6) (rt rs : Reg) (imm : Imm10) : opOf (encodeF4 fn rt rs imm) = 0x1C#6 := by
  apply BitVec.eq_of_getLsbD_eq
  intro i hi
  simp only [opOf, encodeF4, BitVec.getLsbD_extractLsb']
  repeat rw [getLsbD_field]
  interval_cases i <;> simp

@[simp] theorem rsOf_encodeF4 (fn : BitVec 6) (rt rs : Reg) (imm : Imm10) : rsOf (encodeF4 fn rt rs imm) = rs := by
  apply BitVec.eq_of_getLsbD_eq
  intro i hi
  simp only [rsOf, encodeF4, BitVec.getLsbD_extractLsb']
  repeat rw [getLsbD_field]
  interval_cases i <;> simp

@[simp] theorem rtOf_encodeF4 (fn : BitVec 6) (rt rs : Reg) (imm : Imm10) : rtOf (encodeF4 fn rt rs imm) = rt := by
  apply BitVec.eq_of_getLsbD_eq
  intro i hi
  simp only [rtOf, encodeF4, BitVec.getLsbD_extractLsb']
  repeat rw [getLsbD_field]
  interval_cases i <;> simp

@[simp] theorem immOf_encodeF4 (fn : BitVec 6) (rt rs : Reg) (imm : Imm10) : immOf (encodeF4 fn rt rs imm) = imm := by
  apply BitVec.eq_of_getLsbD_eq
  intro i hi
  simp only [immOf, encodeF4, BitVec.getLsbD_extractLsb']
  repeat rw [getLsbD_field]
  interval_cases i <;> simp

@[simp] theorem fnOf_encodeF4 (fn : BitVec 6) (rt rs : Reg) (imm : Imm10) : fnOf (encodeF4 fn rt rs imm) = fn := by
  apply BitVec.eq_of_getLsbD_eq
  intro i hi
  simp only [fnOf, encodeF4, BitVec.getLsbD_extractLsb']
  repeat rw [getLsbD_field]
  interval_cases i <;> simp

/-! ### Format F5 -/

@[simp] theorem opOf_encodeF5 (fn : BitVec 6) (rs : Reg) : opOf (encodeF5 fn rs) = 0x1C#6 := by
  apply BitVec.eq_of_getLsbD_eq
  intro i hi
  simp only [opOf, encodeF5, BitVec.getLsbD_extractLsb']
  repeat rw [getLsbD_field]
  interval_cases i <;> simp

@[simp] theorem rsOf_encodeF5 (fn : BitVec 6) (rs : Reg) : rsOf (encodeF5 fn rs) = rs := by
  apply BitVec.eq_of_getLsbD_eq
  intro i hi
  simp only [rsOf, encodeF5, BitVec.getLsbD_extractLsb']
  repeat rw [getLsbD_field]
  interval_cases i <;> simp

@[simp] theorem f5ZeroOf_encodeF5 (fn : BitVec 6) (rs : Reg) : f5ZeroOf (encodeF5 fn rs) = 0#15 := by
  apply BitVec.eq_of_getLsbD_eq
  intro i hi
  simp only [f5ZeroOf, encodeF5, BitVec.getLsbD_extractLsb']
  repeat rw [getLsbD_field]
  interval_cases i <;> simp

@[simp] theorem fnOf_encodeF5 (fn : BitVec 6) (rs : Reg) : fnOf (encodeF5 fn rs) = fn := by
  apply BitVec.eq_of_getLsbD_eq
  intro i hi
  simp only [fnOf, encodeF5, BitVec.getLsbD_extractLsb']
  repeat rw [getLsbD_field]
  interval_cases i <;> simp

/-! ### Format F6 -/

@[simp] theorem opOf_encodeF6 (stype : BitVec 5) : opOf (encodeF6 stype) = 0x00#6 := by
  apply BitVec.eq_of_getLsbD_eq
  intro i hi
  simp only [opOf, encodeF6, BitVec.getLsbD_extractLsb']
  repeat rw [getLsbD_field]
  interval_cases i <;> simp

@[simp] theorem f6ZeroOf_encodeF6 (stype : BitVec 5) : f6ZeroOf (encodeF6 stype) = 0#15 := by
  apply BitVec.eq_of_getLsbD_eq
  intro i hi
  simp only [f6ZeroOf, encodeF6, BitVec.getLsbD_extractLsb']
  repeat rw [getLsbD_field]
  interval_cases i <;> simp

@[simp] theorem saOf_encodeF6 (stype : BitVec 5) : saOf (encodeF6 stype) = stype := by
  apply BitVec.eq_of_getLsbD_eq
  intro i hi
  simp only [saOf, encodeF6, BitVec.getLsbD_extractLsb']
  repeat rw [getLsbD_field]
  interval_cases i <;> simp

@[simp] theorem fnOf_encodeF6 (stype : BitVec 5) : fnOf (encodeF6 stype) = 0x0F#6 := by
  apply BitVec.eq_of_getLsbD_eq
  intro i hi
  simp only [fnOf, encodeF6, BitVec.getLsbD_extractLsb']
  repeat rw [getLsbD_field]
  interval_cases i <;> simp

/-! ### Format F7 -/

@[simp] theorem opOf_encodeF7 (op : BitVec 6) (rs : Reg) (p : Pos) (offset : Off16) : opOf (encodeF7 op rs p offset) = op := by
  apply BitVec.eq_of_getLsbD_eq
  intro i hi
  simp only [opOf, encodeF7, BitVec.getLsbD_extractLsb']
  repeat rw [getLsbD_field]
  interval_cases i <;> simp

@[simp] theorem rsOf_encodeF7 (op : BitVec 6) (rs : Reg) (p : Pos) (offset : Off16) : rsOf (encodeF7 op rs p offset) = rs := by
  apply BitVec.eq_of_getLsbD_eq
  intro i hi
  simp only [rsOf, encodeF7, BitVec.getLsbD_extractLsb']
  repeat rw [getLsbD_field]
  interval_cases i <;> simp

@[simp] theorem rtOf_encodeF7 (op : BitVec 6) (rs : Reg) (p : Pos) (offset : Off16) : rtOf (encodeF7 op rs p offset) = p := by
  apply BitVec.eq_of_getLsbD_eq
  intro i hi
  simp only [rtOf, encodeF7, BitVec.getLsbD_extractLsb']
  repeat rw [getLsbD_field]
  interval_cases i <;> simp

@[simp] theorem offOf_encodeF7 (op : BitVec 6) (rs : Reg) (p : Pos) (offset : Off16) : offOf (encodeF7 op rs p offset) = offset := by
  apply BitVec.eq_of_getLsbD_eq
  intro i hi
  simp only [offOf, encodeF7, BitVec.getLsbD_extractLsb']
  repeat rw [getLsbD_field]
  interval_cases i <;> simp

/-! ### Format F8 -/

@[simp] theorem opOf_encodeF8 (op : BitVec 6) (rt : Reg) (offset : Off16) (base : Reg) : opOf (encodeF8 op rt offset base) = op := by
  apply BitVec.eq_of_getLsbD_eq
  intro i hi
  simp only [opOf, encodeF8, BitVec.getLsbD_extractLsb']
  repeat rw [getLsbD_field]
  interval_cases i <;> simp

@[simp] theorem rsOf_encodeF8 (op : BitVec 6) (rt : Reg) (offset : Off16) (base : Reg) : rsOf (encodeF8 op rt offset base) = base := by
  apply BitVec.eq_of_getLsbD_eq
  intro i hi
  simp only [rsOf, encodeF8, BitVec.getLsbD_extractLsb']
  repeat rw [getLsbD_field]
  interval_cases i <;> simp

@[simp] theorem rtOf_encodeF8 (op : BitVec 6) (rt : Reg) (offset : Off16) (base : Reg) : rtOf (encodeF8 op rt offset base) = rt := by
  apply BitVec.eq_of_getLsbD_eq
  intro i hi
  simp only [rtOf, encodeF8, BitVec.getLsbD_extractLsb']
  repeat rw [getLsbD_field]
  interval_cases i <;> simp

@[simp] theorem offOf_encodeF8 (op : BitVec 6) (rt : Reg) (offset : Off16) (base : Reg) : offOf (encodeF8 op rt offset base) = offset := by
  apply BitVec.eq_of_getLsbD_eq
  intro i hi
  simp only [offOf, encodeF8, BitVec.getLsbD_extractLsb']
  repeat rw [getLsbD_field]
  interval_cases i <;> simp

/-! ### A word is made of its fields -/

theorem fields_F1 (w : InsnWord) : (opOf w ++ rsOf w ++ rtOf w ++ rdOf w ++ saOf w ++ fnOf w : BitVec 32) = w := by
  apply BitVec.eq_of_getLsbD_eq
  intro i hi
  repeat rw [getLsbD_field]
  interval_cases i <;> simp [opOf, rsOf, rtOf, rdOf, saOf, fnOf]

theorem encodeF1_fields (w : InsnWord) (hop : opOf w = 0x1C#6) (hsa : saOf w = 0#5) :
    encodeF1 (fnOf w) (rdOf w) (rsOf w) (rtOf w) = w := by
  have h := fields_F1 w
  rw [hop, hsa] at h
  exact h

theorem encodeF2_fields (w : InsnWord) (hop : opOf w = 0x1C#6) (hrt : rtOf w = 0#5) (hsa : saOf w = 0#5) :
    encodeF2 (fnOf w) (rdOf w) (rsOf w) = w := by
  have h := fields_F1 w
  rw [hop, hrt, hsa] at h
  exact h

theorem encodeF3_fields (w : InsnWord) (hop : opOf w = 0x1C#6) :
    encodeF3 (fnOf w) (rtOf w) (rsOf w) (saOf w) (rdOf w) = w := by
  have h := fields_F1 w
  rw [hop] at h
  exact h

theorem fields_F4 (w : InsnWord) : (opOf w ++ rsOf w ++ rtOf w ++ immOf w ++ fnOf w : BitVec 32) = w := by
  apply BitVec.eq_of_getLsbD_eq
  intro i hi
  repeat rw [getLsbD_field]
  interval_cases i <;> simp [opOf, rsOf, rtOf, immOf, fnOf]

theorem encodeF4_fields (w : InsnWord) (hop : opOf w = 0x1C#6) :
    encodeF4 (fnOf w) (rtOf w) (rsOf w) (immOf w) = w := by
  have h := fields_F4 w
  rw [hop] at h
  exact h

theorem fields_F5 (w : InsnWord) : (opOf w ++ rsOf w ++ f5ZeroOf w ++ fnOf w : BitVec 32) = w := by
  apply BitVec.eq_of_getLsbD_eq
  intro i hi
  repeat rw [getLsbD_field]
  interval_cases i <;> simp [opOf, rsOf, f5ZeroOf, fnOf]

theorem encodeF5_fields (w : InsnWord) (hop : opOf w = 0x1C#6) (hz : f5ZeroOf w = 0#15) :
    encodeF5 (fnOf w) (rsOf w) = w := by
  have h := fields_F5 w
  rw [hop, hz] at h
  exact h

theorem fields_F6 (w : InsnWord) : (opOf w ++ f6ZeroOf w ++ saOf w ++ fnOf w : BitVec 32) = w := by
  apply BitVec.eq_of_getLsbD_eq
  intro i hi
  repeat rw [getLsbD_field]
  interval_cases i <;> simp [opOf, f6ZeroOf, saOf, fnOf]

theorem encodeF6_fields (w : InsnWord) (hop : opOf w = 0x00#6) (hz : f6ZeroOf w = 0#15) (hfn : fnOf w = 0x0F#6) :
    encodeF6 (saOf w) = w := by
  have h := fields_F6 w
  rw [hop, hz, hfn] at h
  exact h

theorem fields_F7 (w : InsnWord) : (opOf w ++ rsOf w ++ rtOf w ++ offOf w : BitVec 32) = w := by
  apply BitVec.eq_of_getLsbD_eq
  intro i hi
  repeat rw [getLsbD_field]
  interval_cases i <;> simp [opOf, rsOf, rtOf, offOf]

theorem encodeF7_fields (w : InsnWord) :
    encodeF7 (opOf w) (rsOf w) (rtOf w) (offOf w) = w := fields_F7 w

theorem encodeF8_fields (w : InsnWord) :
    encodeF8 (opOf w) (rtOf w) (offOf w) (rsOf w) = w := fields_F7 w

end Sys2Proof
end

