-- ==== Sys2Proof/Laws/Memory.lean ====
section
/-! SUPPORT. The laws of memory: every write keeps the canonical form, a read after a write to the same address
gives the byte written, a write leaves every other address alone; the same for runs of bytes; and bytes
and values determine each other. -/

namespace Sys2Proof.Machine

/-- The address `k` above the next one is the address `k + 1` above `a`, modulo 2^64. -/
theorem addr_succ (a : Word) (k : Nat) : a + 1#64 + BitVec.ofNat 64 k = a + BitVec.ofNat 64 (k + 1) := by
  rw [BitVec.ofNat_add, BitVec.add_comm (BitVec.ofNat 64 k), BitVec.add_assoc]

/-- Addresses less than 2^64 apart differ. -/
theorem addr_ne (a : Word) {j k : Nat} (hj : j < 2 ^ 64) (hk : k < 2 ^ 64) (h : j ≠ k) :
    a + BitVec.ofNat 64 j ≠ a + BitVec.ofNat 64 k := by
  intro e
  have e' := congrArg BitVec.toNat ((BitVec.add_right_inj a).mp e)
  simp only [BitVec.toNat_ofNat, Nat.mod_eq_of_lt hj, Nat.mod_eq_of_lt hk] at e'
  exact h e'

/-! ### One byte -/

theorem Memory.read_write_other (m : Memory) {a b : Nat} (v : Byte) (h : b ≠ a) :
    (m.write a v).read b = m.read b := by
  induction m with
  | nil => unfold Memory.write; split <;> simp [Memory.read, h.symm]
  | cons c rest ih =>
    obtain ⟨k, x⟩ := c
    unfold Memory.write
    have h' : a ≠ b := h.symm
    split_ifs with h1 h2 h3 h4
    · rfl
    · simp [Memory.read, h']
    · subst h3; simp [Memory.read, h']
    · subst h3; simp [Memory.read, h']
    · simp only [Memory.read, ih]

theorem Memory.wfFrom_mono {m : Memory} {lo lo' : Nat} (h : lo' ≤ lo) (hw : m.wfFrom lo = true) :
    m.wfFrom lo' = true := by
  cases m with
  | nil => rfl
  | cons c rest =>
    obtain ⟨k, x⟩ := c
    simp only [Memory.wfFrom, Bool.and_eq_true, decide_eq_true_eq] at hw ⊢
    exact ⟨⟨⟨le_trans h hw.1.1.1, hw.1.1.2⟩, hw.1.2⟩, hw.2⟩

/-- Below the first address a canonical memory lists nothing. -/
theorem Memory.read_below {m : Memory} {lo a : Nat} (hw : m.wfFrom lo = true) (h : a < lo) :
    m.read a = Memory.unlisted := by
  induction m generalizing lo with
  | nil => rfl
  | cons c rest ih =>
    obtain ⟨k, x⟩ := c
    simp only [Memory.wfFrom, Bool.and_eq_true, decide_eq_true_eq] at hw
    have hk : k ≠ a := by omega
    simp only [Memory.read, hk, if_false]
    exact ih hw.2 (by omega)

theorem Memory.read_write_same_from {m : Memory} {lo a : Nat} (v : Byte) (hw : m.wfFrom lo = true) :
    (m.write a v).read a = v := by
  induction m generalizing lo with
  | nil => unfold Memory.write; split_ifs with h <;> simp [Memory.read, h]
  | cons c rest ih =>
    obtain ⟨k, x⟩ := c
    have hw' := hw
    simp only [Memory.wfFrom, Bool.and_eq_true, decide_eq_true_eq] at hw
    unfold Memory.write
    split_ifs with h1 h2 h3 h4
    · have hk : k ≠ a := by omega
      simp only [Memory.read, hk, if_false]
      rw [Memory.read_below hw.2 (by omega), h2]
    · simp [Memory.read]
    · subst h3; rw [Memory.read_below hw.2 (by omega), h4]
    · simp [Memory.read]
    · have hk : k ≠ a := fun e => h3 e.symm
      simp only [Memory.read, hk, if_false]
      exact ih hw.2

/-- A read after a write to the same address gives the byte written. -/
theorem Memory.read_write_same {m : Memory} (a : Nat) (v : Byte) (hw : m.wf = true) :
    (m.write a v).read a = v := Memory.read_write_same_from v hw

theorem Memory.write_wfFrom {m : Memory} {lo a : Nat} (v : Byte) (ha : a < 2 ^ 64) (hlo : lo ≤ a)
    (hw : m.wfFrom lo = true) : (m.write a v).wfFrom lo = true := by
  induction m generalizing lo with
  | nil =>
    unfold Memory.write
    split_ifs with h
    · rfl
    · simp only [Memory.wfFrom, Bool.and_eq_true, decide_eq_true_eq]
      exact ⟨⟨⟨hlo, ha⟩, h⟩, trivial⟩
  | cons c rest ih =>
    obtain ⟨k, x⟩ := c
    have hw' := hw
    simp only [Memory.wfFrom, Bool.and_eq_true, decide_eq_true_eq] at hw
    unfold Memory.write
    split_ifs with h1 h2 h3 h4
    · exact hw'
    · simp only [Memory.wfFrom, Bool.and_eq_true, decide_eq_true_eq]
      exact ⟨⟨⟨hlo, ha⟩, h2⟩, ⟨⟨by omega, hw.1.1.2⟩, hw.1.2⟩, hw.2⟩
    · exact Memory.wfFrom_mono (by omega) hw.2
    · subst h3
      simp only [Memory.wfFrom, Bool.and_eq_true, decide_eq_true_eq]
      exact ⟨⟨⟨hlo, ha⟩, h4⟩, hw.2⟩
    · simp only [Memory.wfFrom, Bool.and_eq_true, decide_eq_true_eq]
      exact ⟨⟨⟨hw.1.1.1, hw.1.1.2⟩, hw.1.2⟩, ih (by omega) hw.2⟩

/-- A write keeps the canonical form. -/
theorem Memory.write_wf {m : Memory} {a : Nat} (v : Byte) (ha : a < 2 ^ 64) (hw : m.wf = true) :
    (m.write a v).wf = true := Memory.write_wfFrom v ha (Nat.zero_le a) hw

/-! ### Runs of bytes -/

theorem Memory.writeBytes_wf {m : Memory} (a : Word) (bs : List Byte) (hw : m.wf = true) :
    (m.writeBytes a bs).wf = true := by
  induction bs generalizing m a with
  | nil => exact hw
  | cons b bs ih => exact ih (a + 1#64) (Memory.write_wf b a.isLt hw)

theorem Memory.writeBytes_append (m : Memory) (a : Word) (bs cs : List Byte) :
    m.writeBytes a (bs ++ cs) = (m.writeBytes a bs).writeBytes (a + BitVec.ofNat 64 bs.length) cs := by
  induction bs generalizing m a with
  | nil => simp [Memory.writeBytes]
  | cons b bs ih =>
    simp only [List.cons_append, Memory.writeBytes, ih, List.length_cons, addr_succ]

/-- A run of bytes leaves every address outside it alone. -/
theorem Memory.read_writeBytes_outside (m : Memory) (a b : Word) (bs : List Byte)
    (h : ∀ k < bs.length, b ≠ a + BitVec.ofNat 64 k) : (m.writeBytes a bs).read b.toNat = m.read b.toNat := by
  induction bs generalizing m a with
  | nil => rfl
  | cons x bs ih =>
    unfold Memory.writeBytes
    rw [ih (m.write a.toNat x) (a + 1#64)]
    · apply Memory.read_write_other
      intro e
      exact h 0 (by simp) (by simpa using BitVec.eq_of_toNat_eq e)
    · intro k hk e
      exact h (k + 1) (by simpa using hk) (by rw [e, addr_succ a k])

/-- A run of at most 2^64 bytes reads back at each of its addresses. -/
theorem Memory.read_writeBytes_inside (m : Memory) (a : Word) (bs : List Byte) (hw : m.wf = true)
    (hl : bs.length ≤ 2 ^ 64) (k : Nat) (hk : k < bs.length) :
    (m.writeBytes a bs).read (a + BitVec.ofNat 64 k).toNat = bs[k] := by
  induction bs generalizing m a k with
  | nil => simp at hk
  | cons x bs ih =>
    simp only [List.length_cons] at hl hk
    unfold Memory.writeBytes
    cases k with
    | zero =>
      rw [show a + BitVec.ofNat 64 0 = a by simp]
      rw [Memory.read_writeBytes_outside]
      · simpa using Memory.read_write_same a.toNat x hw
      · intro j hj
        rw [addr_succ a j]
        simpa using addr_ne a (j := 0) (k := j + 1) (by omega) (by omega) (by omega)
    | succ k =>
      rw [← addr_succ a k]
      exact ih (m.write a.toNat x) (a + 1#64) (Memory.write_wf x a.isLt hw) (by omega) k (by omega)

@[simp] theorem Memory.readBytes_length (m : Memory) (a : Word) (n : Nat) :
    (m.readBytes a n).length = n := by
  induction n generalizing a with
  | zero => rfl
  | succ n ih => simp [Memory.readBytes, ih]

theorem Memory.readBytes_getElem (m : Memory) (a : Word) (n k : Nat) (h : k < n) :
    (m.readBytes a n)[k]'(by simpa using h) = m.read (a + BitVec.ofNat 64 k).toNat := by
  induction n generalizing a k with
  | zero => omega
  | succ n ih =>
    cases k with
    | zero => simp [Memory.readBytes]
    | succ k =>
      simp only [Memory.readBytes, List.getElem_cons_succ]
      rw [ih (a + 1#64) k (by omega), addr_succ a k]

/-- Reading a run of bytes gives the bytes written there. -/
theorem Memory.readBytes_writeBytes (m : Memory) (a : Word) (bs : List Byte) (hw : m.wf = true)
    (hl : bs.length ≤ 2 ^ 64) : (m.writeBytes a bs).readBytes a bs.length = bs := by
  apply List.ext_getElem
  · simp
  · intro k h1 h2
    rw [Memory.readBytes_getElem _ _ _ _ h2, Memory.read_writeBytes_inside _ _ _ hw hl k h2]

end Sys2Proof.Machine

namespace Sys2Proof

/-! ### Bytes and values -/

@[simp] theorem leBytes_length (n v : Nat) : (leBytes n v).length = n := by
  induction n generalizing v with
  | zero => rfl
  | succ n ih => simp [leBytes, ih]

@[simp] theorem natToBytes_length (le : Bool) (n v : Nat) : (natToBytes le n v).length = n := by
  unfold natToBytes; split <;> simp

theorem leNat_leBytes (n v : Nat) : leNat (leBytes n v) = v % 256 ^ n := by
  induction n generalizing v with
  | zero => simp [leBytes, leNat, Nat.mod_one]
  | succ n ih =>
    simp only [leBytes, leNat, ih, BitVec.toNat_ofNat]
    rw [pow_succ' 256 n, Nat.mod_mul]

theorem beNat_append (bs cs : List Byte) : beNat (bs ++ cs) = beNat bs * 256 ^ cs.length + beNat cs := by
  induction bs with
  | nil => simp [beNat]
  | cons b bs ih => simp [beNat, ih, pow_add]; ring

theorem beNat_reverse (bs : List Byte) : beNat bs.reverse = leNat bs := by
  induction bs with
  | nil => rfl
  | cons b bs ih => simp [beNat_append, beNat, leNat, ih]; ring

/-- The bytes of a value give its low bytes back, in either byte order (20_memory.md R63, R64). -/
theorem bytesToNat_natToBytes (le : Bool) (n v : Nat) :
    bytesToNat le (natToBytes le n v) = v % 256 ^ n := by
  unfold bytesToNat natToBytes
  cases le <;> simp [beNat_reverse, leNat_leBytes]

theorem leBytes_getElem (n v k : Nat) (h : k < n) :
    (leBytes n v)[k]'(by simpa using h) = BitVec.ofNat 8 (v / 256 ^ k) := by
  induction n generalizing v k with
  | zero => omega
  | succ n ih =>
    cases k with
    | zero => simp [leBytes]
    | succ k =>
      simp only [leBytes, List.getElem_cons_succ, ih (v / 256) k (by omega)]
      rw [Nat.div_div_eq_div_mul, Nat.pow_succ, Nat.mul_comm]

/-- Byte `k` of a value as memory holds it (20_memory.md R64). -/
theorem natToBytes_getElem (le : Bool) (n v k : Nat) (h : k < n) :
    (natToBytes le n v)[k]'(by simpa using h) =
      BitVec.ofNat 8 (v / 256 ^ (if le then k else n - 1 - k)) := by
  cases le
  · simp only [natToBytes, Bool.false_eq_true, if_false, List.getElem_reverse, leBytes_length]
    rw [leBytes_getElem _ _ _ (by omega)]
  · simp only [natToBytes, if_true]
    rw [leBytes_getElem _ _ _ h]

theorem leNat_lt (bs : List Byte) : leNat bs < 256 ^ bs.length := by
  induction bs with
  | nil => simp [leNat]
  | cons b bs ih =>
    have := b.isLt
    simp only [leNat, List.length_cons, Nat.pow_succ]
    omega

/-- Byte `k` of the value of a list of bytes, least significant first. -/
theorem leNat_div_mod (bs : List Byte) (k : Nat) (h : k < bs.length) :
    leNat bs / 256 ^ k % 256 = bs[k].toNat := by
  induction bs generalizing k with
  | nil => simp at h
  | cons b bs ih =>
    have hb := b.isLt
    cases k with
    | zero => simp only [leNat, Nat.pow_zero, Nat.div_one, List.getElem_cons_zero]; omega
    | succ k =>
      simp only [List.length_cons] at h
      rw [Nat.pow_succ, Nat.mul_comm, ← Nat.div_div_eq_div_mul]
      rw [show leNat (b :: bs) / 256 = leNat bs by simp only [leNat]; omega]
      simpa using ih k (by omega)

/-- Byte `k`, counted from the least significant, of a value read from memory (20_memory.md R63). -/
theorem bytesToNat_div_mod (le : Bool) (bs : List Byte) (k : Nat) (h : k < bs.length) :
    bytesToNat le bs / 256 ^ k % 256 = (bs[if le then k else bs.length - 1 - k]'(by split <;> omega)).toNat := by
  cases le
  · simp only [bytesToNat, Bool.false_eq_true, if_false]
    have hr : beNat bs = leNat bs.reverse := by rw [← beNat_reverse, List.reverse_reverse]
    rw [hr, leNat_div_mod _ _ (by simpa using h), List.getElem_reverse]
  · simpa [bytesToNat] using leNat_div_mod bs k h

end Sys2Proof
end

