-- ==== Sys2Proof/Laws/State.lean ====
section
/-! SUPPORT. One lemma per field per update of the state and of the multiply state, each true by rfl, so that
no later proof unfolds a record update; and what reading a register or a byte sees of each update. -/

namespace Sys2Proof.Machine

variable (s : State) (m : MulState)

/-! ### writeReg -/

@[simp] theorem State.writeReg_regs (r : Reg) (v : Word) : (s.writeReg r v).regs = if r = 0#5 then s.regs else s.regs.set r.toNat v := rfl
@[simp] theorem State.writeReg_pc (r : Reg) (v : Word) : (s.writeReg r v).pc = s.pc := rfl
@[simp] theorem State.writeReg_delay (r : Reg) (v : Word) : (s.writeReg r v).delay = s.delay := rfl
@[simp] theorem State.writeReg_mul (r : Reg) (v : Word) : (s.writeReg r v).mul = s.mul := rfl
@[simp] theorem State.writeReg_cvmCtl (r : Reg) (v : Word) : (s.writeReg r v).cvmCtl = s.cvmCtl := rfl
@[simp] theorem State.writeReg_cvmMemCtl (r : Reg) (v : Word) : (s.writeReg r v).cvmMemCtl = s.cvmMemCtl := rfl
@[simp] theorem State.writeReg_ops64 (r : Reg) (v : Word) : (s.writeReg r v).ops64 = s.ops64 := rfl
@[simp] theorem State.writeReg_mem (r : Reg) (v : Word) : (s.writeReg r v).mem = s.mem := rfl
@[simp] theorem State.writeReg_admission (r : Reg) (v : Word) : (s.writeReg r v).admission = s.admission := rfl
@[simp] theorem State.writeReg_text (r : Reg) (v : Word) : (s.writeReg r v).text = s.text := rfl
@[simp] theorem State.writeReg_haltPc (r : Reg) (v : Word) : (s.writeReg r v).haltPc = s.haltPc := rfl
@[simp] theorem State.writeReg_history (r : Reg) (v : Word) : (s.writeReg r v).history = s.history := rfl
@[simp] theorem State.writeReg_exception (r : Reg) (v : Word) : (s.writeReg r v).exception = s.exception := rfl
@[simp] theorem State.writeReg_freeCount (r : Reg) (v : Word) : (s.writeReg r v).freeCount = s.freeCount := rfl

/-! ### advance -/

@[simp] theorem State.advance_regs : (s.advance).regs = s.regs := rfl
@[simp] theorem State.advance_pc : (s.advance).pc = s.nextPc := rfl
@[simp] theorem State.advance_delay : (s.advance).delay = none := rfl
@[simp] theorem State.advance_mul : (s.advance).mul = s.mul := rfl
@[simp] theorem State.advance_cvmCtl : (s.advance).cvmCtl = s.cvmCtl := rfl
@[simp] theorem State.advance_cvmMemCtl : (s.advance).cvmMemCtl = s.cvmMemCtl := rfl
@[simp] theorem State.advance_ops64 : (s.advance).ops64 = s.ops64 := rfl
@[simp] theorem State.advance_mem : (s.advance).mem = s.mem := rfl
@[simp] theorem State.advance_admission : (s.advance).admission = s.admission := rfl
@[simp] theorem State.advance_text : (s.advance).text = s.text := rfl
@[simp] theorem State.advance_haltPc : (s.advance).haltPc = s.haltPc := rfl
@[simp] theorem State.advance_history : (s.advance).history = s.history := rfl
@[simp] theorem State.advance_exception : (s.advance).exception = s.exception := rfl
@[simp] theorem State.advance_freeCount : (s.advance).freeCount = s.freeCount := rfl

/-! ### enterDelaySlot -/

@[simp] theorem State.enterDelaySlot_regs (t : Word) : (s.enterDelaySlot t).regs = s.regs := rfl
@[simp] theorem State.enterDelaySlot_pc (t : Word) : (s.enterDelaySlot t).pc = s.pc + 4#64 := rfl
@[simp] theorem State.enterDelaySlot_delay (t : Word) : (s.enterDelaySlot t).delay = some t := rfl
@[simp] theorem State.enterDelaySlot_mul (t : Word) : (s.enterDelaySlot t).mul = s.mul := rfl
@[simp] theorem State.enterDelaySlot_cvmCtl (t : Word) : (s.enterDelaySlot t).cvmCtl = s.cvmCtl := rfl
@[simp] theorem State.enterDelaySlot_cvmMemCtl (t : Word) : (s.enterDelaySlot t).cvmMemCtl = s.cvmMemCtl := rfl
@[simp] theorem State.enterDelaySlot_ops64 (t : Word) : (s.enterDelaySlot t).ops64 = s.ops64 := rfl
@[simp] theorem State.enterDelaySlot_mem (t : Word) : (s.enterDelaySlot t).mem = s.mem := rfl
@[simp] theorem State.enterDelaySlot_admission (t : Word) : (s.enterDelaySlot t).admission = s.admission := rfl
@[simp] theorem State.enterDelaySlot_text (t : Word) : (s.enterDelaySlot t).text = s.text := rfl
@[simp] theorem State.enterDelaySlot_haltPc (t : Word) : (s.enterDelaySlot t).haltPc = s.haltPc := rfl
@[simp] theorem State.enterDelaySlot_history (t : Word) : (s.enterDelaySlot t).history = s.history := rfl
@[simp] theorem State.enterDelaySlot_exception (t : Word) : (s.enterDelaySlot t).exception = s.exception := rfl
@[simp] theorem State.enterDelaySlot_freeCount (t : Word) : (s.enterDelaySlot t).freeCount = s.freeCount := rfl

/-! ### drew -/

@[simp] theorem State.drew_regs (n : Nat) : (s.drew n).regs = s.regs := rfl
@[simp] theorem State.drew_pc (n : Nat) : (s.drew n).pc = s.pc := rfl
@[simp] theorem State.drew_delay (n : Nat) : (s.drew n).delay = s.delay := rfl
@[simp] theorem State.drew_mul (n : Nat) : (s.drew n).mul = s.mul := rfl
@[simp] theorem State.drew_cvmCtl (n : Nat) : (s.drew n).cvmCtl = s.cvmCtl := rfl
@[simp] theorem State.drew_cvmMemCtl (n : Nat) : (s.drew n).cvmMemCtl = s.cvmMemCtl := rfl
@[simp] theorem State.drew_ops64 (n : Nat) : (s.drew n).ops64 = s.ops64 := rfl
@[simp] theorem State.drew_mem (n : Nat) : (s.drew n).mem = s.mem := rfl
@[simp] theorem State.drew_admission (n : Nat) : (s.drew n).admission = s.admission := rfl
@[simp] theorem State.drew_text (n : Nat) : (s.drew n).text = s.text := rfl
@[simp] theorem State.drew_haltPc (n : Nat) : (s.drew n).haltPc = s.haltPc := rfl
@[simp] theorem State.drew_history (n : Nat) : (s.drew n).history = s.history := rfl
@[simp] theorem State.drew_exception (n : Nat) : (s.drew n).exception = s.exception := rfl
@[simp] theorem State.drew_freeCount (n : Nat) : (s.drew n).freeCount = s.freeCount + n := rfl

/-! ### raise -/

@[simp] theorem State.raise_regs (c : ExcCause) (x : ExcInfo) : (s.raise c x).regs = s.regs := rfl
@[simp] theorem State.raise_pc (c : ExcCause) (x : ExcInfo) : (s.raise c x).pc = s.pc := rfl
@[simp] theorem State.raise_delay (c : ExcCause) (x : ExcInfo) : (s.raise c x).delay = s.delay := rfl
@[simp] theorem State.raise_mul (c : ExcCause) (x : ExcInfo) : (s.raise c x).mul = s.mul := rfl
@[simp] theorem State.raise_cvmCtl (c : ExcCause) (x : ExcInfo) : (s.raise c x).cvmCtl = s.cvmCtl := rfl
@[simp] theorem State.raise_cvmMemCtl (c : ExcCause) (x : ExcInfo) : (s.raise c x).cvmMemCtl = s.cvmMemCtl := rfl
@[simp] theorem State.raise_ops64 (c : ExcCause) (x : ExcInfo) : (s.raise c x).ops64 = s.ops64 := rfl
@[simp] theorem State.raise_mem (c : ExcCause) (x : ExcInfo) : (s.raise c x).mem = s.mem := rfl
@[simp] theorem State.raise_admission (c : ExcCause) (x : ExcInfo) : (s.raise c x).admission = s.admission := rfl
@[simp] theorem State.raise_text (c : ExcCause) (x : ExcInfo) : (s.raise c x).text = s.text := rfl
@[simp] theorem State.raise_haltPc (c : ExcCause) (x : ExcInfo) : (s.raise c x).haltPc = s.haltPc := rfl
@[simp] theorem State.raise_history (c : ExcCause) (x : ExcInfo) : (s.raise c x).history = s.history := rfl
@[simp] theorem State.raise_exception (c : ExcCause) (x : ExcInfo) : (s.raise c x).exception = some { cause := c, pc := s.pc, inDelaySlot := s.delay.isSome, info := x } := rfl
@[simp] theorem State.raise_freeCount (c : ExcCause) (x : ExcInfo) : (s.raise c x).freeCount = s.freeCount := rfl

/-! ### recordBarrier -/

@[simp] theorem State.recordBarrier_regs (e : BarrierEvent) : (s.recordBarrier e).regs = s.regs := rfl
@[simp] theorem State.recordBarrier_pc (e : BarrierEvent) : (s.recordBarrier e).pc = s.pc := rfl
@[simp] theorem State.recordBarrier_delay (e : BarrierEvent) : (s.recordBarrier e).delay = s.delay := rfl
@[simp] theorem State.recordBarrier_mul (e : BarrierEvent) : (s.recordBarrier e).mul = s.mul := rfl
@[simp] theorem State.recordBarrier_cvmCtl (e : BarrierEvent) : (s.recordBarrier e).cvmCtl = s.cvmCtl := rfl
@[simp] theorem State.recordBarrier_cvmMemCtl (e : BarrierEvent) : (s.recordBarrier e).cvmMemCtl = s.cvmMemCtl := rfl
@[simp] theorem State.recordBarrier_ops64 (e : BarrierEvent) : (s.recordBarrier e).ops64 = s.ops64 := rfl
@[simp] theorem State.recordBarrier_mem (e : BarrierEvent) : (s.recordBarrier e).mem = s.mem := rfl
@[simp] theorem State.recordBarrier_admission (e : BarrierEvent) : (s.recordBarrier e).admission = s.admission := rfl
@[simp] theorem State.recordBarrier_text (e : BarrierEvent) : (s.recordBarrier e).text = s.text := rfl
@[simp] theorem State.recordBarrier_haltPc (e : BarrierEvent) : (s.recordBarrier e).haltPc = s.haltPc := rfl
@[simp] theorem State.recordBarrier_history (e : BarrierEvent) : (s.recordBarrier e).history = s.history ++ [e] := rfl
@[simp] theorem State.recordBarrier_exception (e : BarrierEvent) : (s.recordBarrier e).exception = s.exception := rfl
@[simp] theorem State.recordBarrier_freeCount (e : BarrierEvent) : (s.recordBarrier e).freeCount = s.freeCount := rfl

/-! ### withMul -/

@[simp] theorem State.withMul_regs (m : MulState) : (s.withMul m).regs = s.regs := rfl
@[simp] theorem State.withMul_pc (m : MulState) : (s.withMul m).pc = s.pc := rfl
@[simp] theorem State.withMul_delay (m : MulState) : (s.withMul m).delay = s.delay := rfl
@[simp] theorem State.withMul_mul (m : MulState) : (s.withMul m).mul = m := rfl
@[simp] theorem State.withMul_cvmCtl (m : MulState) : (s.withMul m).cvmCtl = s.cvmCtl := rfl
@[simp] theorem State.withMul_cvmMemCtl (m : MulState) : (s.withMul m).cvmMemCtl = s.cvmMemCtl := rfl
@[simp] theorem State.withMul_ops64 (m : MulState) : (s.withMul m).ops64 = s.ops64 := rfl
@[simp] theorem State.withMul_mem (m : MulState) : (s.withMul m).mem = s.mem := rfl
@[simp] theorem State.withMul_admission (m : MulState) : (s.withMul m).admission = s.admission := rfl
@[simp] theorem State.withMul_text (m : MulState) : (s.withMul m).text = s.text := rfl
@[simp] theorem State.withMul_haltPc (m : MulState) : (s.withMul m).haltPc = s.haltPc := rfl
@[simp] theorem State.withMul_history (m : MulState) : (s.withMul m).history = s.history := rfl
@[simp] theorem State.withMul_exception (m : MulState) : (s.withMul m).exception = s.exception := rfl
@[simp] theorem State.withMul_freeCount (m : MulState) : (s.withMul m).freeCount = s.freeCount := rfl

/-! ### withMem -/

@[simp] theorem State.withMem_regs (m : Memory) : (s.withMem m).regs = s.regs := rfl
@[simp] theorem State.withMem_pc (m : Memory) : (s.withMem m).pc = s.pc := rfl
@[simp] theorem State.withMem_delay (m : Memory) : (s.withMem m).delay = s.delay := rfl
@[simp] theorem State.withMem_mul (m : Memory) : (s.withMem m).mul = s.mul := rfl
@[simp] theorem State.withMem_cvmCtl (m : Memory) : (s.withMem m).cvmCtl = s.cvmCtl := rfl
@[simp] theorem State.withMem_cvmMemCtl (m : Memory) : (s.withMem m).cvmMemCtl = s.cvmMemCtl := rfl
@[simp] theorem State.withMem_ops64 (m : Memory) : (s.withMem m).ops64 = s.ops64 := rfl
@[simp] theorem State.withMem_mem (m : Memory) : (s.withMem m).mem = m := rfl
@[simp] theorem State.withMem_admission (m : Memory) : (s.withMem m).admission = s.admission := rfl
@[simp] theorem State.withMem_text (m : Memory) : (s.withMem m).text = s.text := rfl
@[simp] theorem State.withMem_haltPc (m : Memory) : (s.withMem m).haltPc = s.haltPc := rfl
@[simp] theorem State.withMem_history (m : Memory) : (s.withMem m).history = s.history := rfl
@[simp] theorem State.withMem_exception (m : Memory) : (s.withMem m).exception = s.exception := rfl
@[simp] theorem State.withMem_freeCount (m : Memory) : (s.withMem m).freeCount = s.freeCount := rfl

/-! ### loaded -/

@[simp] theorem MulState.loaded_hi : (m.loaded).hi = m.hi := rfl
@[simp] theorem MulState.loaded_lo : (m.loaded).lo = m.lo := rfl
@[simp] theorem MulState.loaded_mpl0 : (m.loaded).mpl0 = m.mpl0 := rfl
@[simp] theorem MulState.loaded_mpl1 : (m.loaded).mpl1 = m.mpl1 := rfl
@[simp] theorem MulState.loaded_mpl2 : (m.loaded).mpl2 = m.mpl2 := rfl
@[simp] theorem MulState.loaded_p0 : (m.loaded).p0 = 0#64 := rfl
@[simp] theorem MulState.loaded_p1 : (m.loaded).p1 = 0#64 := rfl
@[simp] theorem MulState.loaded_p2 : (m.loaded).p2 = 0#64 := rfl
@[simp] theorem MulState.loaded_mseq : (m.loaded).mseq = .loaded := rfl
@[simp] theorem MulState.loaded_mtpDirty : (m.loaded).mtpDirty = false := rfl

/-! ### presetSeq -/

@[simp] theorem MulState.presetSeq_hi : (m.presetSeq).hi = m.hi := rfl
@[simp] theorem MulState.presetSeq_lo : (m.presetSeq).lo = m.lo := rfl
@[simp] theorem MulState.presetSeq_mpl0 : (m.presetSeq).mpl0 = m.mpl0 := rfl
@[simp] theorem MulState.presetSeq_mpl1 : (m.presetSeq).mpl1 = m.mpl1 := rfl
@[simp] theorem MulState.presetSeq_mpl2 : (m.presetSeq).mpl2 = m.mpl2 := rfl
@[simp] theorem MulState.presetSeq_p0 : (m.presetSeq).p0 = m.p0 := rfl
@[simp] theorem MulState.presetSeq_p1 : (m.presetSeq).p1 = m.p1 := rfl
@[simp] theorem MulState.presetSeq_p2 : (m.presetSeq).p2 = m.p2 := rfl
@[simp] theorem MulState.presetSeq_mseq : (m.presetSeq).mseq = m.mseq := rfl
@[simp] theorem MulState.presetSeq_mtpDirty : (m.presetSeq).mtpDirty = if m.mseq = .loaded then m.mtpDirty else true := rfl

/-! ### dmulMul -/

@[simp] theorem State.dmulMul_hi : (s.dmulMul).hi = s.free 0 := rfl
@[simp] theorem State.dmulMul_lo : (s.dmulMul).lo = s.free 1 := rfl
@[simp] theorem State.dmulMul_mpl0 : (s.dmulMul).mpl0 = s.mul.mpl0 := rfl
@[simp] theorem State.dmulMul_mpl1 : (s.dmulMul).mpl1 = s.mul.mpl1 := rfl
@[simp] theorem State.dmulMul_mpl2 : (s.dmulMul).mpl2 = s.mul.mpl2 := rfl
@[simp] theorem State.dmulMul_p0 : (s.dmulMul).p0 = s.free 2 := rfl
@[simp] theorem State.dmulMul_p1 : (s.dmulMul).p1 = s.free 3 := rfl
@[simp] theorem State.dmulMul_p2 : (s.dmulMul).p2 = s.free 4 := rfl
@[simp] theorem State.dmulMul_mseq : (s.dmulMul).mseq = s.mul.mseq := rfl
@[simp] theorem State.dmulMul_mtpDirty : (s.dmulMul).mtpDirty = s.mul.mtpDirty := rfl

/-! ### v3muluMul -/

@[simp] theorem State.v3muluMul_hi (n : Nat) : (s.v3muluMul n).hi = s.mul.hi := rfl
@[simp] theorem State.v3muluMul_lo (n : Nat) : (s.v3muluMul n).lo = s.mul.lo := rfl
@[simp] theorem State.v3muluMul_mpl0 (n : Nat) : (s.v3muluMul n).mpl0 = s.mul.mpl0 := rfl
@[simp] theorem State.v3muluMul_mpl1 (n : Nat) : (s.v3muluMul n).mpl1 = s.mul.mpl1 := rfl
@[simp] theorem State.v3muluMul_mpl2 (n : Nat) : (s.v3muluMul n).mpl2 = s.mul.mpl2 := rfl
@[simp] theorem State.v3muluMul_p0 (n : Nat) : (s.v3muluMul n).p0 = limb n 1 := rfl
@[simp] theorem State.v3muluMul_p1 (n : Nat) : (s.v3muluMul n).p1 = limb n 2 := rfl
@[simp] theorem State.v3muluMul_p2 (n : Nat) : (s.v3muluMul n).p2 = limb n 3 := rfl
@[simp] theorem State.v3muluMul_mseq (n : Nat) : (s.v3muluMul n).mseq = .afterV3mulu := rfl
@[simp] theorem State.v3muluMul_mtpDirty (n : Nat) : (s.v3muluMul n).mtpDirty = false := rfl

/-! ### vmm0Mul -/

@[simp] theorem State.vmm0Mul_hi (r : Reg) (n : Nat) : (s.vmm0Mul r n).hi = s.mul.hi := rfl
@[simp] theorem State.vmm0Mul_lo (r : Reg) (n : Nat) : (s.vmm0Mul r n).lo = s.mul.lo := rfl
@[simp] theorem State.vmm0Mul_mpl0 (r : Reg) (n : Nat) : (s.vmm0Mul r n).mpl0 = if r = 0#5 then s.free 2 else limb n 0 := rfl
@[simp] theorem State.vmm0Mul_mpl1 (r : Reg) (n : Nat) : (s.vmm0Mul r n).mpl1 = s.free 0 := rfl
@[simp] theorem State.vmm0Mul_mpl2 (r : Reg) (n : Nat) : (s.vmm0Mul r n).mpl2 = s.free 1 := rfl
@[simp] theorem State.vmm0Mul_p0 (r : Reg) (n : Nat) : (s.vmm0Mul r n).p0 = 0#64 := rfl
@[simp] theorem State.vmm0Mul_p1 (r : Reg) (n : Nat) : (s.vmm0Mul r n).p1 = 0#64 := rfl
@[simp] theorem State.vmm0Mul_p2 (r : Reg) (n : Nat) : (s.vmm0Mul r n).p2 = 0#64 := rfl
@[simp] theorem State.vmm0Mul_mseq (r : Reg) (n : Nat) : (s.vmm0Mul r n).mseq = .loaded := rfl
@[simp] theorem State.vmm0Mul_mtpDirty (r : Reg) (n : Nat) : (s.vmm0Mul r n).mtpDirty = false := rfl

/-! ### vmuluMul -/

@[simp] theorem State.vmuluMul_hi (n : Nat) : (s.vmuluMul n).hi = s.mul.hi := rfl
@[simp] theorem State.vmuluMul_lo (n : Nat) : (s.vmuluMul n).lo = s.mul.lo := rfl
@[simp] theorem State.vmuluMul_mpl0 (n : Nat) : (s.vmuluMul n).mpl0 = s.mul.mpl0 := rfl
@[simp] theorem State.vmuluMul_mpl1 (n : Nat) : (s.vmuluMul n).mpl1 = s.free 0 := rfl
@[simp] theorem State.vmuluMul_mpl2 (n : Nat) : (s.vmuluMul n).mpl2 = s.free 1 := rfl
@[simp] theorem State.vmuluMul_p0 (n : Nat) : (s.vmuluMul n).p0 = limb n 1 := rfl
@[simp] theorem State.vmuluMul_p1 (n : Nat) : (s.vmuluMul n).p1 = s.free 2 := rfl
@[simp] theorem State.vmuluMul_p2 (n : Nat) : (s.vmuluMul n).p2 = s.free 3 := rfl
@[simp] theorem State.vmuluMul_mseq (n : Nat) : (s.vmuluMul n).mseq = .afterVmulu := rfl
@[simp] theorem State.vmuluMul_mtpDirty (n : Nat) : (s.vmuluMul n).mtpDirty = false := rfl

/-! ### What reading a register sees -/

@[simp] theorem State.readReg_zero : s.readReg 0#5 = 0#64 := rfl

/-- A register reads what was written to it; register 0 reads zero (10_state.md R21). -/
theorem State.readReg_writeReg (r q : Reg) (v : Word) :
    (s.writeReg r v).readReg q = if q = 0#5 then 0#64 else if q = r then v else s.readReg q := by
  unfold State.readReg State.writeReg
  by_cases hq : q = 0#5
  · simp [hq]
  · by_cases hr : r = 0#5
    · simp [hr, hq]
    · have hne : r.toNat = q.toNat ↔ q = r := by
        rw [BitVec.toNat_inj]; exact eq_comm
      simp [hq, hr, Vector.getElem_set, hne]

@[simp] theorem State.readReg_writeReg_same (r : Reg) (v : Word) :
    (s.writeReg r v).readReg r = if r = 0#5 then 0#64 else v := by
  rw [State.readReg_writeReg]; simp

theorem State.readReg_writeReg_other {r q : Reg} (v : Word) (h : q ≠ r) :
    (s.writeReg r v).readReg q = s.readReg q := by
  rw [State.readReg_writeReg]; by_cases hq : q = 0#5 <;> simp [hq, h]

@[simp] theorem State.readReg_advance (r : Reg) : (s.advance).readReg r = s.readReg r := rfl
@[simp] theorem State.readReg_enterDelaySlot (r : Reg) (t : Word) : (s.enterDelaySlot t).readReg r = s.readReg r := rfl
@[simp] theorem State.readReg_drew (r : Reg) (n : Nat) : (s.drew n).readReg r = s.readReg r := rfl
@[simp] theorem State.readReg_raise (r : Reg) (c : ExcCause) (x : ExcInfo) : (s.raise c x).readReg r = s.readReg r := rfl
@[simp] theorem State.readReg_recordBarrier (r : Reg) (e : BarrierEvent) : (s.recordBarrier e).readReg r = s.readReg r := rfl
@[simp] theorem State.readReg_withMul (r : Reg) (m : MulState) : (s.withMul m).readReg r = s.readReg r := rfl
@[simp] theorem State.readReg_withMem (r : Reg) (m : Memory) : (s.withMem m).readReg r = s.readReg r := rfl

/-! ### What reading a byte sees -/

@[simp] theorem State.readByte_writeReg (a : Word) (r : Reg) (v : Word) : (s.writeReg r v).readByte a = s.readByte a := rfl
@[simp] theorem State.readByte_advance (a : Word) : (s.advance).readByte a = s.readByte a := rfl
@[simp] theorem State.readByte_enterDelaySlot (a : Word) (t : Word) : (s.enterDelaySlot t).readByte a = s.readByte a := rfl
@[simp] theorem State.readByte_drew (a : Word) (n : Nat) : (s.drew n).readByte a = s.readByte a := rfl
@[simp] theorem State.readByte_raise (a : Word) (c : ExcCause) (x : ExcInfo) : (s.raise c x).readByte a = s.readByte a := rfl
@[simp] theorem State.readByte_recordBarrier (a : Word) (e : BarrierEvent) : (s.recordBarrier e).readByte a = s.readByte a := rfl
@[simp] theorem State.readByte_withMul (a : Word) (m : MulState) : (s.withMul m).readByte a = s.readByte a := rfl
@[simp] theorem State.readByte_withMem (a : Word) (n : Memory) : (s.withMem n).readByte a = n.read a.toNat := rfl

end Sys2Proof.Machine
end

