-- ==== Sys2Proof/Laws/Ops.lean ====
section
/-! SUPPORT. One lemma per shared operation that says everything it can do, cited by proofs instead of unfolding
the operation: if it answers a next state, which; where it stops, why. -/

namespace Sys2Proof.Machine

/-! ### Frames -/

theorem SameConfig.refl (s : State) : SameConfig s s := ⟨rfl, rfl, rfl, rfl, rfl, rfl⟩

theorem State.wentOn_of_advance {s u : State} (hp : u.pc = s.pc) (hd : u.delay = s.delay) :
    WentOn s u.advance := by
  refine ⟨rfl, ?_⟩
  simp only [State.advance_pc, State.nextPc, hp, hd]
  cases s.delay <;> rfl

/-- What a register write followed by the end of the instruction does. -/
theorem State.onlyWrites_writeReg_advance (s : State) (d : Reg) (v : Word) :
    OnlyWrites d v s (s.writeReg d v).advance :=
  ⟨⟨State.readReg_writeReg_same s d v, fun _ h => State.readReg_writeReg_other s v h⟩, fun _ => rfl, rfl,
    SameConfig.refl s, ⟨rfl, rfl⟩, State.wentOn_of_advance rfl rfl⟩

/-! ### Shared shapes -/

theorem writeAndAdvance_next {r : Reg} {v : Word} {s t : State} :
    writeAndAdvance r v s = .next t ↔ (s.writeReg r v).advance = t := by
  simp [writeAndAdvance]

theorem setMulAndAdvance_next {m : MulState} {s t : State} :
    setMulAndAdvance m s = .next t ↔ (s.withMul m).advance = t := by
  simp [setMulAndAdvance]

theorem barrier_next {e : BarrierEvent} {s t : State} :
    barrier e s = .next t ↔ (s.recordBarrier e).advance = t := by
  simp [barrier]

theorem nopForm_next {s t : State} : nopForm s = .next t ↔ s.advance = t := by
  simp [nopForm]

/-- A doubleword NOP form goes on while `ops64` is true and is refused otherwise. -/
theorem doublewordNopForm_next {s t : State} :
    doublewordNopForm s = .next t ↔ s.ops64 = true ∧ s.advance = t := by
  unfold doublewordNopForm State.enabled64
  cases s.ops64 <;> simp [nopForm]

/-- A branch answers a next state outside a delay slot only, and sets the delay state to the target or to
the word after the slot. -/
theorem branchOn_next {c : Bool} {offset : Off16} {s t : State} :
    branchOn c offset s = .next t ↔
      s.delay = none ∧ s.enterDelaySlot (if c then branchTarget s.pc offset else s.pc + 8#64) = t := by
  unfold branchOn
  cases s.delay <;> simp

/-- In a delay slot a branch is the fault UnpredictableOperation. -/
theorem branchOn_fault {c : Bool} {offset : Off16} {s : State} (h : s.delay.isSome = true) :
    branchOn c offset s = .fault (.unpredictableOperation .branchInDelaySlot) := by
  simp [branchOn, h]

/-- `need64` runs the instruction while `ops64` is true and raises Reserved Instruction otherwise. -/
theorem need64_next {i : Instr} {f : State → Host.Outcome State Fault Refusal} {s t : State} :
    need64 i f s = .next t ↔
      (s.ops64 = true ∧ f s = .next t) ∨ (s.ops64 = false ∧ s.raiseReserved i = t) := by
  unfold need64 State.enabled64
  cases s.ops64 <;> simp

@[simp] theorem need64_enabled {i : Instr} {f : State → Host.Outcome State Fault Refusal} {s : State}
    (h : s.ops64 = true) : need64 i f s = f s := by
  simp [need64, State.enabled64, h]

@[simp] theorem need64_disabled {i : Instr} {f : State → Host.Outcome State Fault Refusal} {s : State}
    (h : s.ops64 = false) : need64 i f s = .next (s.raiseReserved i) := by
  simp [need64, State.enabled64, h]

/-- `needMul` runs the instruction while the multiplier unit may be used and raises Reserved Instruction
otherwise. -/
theorem needMul_next {i : Instr} {f : State → Host.Outcome State Fault Refusal} {s t : State} :
    needMul i f s = .next t ↔
      ((s.ops64 = true ∧ s.cvmCtl.nomul = false) ∧ f s = .next t) ∨
        (¬ (s.ops64 = true ∧ s.cvmCtl.nomul = false) ∧ s.raiseReserved i = t) := by
  unfold needMul State.enabledMul
  cases s.ops64 <;> cases s.cvmCtl.nomul <;> simp

@[simp] theorem needMul_enabled {i : Instr} {f : State → Host.Outcome State Fault Refusal} {s : State}
    (h : s.ops64 = true) (hn : s.cvmCtl.nomul = false) : needMul i f s = f s := by
  simp [needMul, State.enabledMul, h, hn]

theorem needMul_disabled {i : Instr} {f : State → Host.Outcome State Fault Refusal} {s : State}
    (h : s.ops64 = false ∨ s.cvmCtl.nomul = true) : needMul i f s = .next (s.raiseReserved i) := by
  rcases h with h | h <;> simp [needMul, State.enabledMul, h]

/-! ### Loads -/

/-- The first part not admitted, one part at a time. -/
theorem firstGivesNoStep_cons {p : Admission} {k : AccessKind} {q : Part} {qs : List Part} :
    FirstGivesNoStep p k (q :: qs) ↔
      p.answerFor q.addr q.len k = .noStep ∨
        (p.answerFor q.addr q.len k = .ok ∧ FirstGivesNoStep p k qs) := by
  constructor
  · rintro ⟨before, x, after, he, hb, hx⟩
    cases before with
    | nil => simp only [List.nil_append, List.cons.injEq] at he; exact .inl (he.1 ▸ hx)
    | cons b bs =>
      simp only [List.cons_append, List.cons.injEq] at he
      obtain ⟨rfl, rfl⟩ := he
      exact .inr ⟨hb _ (by simp), bs, x, after, rfl, fun c hc => hb c (by simp [hc]), hx⟩
  · rintro (h | ⟨h, before, x, after, rfl, hb, hx⟩)
    · exact ⟨[], q, qs, rfl, by simp, h⟩
    · exact ⟨q :: before, x, after, rfl, by simpa [h] using hb, hx⟩

theorem checkLoad_admitted {p : Admission} {qs : List Part} :
    checkLoad p qs = .admitted ↔ ∀ q ∈ qs, p.answerFor q.addr q.len .load = .ok := by
  induction qs with
  | nil => simp [checkLoad]
  | cons q qs ih =>
    unfold checkLoad
    cases h : p.answerFor q.addr q.len .load <;> simp [h, ih]

theorem checkLoad_noStep {p : Admission} {qs : List Part} :
    checkLoad p qs = .noStep ↔ FirstGivesNoStep p .load qs := by
  induction qs with
  | nil => simp [checkLoad, FirstGivesNoStep]
  | cons q qs ih =>
    unfold checkLoad
    rw [firstGivesNoStep_cons]
    cases h : p.answerFor q.addr q.len .load <;> simp [ih]

/-- A load is refused exactly where the first part that is not admitted is given no step. -/
theorem loadUnaligned_refused {rt : Reg} {ea : Word} {n : Nat} {val : Nat → Word} {s : State} {r : Refusal} :
    loadUnaligned rt ea n val s = .refused r ↔
      r = .accessNotAdmitted ∧ FirstGivesNoStep s.admission .load (accessParts ea n) := by
  rw [← checkLoad_noStep]
  unfold loadUnaligned
  cases checkLoad s.admission (accessParts ea n) <;> simp [eq_comm]

/-- A load answers a next state in two ways: every part is admitted and the value is written, or the first
part not admitted raises and nothing is written. -/
theorem loadUnaligned_next {rt : Reg} {ea : Word} {n : Nat} {val : Nat → Word} {s t : State} :
    loadUnaligned rt ea n val s = .next t ↔
      (checkLoad s.admission (accessParts ea n) = .admitted ∧
        (s.writeReg rt (val (s.memRead ea n))).advance = t) ∨
      ∃ e a, checkLoad s.admission (accessParts ea n) = .raised e a ∧
        s.raise (.access e) (.address a) = t := by
  unfold loadUnaligned
  cases checkLoad s.admission (accessParts ea n) <;> simp

theorem loadUnaligned_admitted {rt : Reg} {ea : Word} {n : Nat} {val : Nat → Word} {s : State}
    (h : AllAdmitted s ea n .load) :
    loadUnaligned rt ea n val s = .next (s.writeReg rt (val (s.memRead ea n))).advance := by
  rw [loadUnaligned_next]
  exact Or.inl ⟨checkLoad_admitted.mpr h, rfl⟩

/-! ### Stores -/

theorem State.overlapsText_eq_false {s : State} {ea : Word} {n : Nat} :
    s.overlapsText ea n = false ↔ ClearOfText s ea n := by
  induction n generalizing ea with
  | zero => simp [State.overlapsText, ClearOfText]
  | succ n ih =>
    simp only [State.overlapsText, Bool.or_eq_false_iff, ih, ClearOfText]
    constructor
    · rintro ⟨h0, h⟩ k hk
      cases k with
      | zero => simpa using h0
      | succ k => rw [← addr_succ ea k]; exact h k (by omega)
    · intro h
      refine ⟨by simpa using h 0 (by omega), fun k hk => ?_⟩
      rw [addr_succ ea k]
      exact h (k + 1) (by omega)

/-- Where every part is admitted, the parts together store the whole run of bytes. -/
theorem storeParts_admitted {p : Admission} {m : Memory} {ea : Word} {n : Nat} {bs : List Byte}
    (hl : bs.length = n) (h : ∀ q ∈ accessParts ea n, p.answerFor q.addr q.len .store = .ok) :
    storeParts p m (accessParts ea n) bs = .done (m.writeBytes ea bs) := by
  unfold accessParts at h ⊢
  split_ifs at h ⊢ with hc
  · simp only [List.mem_singleton, forall_eq] at h
    simp [storeParts, h, List.take_of_length_le hl.le]
  · simp only [List.mem_cons, List.not_mem_nil, or_false, forall_eq_or_imp, forall_eq] at h
    have hlt : 8 - ea.toNat % 8 ≤ bs.length := by omega
    simp only [storeParts, h.1, h.2]
    congr 1
    have hd : (bs.drop (8 - ea.toNat % 8)).take (n - (8 - ea.toNat % 8)) = bs.drop (8 - ea.toNat % 8) := by
      apply List.take_of_length_le
      simp; omega
    rw [hd]
    conv_rhs => rw [← List.take_append_drop (8 - ea.toNat % 8) bs]
    rw [Memory.writeBytes_append]
    simp [List.length_take, Nat.min_eq_left hlt]

/-- A store that is done has stored the whole run of bytes. -/
theorem storeParts_done {p : Admission} {m m' : Memory} {ea : Word} {n : Nat} {bs : List Byte}
    (hl : bs.length = n) (h : storeParts p m (accessParts ea n) bs = .done m') :
    m' = m.writeBytes ea bs := by
  have key : ∀ q ∈ accessParts ea n, p.answerFor q.addr q.len .store = .ok := by
    unfold accessParts at h ⊢
    split_ifs at h ⊢ with hc
    · cases h1 : p.answerFor ea n .store <;> simp_all [storeParts]
    · cases h1 : p.answerFor ea (8 - ea.toNat % 8) .store <;>
        cases h2 : p.answerFor (ea + BitVec.ofNat 64 (8 - ea.toNat % 8)) (n - (8 - ea.toNat % 8)) .store <;>
        simp_all [storeParts]
  rw [storeParts_admitted hl key] at h
  exact (StoreResult.done.inj h).symm

/-- A store whose first part is refused has stored nothing; one whose second part is refused has stored
the bytes of the first (48_unaligned.md R242). -/
theorem storeParts_raised {p : Admission} {m m' : Memory} {ea a : Word} {n : Nat} {bs : List Byte}
    {e : AddrExc} (h : storeParts p m (accessParts ea n) bs = .raised m' e a) :
    (m' = m ∧ a = ea) ∨
      (8 < ea.toNat % 8 + n ∧ m' = m.writeBytes ea (bs.take (8 - ea.toNat % 8)) ∧
        a = ea + BitVec.ofNat 64 (8 - ea.toNat % 8)) := by
  unfold accessParts at h
  split_ifs at h with hc
  · cases h1 : p.answerFor ea n .store <;> simp_all [storeParts]
  · cases h1 : p.answerFor ea (8 - ea.toNat % 8) .store <;>
      cases h2 : p.answerFor (ea + BitVec.ofNat 64 (8 - ea.toNat % 8)) (n - (8 - ea.toNat % 8)) .store <;>
      simp_all [storeParts]

/-- Every memory a store leaves is the one before with a run of bytes written. -/
theorem storeParts_keeps_wf {p : Admission} {m m' : Memory} {ea : Word} {n : Nat} {bs : List Byte}
    (hl : bs.length = n) (hw : m.wf = true)
    (h : storeParts p m (accessParts ea n) bs = .done m' ∨
      ∃ e a, storeParts p m (accessParts ea n) bs = .raised m' e a) : m'.wf = true := by
  rcases h with h | ⟨e, a, h⟩
  · rw [storeParts_done hl h]; exact Memory.writeBytes_wf _ _ hw
  · rcases storeParts_raised h with ⟨rfl, -⟩ | ⟨-, rfl, -⟩
    · exact hw
    · exact Memory.writeBytes_wf _ _ hw

theorem storeParts_noStep {p : Admission} {m : Memory} {qs : List Part} {bs : List Byte} :
    storeParts p m qs bs = .noStep ↔ FirstGivesNoStep p .store qs := by
  induction qs generalizing m bs with
  | nil => simp [storeParts, FirstGivesNoStep]
  | cons q qs ih =>
    unfold storeParts
    rw [firstGivesNoStep_cons]
    cases h : p.answerFor q.addr q.len .store <;> simp [ih]

/-- A store is refused in two ways: a byte of it is program text, or it is clear of the text and the first part
that is not admitted is given no step. -/
theorem storeUnaligned_refused {ea : Word} {n : Nat} {v : Word} {s : State} {r : Refusal} :
    storeUnaligned ea n v s = .refused r ↔
      (r = .storeToProgramText ∧ ¬ ClearOfText s ea n) ∨
        (r = .accessNotAdmitted ∧ ClearOfText s ea n ∧
          FirstGivesNoStep s.admission .store (accessParts ea n)) := by
  rw [← storeParts_noStep (m := s.mem) (bs := natToBytes s.cvmCtl.le n v.toNat), ← State.overlapsText_eq_false]
  unfold storeUnaligned
  cases s.overlapsText ea n <;>
    cases storeParts s.admission s.mem (accessParts ea n) (natToBytes s.cvmCtl.le n v.toNat) <;> simp [eq_comm]

/-- A store answers a next state in two ways, both clear of the program text: every part is stored, or a
part raises and leaves the earlier part stored. -/
theorem storeUnaligned_next {ea : Word} {n : Nat} {v : Word} {s t : State} :
    storeUnaligned ea n v s = .next t ↔ ClearOfText s ea n ∧
      ((∃ m, storeParts s.admission s.mem (accessParts ea n) (natToBytes s.cvmCtl.le n v.toNat) = .done m ∧
          (s.withMem m).advance = t) ∨
        ∃ m e a, storeParts s.admission s.mem (accessParts ea n) (natToBytes s.cvmCtl.le n v.toNat)
            = .raised m e a ∧ (s.withMem m).raise (.access e) (.address a) = t) := by
  unfold storeUnaligned
  rw [← State.overlapsText_eq_false]
  cases s.overlapsText ea n <;>
    cases storeParts s.admission s.mem (accessParts ea n) (natToBytes s.cvmCtl.le n v.toNat) <;> simp

theorem storeUnaligned_admitted {ea : Word} {n : Nat} {v : Word} {s : State}
    (ht : ClearOfText s ea n) (h : AllAdmitted s ea n .store) :
    storeUnaligned ea n v s =
      .next (s.withMem (s.mem.writeBytes ea (natToBytes s.cvmCtl.le n v.toNat))).advance := by
  rw [storeUnaligned_next]
  exact ⟨ht, Or.inl ⟨_, storeParts_admitted (by simp) h, rfl⟩⟩

end Sys2Proof.Machine
end

