-- ==== Sys2Proof/Laws/Exec.lean ====
section
/-! SUPPORT. Everything an instruction can do, said once: where `exec` answers a next state, that state has one of
seven shapes. Statements over all instructions follow by cases on the shape instead of unfolding every
meaning. -/

namespace Sys2Proof.Machine

/-- `i` is the store of `n` bytes at `ea`. -/
def StoresAt (i : Instr) (s : State) (ea : Word) (n : Nat) : Prop :=
  ∃ rt offset base, ea = effectiveAddress (s.readReg base) offset ∧
    ((n = 8 ∧ (i = .usdLeft rt offset base ∨ i = .usdRight rt offset base)) ∨
      (n = 4 ∧ (i = .uswLeft rt offset base ∨ i = .uswRight rt offset base)))

/-- The shapes of a next state of `exec i s`. -/
inductive ExecShape (i : Instr) (s t : State) : Prop
  /-- Reserved Instruction is raised. -/
  | reserved (h : Reserved i s) (e : t = s.raiseReserved i)
  /-- A general register (register 0 for none) and the multiply state are written, free values are drawn. -/
  | wrote (r : Reg) (v : Word) (m : MulState) (n : Nat)
      (hm : m.mseq = .loaded → m.mtpDirty = true → s.mul.mseq = .loaded ∧ s.mul.mtpDirty = true)
      (hb : barrierEvent i = []) (nb : isBranch i = false) (ns : isStore i = false) (nr : ¬ Reserved i s)
      (e : t = (((s.withMul m).drew n).writeReg r v).advance)
  /-- A branch enters its delay slot. -/
  | branch (offset : Off16) (d : Word) (hd : s.delay = none) (hb : isBranch i = true)
      (he : d = branchTarget s.pc offset ∨ d = s.pc + 8#64) (e : t = s.enterDelaySlot d)
  /-- A barrier records its event. -/
  | barrier (b : BarrierEvent) (h : barrierEvent i = [b]) (e : t = (s.recordBarrier b).advance)
  /-- A part of a load raises. -/
  | loadRaise (x : AddrExc) (q : Part) (hl : isLoad i = true) (hq : s.admission.answerFor q.addr q.len .load = .raise x)
      (e : t = s.raise (.access x) (.address q.addr))
  /-- A store is done. -/
  | store (ea : Word) (n : Nat) (m : Memory) (v : Word) (hs : isStore i = true) (hc : ClearOfText s ea n)
      (hi : StoresAt i s ea n)
      (hm : storeParts s.admission s.mem (accessParts ea n) (natToBytes s.cvmCtl.le n v.toNat) = .done m)
      (e : t = (s.withMem m).advance)
  /-- A part of a store raises, the earlier part stored. -/
  | storeRaise (ea : Word) (n : Nat) (m : Memory) (v : Word) (x : AddrExc) (a : Word) (hs : isStore i = true)
      (hc : ClearOfText s ea n) (hi : StoresAt i s ea n)
      (hm : storeParts s.admission s.mem (accessParts ea n) (natToBytes s.cvmCtl.le n v.toNat) = .raised m x a)
      (e : t = (s.withMem m).raise (.access x) (.address a))

theorem checkLoad_raised {p : Admission} {qs : List Part} {e : AddrExc} {a : Word}
    (h : checkLoad p qs = .raised e a) : ∃ q ∈ qs, p.answerFor q.addr q.len .load = .raise e ∧ q.addr = a := by
  induction qs with
  | nil => simp [checkLoad] at h
  | cons q qs ih =>
    unfold checkLoad at h
    cases h1 : p.answerFor q.addr q.len .load <;> simp [h1] at h
    · obtain ⟨q', h', h''⟩ := ih h
      exact ⟨q', by simp [h'], h''⟩
    · exact ⟨q, by simp, by simp [h1, h.1], h.2⟩

section wrote
variable {i : Instr} {s t : State} {r : Reg} {v : Word} {m : MulState} {n : Nat}

theorem ExecShape.of_write (hb : barrierEvent i = []) (nb : isBranch i = false) (ns : isStore i = false)
    (nr : ¬ Reserved i s) (e : writeAndAdvance r v s = .next t) : ExecShape i s t :=
  .wrote r v s.mul 0 (fun a b => ⟨a, b⟩) hb nb ns nr (writeAndAdvance_next.mp e).symm

theorem ExecShape.of_load (hb : barrierEvent i = []) (nb : isBranch i = false) (ns : isStore i = false)
    (nr : ¬ Reserved i s) (e : (s.writeReg r v).advance = t) : ExecShape i s t :=
  .wrote r v s.mul 0 (fun a b => ⟨a, b⟩) hb nb ns nr e.symm

theorem ExecShape.of_draw (hb : barrierEvent i = []) (nb : isBranch i = false) (ns : isStore i = false)
    (nr : ¬ Reserved i s) (e : writeAndAdvance r v (s.drew n) = .next t) : ExecShape i s t :=
  .wrote r v s.mul n (fun a b => ⟨a, b⟩) hb nb ns nr (writeAndAdvance_next.mp e).symm

theorem ExecShape.of_mul (hm : m.mseq = .loaded → m.mtpDirty = true → s.mul.mseq = .loaded ∧ s.mul.mtpDirty = true)
    (hb : barrierEvent i = []) (nb : isBranch i = false) (ns : isStore i = false)
    (nr : ¬ Reserved i s) (e : writeAndAdvance r v (s.withMul m) = .next t) : ExecShape i s t :=
  .wrote r v m 0 hm hb nb ns nr (writeAndAdvance_next.mp e).symm

theorem ExecShape.of_mul_draw
    (hm : m.mseq = .loaded → m.mtpDirty = true → s.mul.mseq = .loaded ∧ s.mul.mtpDirty = true)
    (hb : barrierEvent i = []) (nb : isBranch i = false) (ns : isStore i = false)
    (nr : ¬ Reserved i s) (e : writeAndAdvance r v ((s.withMul m).drew n) = .next t) : ExecShape i s t :=
  .wrote r v m n hm hb nb ns nr (writeAndAdvance_next.mp e).symm

theorem ExecShape.of_setMul
    (hm : m.mseq = .loaded → m.mtpDirty = true → s.mul.mseq = .loaded ∧ s.mul.mtpDirty = true)
    (hb : barrierEvent i = []) (nb : isBranch i = false) (ns : isStore i = false)
    (nr : ¬ Reserved i s) (e : setMulAndAdvance m s = .next t) : ExecShape i s t := by
  refine .wrote 0#5 0#64 m 0 hm hb nb ns nr ?_
  rw [← setMulAndAdvance_next.mp e]
  simp [State.writeReg, State.drew, State.withMul]

theorem ExecShape.of_nop (hb : barrierEvent i = []) (nb : isBranch i = false) (ns : isStore i = false)
    (nr : ¬ Reserved i s) (e : s.advance = t) : ExecShape i s t := by
  refine .wrote 0#5 0#64 s.mul 0 (fun a b => ⟨a, b⟩) hb nb ns nr ?_
  rw [← e]
  simp [State.writeReg, State.drew, State.withMul]

end wrote

/-- Every next state of `exec` has one of the shapes. -/
theorem exec_shape {i : Instr} {s t : State} (h : exec i s = .next t) : ExecShape i s t := by
  cases i <;> simp only [exec, execBaddu, execPop, execDpop, execDmul, execCins, execCins32, execExts, execExts32,
    execMtm0, execMtm1, execMtm2, execMtp0, execMtp1, execMtp2, execSeq, execSne, execSeqi, execSnei,
    execSynciobdma, execSyncs, execSyncw, execSyncws, execUldLeft, execUldRight, execUlwLeft, execUlwRight,
    execUsdLeft, execUsdRight, execUswLeft, execUswRight, execNopLdr, execNopLdl, execNopLwr, execNopLwl,
    execNopSdr, execNopSdl, execNopSwr, execNopSwl, execV3mulu, execVmm0, execVmulu, execBbit0, execBbit032,
    execBbit1, execBbit132, loadDoubleword, loadWord, storeDoubleword, storeWord] at h
  case baddu | pop | seq | sne | seqi | snei =>
    exact .of_write rfl rfl rfl (by simp [Reserved, tests64, testsMul]) h
  case nopLwr | nopLwl | nopSwr | nopSwl =>
    exact .of_nop rfl rfl rfl (by simp [Reserved, tests64, testsMul]) (nopForm_next.mp h)
  case nopLdr | nopLdl | nopSdr | nopSdl =>
    exact .of_nop rfl rfl rfl (by simp [Reserved, tests64, testsMul]) (doublewordNopForm_next.mp h).2
  case synciobdma | syncs | syncw | syncws => exact .barrier _ rfl (barrier_next.mp h).symm
  case bbit0 rs p o | bbit032 rs p o | bbit1 rs p o | bbit132 rs p o =>
    obtain ⟨hd, he⟩ := branchOn_next.mp h
    exact .branch o _ hd rfl (by split_ifs <;> simp) he.symm
  case cins | exts | dpop =>
    rcases need64_next.mp h with ⟨h1, h2⟩ | ⟨h1, h2⟩
    · exact .of_write rfl rfl rfl (by simp [Reserved, testsMul, h1]) h2
    · exact .reserved (.inl ⟨rfl, h1⟩) h2.symm
  case cins32 | exts32 =>
    rcases need64_next.mp h with ⟨h1, h2⟩ | ⟨h1, h2⟩
    · split_ifs at h2
      · exact .of_draw rfl rfl rfl (by simp [Reserved, testsMul, h1]) h2
      · exact .of_write rfl rfl rfl (by simp [Reserved, testsMul, h1]) h2
    · exact .reserved (.inl ⟨rfl, h1⟩) h2.symm
  case dmul =>
    rcases need64_next.mp h with ⟨h1, h2⟩ | ⟨h1, h2⟩
    · exact .of_mul_draw (m := s.dmulMul) (fun a b => ⟨a, b⟩) rfl rfl rfl (by simp [Reserved, testsMul, h1]) h2
    · exact .reserved (.inl ⟨rfl, h1⟩) h2.symm
  case mtm0 | mtm1 | mtm2 =>
    rcases needMul_next.mp h with ⟨h1, h2⟩ | ⟨h1, h2⟩
    · exact .of_setMul (fun a b => by simp [MulState.loaded] at b) rfl rfl rfl (by simp [Reserved, tests64, h1]) h2
    · exact .reserved (.inr ⟨rfl, by revert h1; cases s.ops64 <;> simp⟩) h2.symm
  case mtp0 | mtp1 | mtp2 =>
    rcases needMul_next.mp h with ⟨h1, h2⟩ | ⟨h1, h2⟩
    · exact .of_setMul (fun a b => by simp [MulState.presetSeq] at a b; simp_all) rfl rfl rfl
        (by simp [Reserved, tests64, h1]) h2
    · exact .reserved (.inr ⟨rfl, by revert h1; cases s.ops64 <;> simp⟩) h2.symm
  case v3mulu =>
    rcases needMul_next.mp h with ⟨h1, h2⟩ | ⟨h1, h2⟩
    · split_ifs at h2
      exact .of_mul (fun a b => by simp [State.v3muluMul] at b) rfl rfl rfl (by simp [Reserved, tests64, h1]) h2
    · exact .reserved (.inr ⟨rfl, by revert h1; cases s.ops64 <;> simp⟩) h2.symm
  case vmm0 | vmulu =>
    rcases needMul_next.mp h with ⟨h1, h2⟩ | ⟨h1, h2⟩
    · split_ifs at h2
      exact .of_mul_draw (fun a b => by simp [State.vmm0Mul, State.vmuluMul, MulState.loaded] at b) rfl rfl rfl
        (by simp [Reserved, tests64, h1]) h2
    · exact .reserved (.inr ⟨rfl, by revert h1; cases s.ops64 <;> simp⟩) h2.symm
  case uldLeft | uldRight =>
    rcases need64_next.mp h with ⟨h1, h2⟩ | ⟨h1, h2⟩
    · rcases loadUnaligned_next.mp h2 with ⟨-, h3⟩ | ⟨e, a, h3, h4⟩
      · exact .of_load rfl rfl rfl (by simp [Reserved, testsMul, h1]) h3
      · obtain ⟨q, -, h5, rfl⟩ := checkLoad_raised h3
        exact .loadRaise e q rfl h5 h4.symm
    · exact .reserved (.inl ⟨rfl, h1⟩) h2.symm
  case ulwLeft | ulwRight =>
    rcases loadUnaligned_next.mp h with ⟨-, h3⟩ | ⟨e, a, h3, h4⟩
    · exact .of_load rfl rfl rfl (by simp [Reserved, tests64, testsMul]) h3
    · obtain ⟨q, -, h5, rfl⟩ := checkLoad_raised h3
      exact .loadRaise e q rfl h5 h4.symm
  case usdLeft rt o b | usdRight rt o b =>
    rcases need64_next.mp h with ⟨h1, h2⟩ | ⟨h1, h2⟩
    · rcases storeUnaligned_next.mp h2 with ⟨hc, ⟨m, h3, h4⟩ | ⟨m, e, a, h3, h4⟩⟩
      · exact .store _ 8 m _ rfl hc ⟨rt, o, b, rfl, by simp⟩ h3 h4.symm
      · exact .storeRaise _ 8 m _ e a rfl hc ⟨rt, o, b, rfl, by simp⟩ h3 h4.symm
    · exact .reserved (.inl ⟨rfl, h1⟩) h2.symm
  case uswLeft rt o b | uswRight rt o b =>
    rcases storeUnaligned_next.mp h with ⟨hc, ⟨m, h3, h4⟩ | ⟨m, e, a, h3, h4⟩⟩
    · exact .store _ 4 m _ rfl hc ⟨rt, o, b, rfl, by simp⟩ h3 h4.symm
    · exact .storeRaise _ 4 m _ e a rfl hc ⟨rt, o, b, rfl, by simp⟩ h3 h4.symm

/-! ### The operands and results that statements name in other words -/

/-- The branch offset is four times the signed field (30_encoding.md R110(e)). -/
theorem branchOffset_eq (offset : Off16) : branchOffset offset = BitVec.ofInt 64 (4 * offset.toInt) := by
  unfold branchOffset BitVec.signExtend
  rw [BitVec.toInt_append_zero]
  congr 1

/-- A part of an exact sum as a number (49_vmul.md R265). -/
theorem limb_toNat (n k : Nat) : (limb n k).toNat = n / 2 ^ (64 * k) % 2 ^ 64 := by simp [limb]

/-- The population count as a count over bit positions (00_scope.md R10). -/
theorem popcount_eq_countP (x : Word) (n : Nat) :
    popcount x n = (List.range n).countP fun j => x.getLsbD j := by
  induction n with
  | zero => rfl
  | succ n ih =>
    rw [popcount, ih, List.range_succ, List.countP_append]
    simp

end Sys2Proof.Machine
end

