-- ==== Sys2Proof/Laws/PerInstr.lean ====
section
/-! SUPPORT. Statements made per instruction. `TableRow`: the word the encoder gives an instruction has the
constant bits of its row of spec/opcode_table.json (the row's mask and match, copied from the table). -/

namespace Sys2Proof.Laws

/-- The mask and the match of an instruction's row of spec/opcode_table.json. -/
def tableRow : Instr → InsnWord × InsnWord
  | .baddu _ _ _ => (0xFC0007FF#32, 0x70000028#32)
  | .bbit0 _ _ _ => (0xFC000000#32, 0xC8000000#32)
  | .bbit032 _ _ _ => (0xFC000000#32, 0xD8000000#32)
  | .bbit1 _ _ _ => (0xFC000000#32, 0xE8000000#32)
  | .bbit132 _ _ _ => (0xFC000000#32, 0xF8000000#32)
  | .cins _ _ _ _ => (0xFC00003F#32, 0x70000032#32)
  | .cins32 _ _ _ _ => (0xFC00003F#32, 0x70000033#32)
  | .dmul _ _ _ => (0xFC0007FF#32, 0x70000003#32)
  | .dpop _ _ => (0xFC1F07FF#32, 0x7000002D#32)
  | .exts _ _ _ _ => (0xFC00003F#32, 0x7000003A#32)
  | .exts32 _ _ _ _ => (0xFC00003F#32, 0x7000003B#32)
  | .mtm0 _ => (0xFC1FFFFF#32, 0x70000008#32)
  | .mtm1 _ => (0xFC1FFFFF#32, 0x7000000C#32)
  | .mtm2 _ => (0xFC1FFFFF#32, 0x7000000D#32)
  | .mtp0 _ => (0xFC1FFFFF#32, 0x70000009#32)
  | .mtp1 _ => (0xFC1FFFFF#32, 0x7000000A#32)
  | .mtp2 _ => (0xFC1FFFFF#32, 0x7000000B#32)
  | .pop _ _ => (0xFC1F07FF#32, 0x7000002C#32)
  | .seq _ _ _ => (0xFC0007FF#32, 0x7000002A#32)
  | .seqi _ _ _ => (0xFC00003F#32, 0x7000002E#32)
  | .sne _ _ _ => (0xFC0007FF#32, 0x7000002B#32)
  | .snei _ _ _ => (0xFC00003F#32, 0x7000002F#32)
  | .synciobdma => (0xFFFFFFFF#32, 0x0000008F#32)
  | .syncs => (0xFFFFFFFF#32, 0x0000018F#32)
  | .syncw => (0xFFFFFFFF#32, 0x0000010F#32)
  | .syncws => (0xFFFFFFFF#32, 0x0000014F#32)
  | .uldLeft _ _ _ => (0xFC000000#32, 0x68000000#32)
  | .uldRight _ _ _ => (0xFC000000#32, 0x6C000000#32)
  | .ulwLeft _ _ _ => (0xFC000000#32, 0x88000000#32)
  | .ulwRight _ _ _ => (0xFC000000#32, 0x98000000#32)
  | .usdLeft _ _ _ => (0xFC000000#32, 0xB0000000#32)
  | .usdRight _ _ _ => (0xFC000000#32, 0xB4000000#32)
  | .uswLeft _ _ _ => (0xFC000000#32, 0xA8000000#32)
  | .uswRight _ _ _ => (0xFC000000#32, 0xB8000000#32)
  | .nopLdr _ _ _ => (0xFC000000#32, 0x6C000000#32)
  | .nopLdl _ _ _ => (0xFC000000#32, 0x68000000#32)
  | .nopLwr _ _ _ => (0xFC000000#32, 0x98000000#32)
  | .nopLwl _ _ _ => (0xFC000000#32, 0x88000000#32)
  | .nopSdr _ _ _ => (0xFC000000#32, 0xB4000000#32)
  | .nopSdl _ _ _ => (0xFC000000#32, 0xB0000000#32)
  | .nopSwr _ _ _ => (0xFC000000#32, 0xB8000000#32)
  | .nopSwl _ _ _ => (0xFC000000#32, 0xA8000000#32)
  | .v3mulu _ _ _ => (0xFC0007FF#32, 0x70000011#32)
  | .vmm0 _ _ _ => (0xFC0007FF#32, 0x70000010#32)
  | .vmulu _ _ _ => (0xFC0007FF#32, 0x7000000F#32)

/-- The instruction's word agrees with its table row. -/
def TableRow.Statement (i : Instr) : Prop := encode i &&& (tableRow i).1 = (tableRow i).2

/-- The constant bits of format F1. -/
theorem encodeF1_mask (fn : BitVec 6) (rd rs rt : Reg) :
    encodeF1 fn rd rs rt &&& 0xFC0007FF#32 = 0x70000000#32 ||| fn.setWidth 32 := by
  apply BitVec.eq_of_getLsbD_eq
  intro i hi
  rw [BitVec.getLsbD_and]
  simp only [encodeF1]
  repeat rw [getLsbD_field]
  interval_cases i <;> simp

/-- The constant bits of format F2. -/
theorem encodeF2_mask (fn : BitVec 6) (rd rs : Reg) :
    encodeF2 fn rd rs &&& 0xFC1F07FF#32 = 0x70000000#32 ||| fn.setWidth 32 := by
  apply BitVec.eq_of_getLsbD_eq
  intro i hi
  rw [BitVec.getLsbD_and]
  simp only [encodeF2]
  repeat rw [getLsbD_field]
  interval_cases i <;> simp

/-- The constant bits of format F3. -/
theorem encodeF3_mask (fn : BitVec 6) (rt rs : Reg) (p lenm1 : Pos) :
    encodeF3 fn rt rs p lenm1 &&& 0xFC00003F#32 = 0x70000000#32 ||| fn.setWidth 32 := by
  apply BitVec.eq_of_getLsbD_eq
  intro i hi
  rw [BitVec.getLsbD_and]
  simp only [encodeF3]
  repeat rw [getLsbD_field]
  interval_cases i <;> simp

/-- The constant bits of format F4. -/
theorem encodeF4_mask (fn : BitVec 6) (rt rs : Reg) (imm : Imm10) :
    encodeF4 fn rt rs imm &&& 0xFC00003F#32 = 0x70000000#32 ||| fn.setWidth 32 := by
  apply BitVec.eq_of_getLsbD_eq
  intro i hi
  rw [BitVec.getLsbD_and]
  simp only [encodeF4]
  repeat rw [getLsbD_field]
  interval_cases i <;> simp

/-- The constant bits of format F5. -/
theorem encodeF5_mask (fn : BitVec 6) (rs : Reg) :
    encodeF5 fn rs &&& 0xFC1FFFFF#32 = 0x70000000#32 ||| fn.setWidth 32 := by
  apply BitVec.eq_of_getLsbD_eq
  intro i hi
  rw [BitVec.getLsbD_and]
  simp only [encodeF5]
  repeat rw [getLsbD_field]
  interval_cases i <;> simp

/-- The constant bits of format F6. -/
theorem encodeF6_mask (stype : BitVec 5) :
    encodeF6 stype &&& 0xFFFFFFFF#32 = 0x0000000F#32 ||| stype.setWidth 32 <<< 6 := by
  apply BitVec.eq_of_getLsbD_eq
  intro i hi
  rw [BitVec.getLsbD_and]
  simp only [encodeF6]
  repeat rw [getLsbD_field]
  interval_cases i <;> simp

/-- The constant bits of format F7. -/
theorem encodeF7_mask (op : BitVec 6) (rs : Reg) (p : Pos) (offset : Off16) :
    encodeF7 op rs p offset &&& 0xFC000000#32 = op.setWidth 32 <<< 26 := by
  apply BitVec.eq_of_getLsbD_eq
  intro i hi
  rw [BitVec.getLsbD_and]
  simp only [encodeF7]
  repeat rw [getLsbD_field]
  interval_cases i <;> simp

/-- The constant bits of format F8. -/
theorem encodeF8_mask (op : BitVec 6) (rt : Reg) (offset : Off16) (base : Reg) :
    encodeF8 op rt offset base &&& 0xFC000000#32 = op.setWidth 32 <<< 26 := by
  apply BitVec.eq_of_getLsbD_eq
  intro i hi
  rw [BitVec.getLsbD_and]
  simp only [encodeF8]
  repeat rw [getLsbD_field]
  interval_cases i <;> simp

theorem TableRow.baddu (rd rs rt : Reg) : TableRow.Statement (.baddu rd rs rt) := encodeF1_mask _ _ _ _
theorem TableRow.bbit0 (rs : Reg) (p : Pos) (offset : Off16) : TableRow.Statement (.bbit0 rs p offset) := encodeF7_mask _ _ _ _
theorem TableRow.bbit032 (rs : Reg) (p : Pos) (offset : Off16) : TableRow.Statement (.bbit032 rs p offset) := encodeF7_mask _ _ _ _
theorem TableRow.bbit1 (rs : Reg) (p : Pos) (offset : Off16) : TableRow.Statement (.bbit1 rs p offset) := encodeF7_mask _ _ _ _
theorem TableRow.bbit132 (rs : Reg) (p : Pos) (offset : Off16) : TableRow.Statement (.bbit132 rs p offset) := encodeF7_mask _ _ _ _
theorem TableRow.cins (rt rs : Reg) (p lenm1 : Pos) : TableRow.Statement (.cins rt rs p lenm1) := encodeF3_mask _ _ _ _ _
theorem TableRow.cins32 (rt rs : Reg) (p lenm1 : Pos) : TableRow.Statement (.cins32 rt rs p lenm1) := encodeF3_mask _ _ _ _ _
theorem TableRow.dmul (rd rs rt : Reg) : TableRow.Statement (.dmul rd rs rt) := encodeF1_mask _ _ _ _
theorem TableRow.dpop (rd rs : Reg) : TableRow.Statement (.dpop rd rs) := encodeF2_mask _ _ _
theorem TableRow.exts (rt rs : Reg) (p lenm1 : Pos) : TableRow.Statement (.exts rt rs p lenm1) := encodeF3_mask _ _ _ _ _
theorem TableRow.exts32 (rt rs : Reg) (p lenm1 : Pos) : TableRow.Statement (.exts32 rt rs p lenm1) := encodeF3_mask _ _ _ _ _
theorem TableRow.mtm0 (rs : Reg) : TableRow.Statement (.mtm0 rs) := encodeF5_mask _ _
theorem TableRow.mtm1 (rs : Reg) : TableRow.Statement (.mtm1 rs) := encodeF5_mask _ _
theorem TableRow.mtm2 (rs : Reg) : TableRow.Statement (.mtm2 rs) := encodeF5_mask _ _
theorem TableRow.mtp0 (rs : Reg) : TableRow.Statement (.mtp0 rs) := encodeF5_mask _ _
theorem TableRow.mtp1 (rs : Reg) : TableRow.Statement (.mtp1 rs) := encodeF5_mask _ _
theorem TableRow.mtp2 (rs : Reg) : TableRow.Statement (.mtp2 rs) := encodeF5_mask _ _
theorem TableRow.pop (rd rs : Reg) : TableRow.Statement (.pop rd rs) := encodeF2_mask _ _ _
theorem TableRow.seq (rd rs rt : Reg) : TableRow.Statement (.seq rd rs rt) := encodeF1_mask _ _ _ _
theorem TableRow.seqi (rt rs : Reg) (imm : Imm10) : TableRow.Statement (.seqi rt rs imm) := encodeF4_mask _ _ _ _
theorem TableRow.sne (rd rs rt : Reg) : TableRow.Statement (.sne rd rs rt) := encodeF1_mask _ _ _ _
theorem TableRow.snei (rt rs : Reg) (imm : Imm10) : TableRow.Statement (.snei rt rs imm) := encodeF4_mask _ _ _ _
theorem TableRow.synciobdma : TableRow.Statement (.synciobdma) := encodeF6_mask _
theorem TableRow.syncs : TableRow.Statement (.syncs) := encodeF6_mask _
theorem TableRow.syncw : TableRow.Statement (.syncw) := encodeF6_mask _
theorem TableRow.syncws : TableRow.Statement (.syncws) := encodeF6_mask _
theorem TableRow.uldLeft (rt : Reg) (offset : Off16) (base : Reg) : TableRow.Statement (.uldLeft rt offset base) := encodeF8_mask _ _ _ _
theorem TableRow.uldRight (rt : Reg) (offset : Off16) (base : Reg) : TableRow.Statement (.uldRight rt offset base) := encodeF8_mask _ _ _ _
theorem TableRow.ulwLeft (rt : Reg) (offset : Off16) (base : Reg) : TableRow.Statement (.ulwLeft rt offset base) := encodeF8_mask _ _ _ _
theorem TableRow.ulwRight (rt : Reg) (offset : Off16) (base : Reg) : TableRow.Statement (.ulwRight rt offset base) := encodeF8_mask _ _ _ _
theorem TableRow.usdLeft (rt : Reg) (offset : Off16) (base : Reg) : TableRow.Statement (.usdLeft rt offset base) := encodeF8_mask _ _ _ _
theorem TableRow.usdRight (rt : Reg) (offset : Off16) (base : Reg) : TableRow.Statement (.usdRight rt offset base) := encodeF8_mask _ _ _ _
theorem TableRow.uswLeft (rt : Reg) (offset : Off16) (base : Reg) : TableRow.Statement (.uswLeft rt offset base) := encodeF8_mask _ _ _ _
theorem TableRow.uswRight (rt : Reg) (offset : Off16) (base : Reg) : TableRow.Statement (.uswRight rt offset base) := encodeF8_mask _ _ _ _
theorem TableRow.nopLdr (rt : Reg) (offset : Off16) (base : Reg) : TableRow.Statement (.nopLdr rt offset base) := encodeF8_mask _ _ _ _
theorem TableRow.nopLdl (rt : Reg) (offset : Off16) (base : Reg) : TableRow.Statement (.nopLdl rt offset base) := encodeF8_mask _ _ _ _
theorem TableRow.nopLwr (rt : Reg) (offset : Off16) (base : Reg) : TableRow.Statement (.nopLwr rt offset base) := encodeF8_mask _ _ _ _
theorem TableRow.nopLwl (rt : Reg) (offset : Off16) (base : Reg) : TableRow.Statement (.nopLwl rt offset base) := encodeF8_mask _ _ _ _
theorem TableRow.nopSdr (rt : Reg) (offset : Off16) (base : Reg) : TableRow.Statement (.nopSdr rt offset base) := encodeF8_mask _ _ _ _
theorem TableRow.nopSdl (rt : Reg) (offset : Off16) (base : Reg) : TableRow.Statement (.nopSdl rt offset base) := encodeF8_mask _ _ _ _
theorem TableRow.nopSwr (rt : Reg) (offset : Off16) (base : Reg) : TableRow.Statement (.nopSwr rt offset base) := encodeF8_mask _ _ _ _
theorem TableRow.nopSwl (rt : Reg) (offset : Off16) (base : Reg) : TableRow.Statement (.nopSwl rt offset base) := encodeF8_mask _ _ _ _
theorem TableRow.v3mulu (rd rs rt : Reg) : TableRow.Statement (.v3mulu rd rs rt) := encodeF1_mask _ _ _ _
theorem TableRow.vmm0 (rd rs rt : Reg) : TableRow.Statement (.vmm0 rd rs rt) := encodeF1_mask _ _ _ _
theorem TableRow.vmulu (rd rs rt : Reg) : TableRow.Statement (.vmulu rd rs rt) := encodeF1_mask _ _ _ _

end Sys2Proof.Laws
end

