-- ==== Sys2Proof/Tests/Slice0.lean ====
section
/-! SUPPORT. The author's own tests. Words and results are those of spec/95_test_vectors.md (Parts 1 to 3) or of
the Example lines of 40_baddu.md to 49_vmul.md, worked out there by hand. The witnesses at the end show,
for each statement with hypotheses, a state and operands that meet them together. -/

namespace Sys2Proof.Tests

open Sys2Proof Sys2Proof.Machine

/-! ## Helpers -/

/-- The configuration most vectors use: USEUN = 1, USELY = 0, LE = 0, NOMUL = 0. -/
def big : CvmCtl := Config.resetCvmCtl
def little : CvmCtl := { big with le := true }
def leftAlways : CvmCtl := { big with le := true, usely := true }
def noUnaligned : CvmCtl := { big with useun := false }

/-- A state with the registers given, pc = 0x1000, everything else as at reset. -/
def regs (l : List (Reg × Word)) : State :=
  l.foldl (fun s p => s.writeReg p.1 p.2) { State.reset with pc := 0x1000#64 }

/-- A field of the next state. -/
def after {α : Type} (f : State → α) : Host.Outcome State Fault Refusal → Option α
  | .next t => some (f t)
  | _ => none

def faultOf : Host.Outcome State Fault Refusal → Option Fault
  | .fault r => some r
  | _ => none

def refusalOf : Host.Outcome State Fault Refusal → Option Refusal
  | .refused r => some r
  | _ => none

/-- One step of a word placed at pc. -/
def run (s : State) (w : Nat) : Host.Outcome State Fault Refusal := step (s.withFetchWord 32 w)

/-- Register `r` after one step of a word. -/
def regAfter (s : State) (w : Nat) (r : Reg) : Option Word := after (fun t => t.readReg r) (run s w)

/-- pc and the pending target after one step of a word. -/
def flow (s : State) (w : Nat) : Option (Word × Option Word) := after (fun t => (t.pc, t.delay)) (run s w)

/-- Bytes of memory after one step of a word. -/
def bytesAfter (s : State) (w : Nat) (a : Word) (n : Nat) : Option (List Byte) :=
  after (fun t => t.mem.readBytes a n) (run s w)

/-- The instruction a word decodes to. -/
def decoded (c : CvmCtl) (w : InsnWord) : Option Instr := (decodeWord c w).toOption

def rejected (c : CvmCtl) (w : InsnWord) : Option Reject :=
  match decodeWord c w with
  | .error r => some r
  | .ok _ => none

/-! ## WellFormed: an ill-formed term for each check -/

theorem test_wf_uldLeft : (Instr.uldLeft 6#5 0#16 4#5).wf little = false ∧ (Instr.uldLeft 6#5 0#16 4#5).wf noUnaligned = false := by decide
theorem test_wf_ulwLeft : (Instr.ulwLeft 6#5 0#16 4#5).wf little = false ∧ (Instr.ulwLeft 6#5 0#16 4#5).wf noUnaligned = false := by decide
theorem test_wf_usdLeft : (Instr.usdLeft 6#5 0#16 4#5).wf little = false ∧ (Instr.usdLeft 6#5 0#16 4#5).wf noUnaligned = false := by decide
theorem test_wf_uswLeft : (Instr.uswLeft 6#5 0#16 4#5).wf little = false ∧ (Instr.uswLeft 6#5 0#16 4#5).wf noUnaligned = false := by decide
theorem test_wf_nopLdr : (Instr.nopLdr 6#5 0#16 4#5).wf little = false ∧ (Instr.nopLdr 6#5 0#16 4#5).wf noUnaligned = false := by decide
theorem test_wf_nopLwr : (Instr.nopLwr 6#5 0#16 4#5).wf little = false ∧ (Instr.nopLwr 6#5 0#16 4#5).wf noUnaligned = false := by decide
theorem test_wf_nopSdr : (Instr.nopSdr 6#5 0#16 4#5).wf little = false ∧ (Instr.nopSdr 6#5 0#16 4#5).wf noUnaligned = false := by decide
theorem test_wf_nopSwr : (Instr.nopSwr 6#5 0#16 4#5).wf little = false ∧ (Instr.nopSwr 6#5 0#16 4#5).wf noUnaligned = false := by decide
theorem test_wf_uldRight : (Instr.uldRight 6#5 0#16 4#5).wf big = false ∧ (Instr.uldRight 6#5 0#16 4#5).wf noUnaligned = false := by decide
theorem test_wf_ulwRight : (Instr.ulwRight 6#5 0#16 4#5).wf big = false ∧ (Instr.ulwRight 6#5 0#16 4#5).wf noUnaligned = false := by decide
theorem test_wf_usdRight : (Instr.usdRight 6#5 0#16 4#5).wf big = false ∧ (Instr.usdRight 6#5 0#16 4#5).wf noUnaligned = false := by decide
theorem test_wf_uswRight : (Instr.uswRight 6#5 0#16 4#5).wf big = false ∧ (Instr.uswRight 6#5 0#16 4#5).wf noUnaligned = false := by decide
theorem test_wf_nopLdl : (Instr.nopLdl 6#5 0#16 4#5).wf big = false ∧ (Instr.nopLdl 6#5 0#16 4#5).wf noUnaligned = false := by decide
theorem test_wf_nopLwl : (Instr.nopLwl 6#5 0#16 4#5).wf big = false ∧ (Instr.nopLwl 6#5 0#16 4#5).wf noUnaligned = false := by decide
theorem test_wf_nopSdl : (Instr.nopSdl 6#5 0#16 4#5).wf big = false ∧ (Instr.nopSdl 6#5 0#16 4#5).wf noUnaligned = false := by decide
theorem test_wf_nopSwl : (Instr.nopSwl 6#5 0#16 4#5).wf big = false ∧ (Instr.nopSwl 6#5 0#16 4#5).wf noUnaligned = false := by decide

/-! ## Decode: one word of every row (95_test_vectors.md Parts 1 and 2) -/

theorem test_decode_baddu : decoded big 0x70221828#32 = some (.baddu 3#5 1#5 2#5) := by decide
theorem test_decode_bbit0 : decoded big 0xC843FFFE#32 = some (.bbit0 2#5 3#5 0xFFFE#16) := by decide
theorem test_decode_bbit032 : decoded big 0xD8430004#32 = some (.bbit032 2#5 3#5 4#16) := by decide
theorem test_decode_bbit1 : decoded big 0xE8BF7FFF#32 = some (.bbit1 5#5 31#5 0x7FFF#16) := by decide
theorem test_decode_bbit132 : decoded big 0xF8BF8000#32 = some (.bbit132 5#5 31#5 0x8000#16) := by decide
theorem test_decode_cins : decoded big 0x70223B32#32 = some (.cins 2#5 1#5 12#5 7#5) := by decide
theorem test_decode_cins32 : decoded big 0x70227C73#32 = some (.cins32 2#5 1#5 17#5 15#5) := by decide
theorem test_decode_exts : decoded big 0x7022193A#32 = some (.exts 2#5 1#5 4#5 3#5) := by decide
theorem test_decode_exts32 : decoded big 0x70220FFB#32 = some (.exts32 2#5 1#5 31#5 1#5) := by decide
theorem test_decode_dmul : decoded big 0x70221803#32 = some (.dmul 3#5 1#5 2#5) := by decide
theorem test_decode_dpop : decoded big 0x7020182D#32 = some (.dpop 3#5 1#5) := by decide
theorem test_decode_pop : decoded big 0x7020182C#32 = some (.pop 3#5 1#5) := by decide
theorem test_decode_mtm0 : decoded big 0x70800008#32 = some (.mtm0 4#5) := by decide
theorem test_decode_mtm1 : decoded big 0x70A0000C#32 = some (.mtm1 5#5) := by decide
theorem test_decode_mtm2 : decoded big 0x7000000D#32 = some (.mtm2 0#5) := by decide
theorem test_decode_mtp0 : decoded big 0x70A00009#32 = some (.mtp0 5#5) := by decide
theorem test_decode_mtp1 : decoded big 0x7080000A#32 = some (.mtp1 4#5) := by decide
theorem test_decode_mtp2 : decoded big 0x7080000B#32 = some (.mtp2 4#5) := by decide
theorem test_decode_seq : decoded big 0x7022182A#32 = some (.seq 3#5 1#5 2#5) := by decide
theorem test_decode_sne : decoded big 0x7022182B#32 = some (.sne 3#5 1#5 2#5) := by decide
theorem test_decode_seqi : decoded big 0x70227FEE#32 = some (.seqi 2#5 1#5 511#10) := by decide
theorem test_decode_snei : decoded big 0x7022802F#32 = some (.snei 2#5 1#5 0x200#10) := by decide
theorem test_decode_synciobdma : decoded big 0x0000008F#32 = some (.synciobdma) := by decide
theorem test_decode_syncs : decoded big 0x0000018F#32 = some (.syncs) := by decide
theorem test_decode_syncw : decoded big 0x0000010F#32 = some (.syncw) := by decide
theorem test_decode_syncws : decoded big 0x0000014F#32 = some (.syncws) := by decide
theorem test_decode_v3mulu : decoded big 0x70221811#32 = some (.v3mulu 3#5 1#5 2#5) := by decide
theorem test_decode_vmm0 : decoded big 0x70221810#32 = some (.vmm0 3#5 1#5 2#5) := by decide
theorem test_decode_vmulu : decoded big 0x7022180F#32 = some (.vmulu 3#5 1#5 2#5) := by decide
theorem test_decode_uldLeft : decoded big 0x6886FFFD#32 = some (.uldLeft 6#5 0xFFFD#16 4#5) := by decide
theorem test_decode_uldRight : decoded little 0x6C86FFFD#32 = some (.uldRight 6#5 0xFFFD#16 4#5) := by decide
theorem test_decode_ulwLeft : decoded big 0x8886FFFF#32 = some (.ulwLeft 6#5 0xFFFF#16 4#5) := by decide
theorem test_decode_ulwRight : decoded little 0x98860000#32 = some (.ulwRight 6#5 0#16 4#5) := by decide
theorem test_decode_usdLeft : decoded big 0xB0850003#32 = some (.usdLeft 5#5 3#16 4#5) := by decide
theorem test_decode_usdRight : decoded little 0xB4850003#32 = some (.usdRight 5#5 3#16 4#5) := by decide
theorem test_decode_uswLeft : decoded big 0xA8850006#32 = some (.uswLeft 5#5 6#16 4#5) := by decide
theorem test_decode_uswRight : decoded little 0xB8850006#32 = some (.uswRight 5#5 6#16 4#5) := by decide
theorem test_decode_nopLdr : decoded big 0x6C860000#32 = some (.nopLdr 6#5 0#16 4#5) := by decide
theorem test_decode_nopLdl : decoded little 0x68860000#32 = some (.nopLdl 6#5 0#16 4#5) := by decide
theorem test_decode_nopLwr : decoded leftAlways 0x98860000#32 = some (.nopLwr 6#5 0#16 4#5) := by decide
theorem test_decode_nopLwl : decoded little 0x88860000#32 = some (.nopLwl 6#5 0#16 4#5) := by decide
theorem test_decode_nopSdr : decoded big 0xB4850000#32 = some (.nopSdr 5#5 0#16 4#5) := by decide
theorem test_decode_nopSdl : decoded little 0xB0850000#32 = some (.nopSdl 5#5 0#16 4#5) := by decide
theorem test_decode_nopSwr : decoded big 0xB8850000#32 = some (.nopSwr 5#5 0#16 4#5) := by decide
theorem test_decode_nopSwl : decoded little 0xA8850000#32 = some (.nopSwl 5#5 0#16 4#5) := by decide

theorem test_reject_zero_word : rejected big 0x00000000#32 = some (.unknownSpecial 0#6) := by decide
theorem test_reject_zero_field : rejected big 0x70221868#32 = some (.reservedField 0x28#6) := by decide
theorem test_reject_sync : rejected big 0x0000000F#32 = some (.baseInstruction .sync) := by decide
theorem test_reject_sync_bits : rejected big 0x0000088F#32 = some (.reservedField 0x0F#6) := by decide
theorem test_reject_lwl : rejected noUnaligned 0x88860000#32 = some (.baseInstruction .lwl) := by decide
/-- The base instructions the spec names are refused by name, with the family's encodings (log 37). -/
theorem test_reject_named_base :
    [0xDC820000#32, 0x8C820000#32, 0xFC820000#32, 0xAC820000#32, 0x08000100#32, 0x03E00008#32, 0x42000018#32,
        0x4200001F#32, 0x42000020#32].map (rejected big) =
      [BaseInstr.ld, .lw, .sd, .sw, .j, .jr, .eret, .deret, .wait].map fun b => some (.baseInstruction b) := by decide
theorem test_reject_other_major :
    rejected big 0x40000018#32 = some (.unknownMajor 0x10#6) ∧ rejected big 0x24820000#32 = some (.unknownMajor 0x09#6) := by
  decide
theorem test_reject_truncated : (decodeBytes big [0x70#8, 0x22#8, 0x18#8]).toOption = none := by decide
theorem test_table_word : decodeTableWord 32 0x70221828 = some (.baddu 3#5 1#5 2#5) := by decide

/-! ## One step -/

theorem test_baddu_carry_lost : regAfter (regs [(1#5, 0xFF#64), (2#5, 0x01#64)]) 0x70221828 3#5 = some 0#64 := by decide
theorem test_baddu_zero_extends : regAfter (regs [(1#5, 0x7F#64), (2#5, 0x7F#64)]) 0x70221828 3#5 = some 0xFE#64 := by decide

theorem test_bbit0_taken : flow { regs [(2#5, 7#64)] with pc := 0x1010#64 } 0xC843FFFE = some (0x1014#64, some 0x100C#64) := by
  decide
theorem test_bbit0_not_taken :
    flow { regs [(2#5, 8#64)] with pc := 0x1010#64 } 0xC843FFFE = some (0x1014#64, some 0x1018#64) := by decide
theorem test_bbit032_other_bit :
    flow { regs [(2#5, 8#64)] with pc := 0x2000#64 } 0xD8430004 = some (0x2004#64, some 0x2014#64) := by decide
theorem test_bbit032_not_taken :
    flow { regs [(2#5, 0x800000000#64)] with pc := 0x2000#64 } 0xD8430004 = some (0x2004#64, some 0x2008#64) := by decide
theorem test_bbit1_furthest :
    flow { regs [(5#5, 0x80000000#64)] with pc := 0x3000#64 } 0xE8BF7FFF = some (0x3004#64, some 0x23000#64) := by decide
theorem test_bbit132_furthest_back :
    flow { regs [(5#5, 0x8000000000000000#64)] with pc := 0x40000#64 } 0xF8BF8000 =
      some (0x40004#64, some 0x20004#64) := by decide
theorem test_bbit1_in_slot :
    faultOf (run { regs [] with pc := 0x704#64, delay := some 0x708#64 } 0xE8000001) =
      some (.unpredictableOperation .branchInDelaySlot) := by decide
theorem test_slot_goes_to_target :
    flow { regs [] with delay := some 0x418#64 } 0x70657C2F = some (0x418#64, none) := by decide

theorem test_cins_widest : regAfter (regs [(1#5, 0xFFFFFFFFFFFFFFFF#64)]) 0x7022FFF2 2#5 = some 0x7FFFFFFF80000000#64 := by decide
theorem test_cins32_last_defined : regAfter (regs [(1#5, 0x123456789ABCDEF0#64)]) 0x70227C33 2#5 = some 0xDEF0000000000000#64 := by decide
theorem test_cins32_overrun :
    after (fun t => (t.readReg 1#5, t.freeCount)) (run (regs [(1#5, 5#64)]) 0x7022F873) = some (5#64, 1) := by decide
theorem test_exts : regAfter (regs [(1#5, 0x123456789ABCDEF0#64)]) 0x70227A3A 2#5 = some 0xFFFFFFFFFFFFBCDE#64 := by decide
theorem test_exts_widest : regAfter (regs [(1#5, 0x123456789ABCDEF0#64)]) 0x7022FFFA 2#5 = some 0x000000002468ACF1#64 := by decide
theorem test_exts32 : regAfter (regs [(1#5, 0x923456789ABCDEF0#64)]) 0x7022F83B 2#5 = some 0xFFFFFFFF92345678#64 := by decide
theorem test_exts32_last_defined : regAfter (regs [(1#5, 0x123456789ABCDEF0#64)]) 0x70227C3B 2#5 = some 0x0000000000001234#64 := by decide
theorem test_dmul : regAfter (regs [(1#5, 3#64), (2#5, 0xFFFFFFFFFFFFFFFB#64)]) 0x70221803 3#5 = some 0xFFFFFFFFFFFFFFF1#64 := by decide
theorem test_dmul_min : regAfter (regs [(1#5, 0x8000000000000000#64), (2#5, 0xFFFFFFFFFFFFFFFF#64)]) 0x70221803 3#5 = some 0x8000000000000000#64 := by decide
theorem test_pop : regAfter (regs [(1#5, 0xFFFFFFFF0000F00F#64)]) 0x7020182C 3#5 = some 8#64 := by decide
theorem test_dpop : regAfter (regs [(1#5, 0xFFFFFFFF0000F00F#64)]) 0x7020182D 3#5 = some 40#64 := by decide
theorem test_seq_all_bits : regAfter (regs [(1#5, 0x1FFFFFFFF#64), (2#5, 0xFFFFFFFF#64)]) 0x7022182A 3#5 = some 0#64 := by decide
theorem test_seq_zero_zero : regAfter (regs []) 0x7000082A 1#5 = some 1#64 := by decide
theorem test_sne_all_bits : regAfter (regs [(1#5, 0x1FFFFFFFF#64), (2#5, 0xFFFFFFFF#64)]) 0x7022182B 3#5 = some 1#64 := by decide
theorem test_seqi_sign_extends : regAfter (regs [(1#5, 0x3FF#64)]) 0x7022FFEE 2#5 = some 0#64 := by decide
theorem test_seqi_min : regAfter (regs [(1#5, 0xFFFFFFFFFFFFFE00#64)]) 0x7022802E 2#5 = some 1#64 := by decide
theorem test_snei_min : regAfter (regs [(1#5, 0xFFFFFFFFFFFFFE00#64)]) 0x7022802F 2#5 = some 0#64 := by decide

/-- The multiply state after one step of a word. -/
def mulAfter (s : State) (w : Nat) : Option MulState := after State.mul (run s w)

/-- A state with registers and a multiply state. -/
def withMul (l : List (Reg × Word)) (m : MulState) : State := { regs l with mul := m }

def loadedMul (mpl0 mpl1 mpl2 p0 p1 p2 : Word) : MulState :=
  { MulState.reset with mpl0 := mpl0, mpl1 := mpl1, mpl2 := mpl2, p0 := p0, p1 := p1, p2 := p2, mseq := .loaded }

theorem test_mtm0 :
    mulAfter (withMul [(4#5, 5#64)] (loadedMul 9#64 8#64 7#64 6#64 5#64 4#64)) 0x70800008 =
      some (loadedMul 5#64 8#64 7#64 0#64 0#64 0#64) := by decide
theorem test_mtm1 :
    mulAfter (withMul [(5#5, 7#64)] (loadedMul 9#64 8#64 7#64 6#64 5#64 4#64)) 0x70A0000C =
      some (loadedMul 9#64 7#64 7#64 0#64 0#64 0#64) := by decide
theorem test_mtm2 :
    mulAfter (withMul [] (loadedMul 9#64 8#64 7#64 6#64 5#64 4#64)) 0x7000000D =
      some (loadedMul 9#64 8#64 0#64 0#64 0#64 0#64) := by decide
theorem test_mtp0_fresh :
    mulAfter (regs [(5#5, 7#64)]) 0x70A00009 = some { MulState.reset with p0 := 7#64, mtpDirty := true } := by decide
theorem test_mtp0_loaded :
    mulAfter (withMul [(5#5, 7#64)] (loadedMul 9#64 8#64 7#64 0#64 0#64 0#64)) 0x70A00009 =
      some (loadedMul 9#64 8#64 7#64 7#64 0#64 0#64) := by decide
theorem test_mtp1 :
    mulAfter (withMul [(4#5, 5#64)] (loadedMul 9#64 8#64 7#64 7#64 0#64 0#64)) 0x7080000A =
      some (loadedMul 9#64 8#64 7#64 7#64 5#64 0#64) := by decide
theorem test_mtp2 :
    mulAfter (withMul [(4#5, 5#64)] (loadedMul 9#64 8#64 7#64 7#64 5#64 0#64)) 0x7080000B =
      some (loadedMul 9#64 8#64 7#64 7#64 5#64 5#64) := by decide

/-- x[3], MPL0, P0 and the sequencing state after a multiply. -/
def vm (t : State) : Word × Word × Word × MSeq := (t.readReg 3#5, t.mul.mpl0, t.mul.p0, t.mul.mseq)

theorem test_vmulu :
    after vm (run (withMul [(1#5, 0xFFFFFFFFFFFFFFFF#64), (2#5, 1#64)] (loadedMul 2#64 0#64 0#64 0#64 7#64 7#64)) 0x7022180F) =
      some (0xFFFFFFFFFFFFFFFF#64, 2#64, 1#64, .afterVmulu) := by decide
theorem test_vmulu_after_v3mulu :
    faultOf (run (withMul [] { loadedMul 5#64 5#64 5#64 0#64 0#64 0#64 with mseq := .afterV3mulu }) 0x7022180F) =
      some (.unpredictableOperation .multiplierSequence) := by decide
theorem test_vmm0 :
    after vm (run (withMul [(1#5, 3#64), (2#5, 2#64)] (loadedMul 5#64 0#64 0#64 7#64 7#64 7#64)) 0x70221810) =
      some (0x18#64, 0x18#64, 0#64, .loaded) := by decide
theorem test_vmm0_dirty :
    faultOf (run (withMul [] { MulState.reset with mtpDirty := true }) 0x70221810) =
      some (.unpredictableOperation .multiplierSequence) := by decide
theorem test_v3mulu :
    after (fun t => (t.readReg 3#5, t.mul.p0, t.mul.p1, t.mul.p2))
        (run (withMul [(1#5, 2#64), (2#5, 1#64)]
          (loadedMul 0x8000000000000000#64 0x8000000000000001#64 0x4000000000000000#64 5#64 6#64 7#64)) 0x70221811) =
      some (6#64, 9#64, 0x8000000000000008#64, 0#64) := by decide
theorem test_v3mulu_drains :
    after (fun t => (t.readReg 3#5, t.mul.p0, t.mul.p1, t.mul.p2))
        (run (withMul [] (loadedMul 1#64 2#64 3#64 0x11#64 0x22#64 0x33#64)) 0x70001811) =
      some (0x11#64, 0x22#64, 0x33#64, 0#64) := by decide

theorem test_synciobdma : after State.history (run (regs []) 0x0000008F) = some [.synciobdma] := by decide
theorem test_syncs : after State.history (run (regs []) 0x0000018F) = some [.syncs] := by decide
theorem test_syncw : after State.history (run (regs []) 0x0000010F) = some [.syncw] := by decide
theorem test_syncws : after State.history (run (regs []) 0x0000014F) = some [.syncws] := by decide

/-- Memory bytes 0x2000 up hold 80, 81, …, 8F; x[4] is given. -/
def data (c : CvmCtl) (x4 : Word) : State :=
  { (regs [(4#5, x4), (5#5, 0x1122334455667788#64)]) with
    cvmCtl := c
    mem := Memory.writeBytes [] 0x2000#64
      [0x80#8, 0x81#8, 0x82#8, 0x83#8, 0x84#8, 0x85#8, 0x86#8, 0x87#8, 0x88#8, 0x89#8, 0x8A#8, 0x8B#8, 0x8C#8,
        0x8D#8, 0x8E#8, 0x8F#8] }

/-- The same with no byte of data. -/
def zeros (c : CvmCtl) : State := { data c 0x2000#64 with mem := [] }

theorem test_uldRight : regAfter (data little 0x2000#64) 0x6C860003 6#5 = some 0x8A89888786858483#64 := by decide
theorem test_ulwLeft : regAfter (data big 0x2000#64) 0x88860006 6#5 = some 0xFFFFFFFF86878889#64 := by decide
theorem test_ulwRight : regAfter (data little 0x2000#64) 0x98860006 6#5 = some 0xFFFFFFFF89888786#64 := by decide
theorem test_usdLeft :
    bytesAfter (zeros big) 0xB0850003 0x2002#64 10 =
      some [0x00#8, 0x11#8, 0x22#8, 0x33#8, 0x44#8, 0x55#8, 0x66#8, 0x77#8, 0x88#8, 0x00#8] := by decide
theorem test_usdRight :
    bytesAfter (zeros little) 0xB4850003 0x2002#64 10 =
      some [0x00#8, 0x88#8, 0x77#8, 0x66#8, 0x55#8, 0x44#8, 0x33#8, 0x22#8, 0x11#8, 0x00#8] := by decide
theorem test_uswLeft :
    bytesAfter (zeros big) 0xA8850006 0x2005#64 6 = some [0x00#8, 0x55#8, 0x66#8, 0x77#8, 0x88#8, 0x00#8] := by decide
theorem test_uswRight :
    bytesAfter (zeros little) 0xB8850006 0x2005#64 6 = some [0x00#8, 0x88#8, 0x77#8, 0x66#8, 0x55#8, 0x00#8] := by decide

/-- The bytes of an access that wraps past the top of the address space (95_test_vectors.md 2.9, other cases). -/
theorem test_uld_wraps :
    regAfter { regs [(4#5, 2#64)] with
        mem := Memory.writeBytes [] 0xFFFFFFFFFFFFFFFE#64
          [0xA0#8, 0xA1#8, 0xA2#8, 0xA3#8, 0xA4#8, 0xA5#8, 0xA6#8, 0xA7#8] } 0x6886FFFC 6#5 =
      some 0xA0A1A2A3A4A5A6A7#64 := by decide

/-- Admit refuses loads and stores of the page 0x3000 with TLB Refill, stores of the doubleword at 0x2008 with
TLB Modified, and gives no step at 0x4000. -/
def guarded : Admission :=
  { rules := [⟨0x3000, 0x3FFF, none, .load, .raise .tlbRefill⟩, ⟨0x3000, 0x3FFF, none, .store, .raise .tlbRefill⟩,
      ⟨0x2008, 0x200F, none, .store, .raise .tlbModified⟩, ⟨0x4000, 0x4FFF, none, .load, .noStep⟩,
      ⟨0x4000, 0x4FFF, none, .fetch, .noStep⟩]
    other := .ok }

theorem test_uld_raises :
    after State.exception (run { data big 0x2FFC#64 with admission := guarded } 0x68860000) =
      some (some ⟨.access .tlbRefill, 0x1000#64, false, .address 0x3000#64⟩) := by decide

/-- USD at 0x2003 with its second part refused: 0x2003 to 0x2007 are stored, 0x2008 is not
(48_unaligned.md R242). -/
theorem test_usd_partial :
    after (fun t => (t.exception, t.mem.readBytes 0x2003#64 6))
        (run { zeros big with admission := guarded } 0xB0850003) =
      some (some ⟨.access .tlbModified, 0x1000#64, false, .address 0x2008#64⟩,
        [0x11#8, 0x22#8, 0x33#8, 0x44#8, 0x55#8, 0x00#8]) := by decide

theorem test_ulw_no_step :
    refusalOf (run { data big 0x4000#64 with admission := guarded } 0x88860000) = some .accessNotAdmitted := by decide
theorem test_nopLdr_ignores_admission :
    flow { data big 0x3000#64 with admission := guarded } 0x6C860000 = some (0x1004#64, none) := by decide
theorem test_nopSdl : bytesAfter (zeros little) 0xB0850000 0x2000#64 2 = some [0x00#8, 0x00#8] := by decide
theorem test_nopLwl : regAfter (data little 0x2000#64) 0x88860000 6#5 = some 0#64 := by decide
theorem test_nopSwr : bytesAfter (zeros big) 0xB8850000 0x2000#64 2 = some [0x00#8, 0x00#8] := by decide
theorem test_usw_over_text :
    refusalOf (run (data big 0x0FFD#64) 0xA8850000) = some .storeToProgramText := by decide

/-- Run X1: CINS with 64-bit operations disabled. -/
theorem test_cins_reserved :
    after (fun t => (t.exception, t.readReg 2#5))
        (run { regs [(1#5, 5#64), (2#5, 9#64)] with pc := 0x500#64, ops64 := false } 0x70227A32) =
      some (some ⟨.reservedInstruction, 0x500#64, false, .insn 0x70227A32#32⟩, 9#64) := by decide

/-- Run X7: MTM0 with NOMUL = 1. -/
theorem test_mtm0_nomul :
    after (fun t => (t.exception.map ExceptionRecord.cause, t.mul))
        (run { regs [(4#5, 1#64)] with cvmCtl := { big with nomul := true } } 0x70800008) =
      some (some .reservedInstruction, MulState.reset) := by decide

/-- Run X13: pc is not a multiple of 4. -/
theorem test_misaligned_pc : refusalOf (step { regs [] with pc := 0x102#64 }) = some .misalignedPc := by decide

/-! ## Witnesses: for each statement with hypotheses, a state and operands that meet them together -/

/-- BADDU placed at pc of a state. -/
def atBaddu : State := (regs [(1#5, 1#64), (2#5, 2#64)]).withFetchWord 32 0x70221828

/-- Admission that admits nothing, and the words of spec decide nothing. -/
def noFetch : State := { atBaddu with admission := ⟨[], .noStep⟩ }

theorem witness_DecodeOfEncode :
    (Instr.uldLeft 6#5 0xFFFD#16 4#5).wf big = true ∧ (Instr.nopSwl 0#5 0x8000#16 31#5).wf little = true ∧
      (Instr.cins32 2#5 1#5 31#5 31#5).wf noUnaligned = true := by decide

theorem witness_EncodeOfDecode :
    decodeWord big 0x7022FFF3#32 = .ok (.cins32 2#5 1#5 31#5 31#5) ∧
      decodeWord little 0x88868000#32 = .ok (.nopLwl 6#5 0x8000#16 4#5) := ⟨rfl, rfl⟩

theorem witness_SpecWordsDecode :
    big.useun = true ∧ big.usely = false ∧ big.le = false ∧ little.useun = true ∧ little.usely = false ∧
      little.le = true := by decide

theorem witness_UnalignedExistOnlyWithUseun :
    (decodeWord big 0x6886FFFD#32 = .ok (.uldLeft 6#5 0xFFFD#16 4#5) ∧
      isLoad (.uldLeft 6#5 0xFFFD#16 4#5) = true) ∧
    (decodeWord little 0xB8850006#32 = .ok (.uswRight 5#5 6#16 4#5) ∧ isStore (.uswRight 5#5 6#16 4#5) = true) ∧
    noUnaligned.useun = false ∧ (0x88860000#32).extractLsb' 26 6 = 0x22#6 := ⟨⟨rfl, rfl⟩, ⟨rfl, rfl⟩, rfl, rfl⟩

theorem witness_UnalignedOpcodeSelection :
    big.useun = true ∧ (big.usely = true ∨ big.le = false) ∧ leftAlways.useun = true ∧
      (leftAlways.usely = true ∨ leftAlways.le = false) ∧ little.useun = true ∧
      ¬ (little.usely = true ∨ little.le = false) := by decide

/-- Clause by clause: the lowest bit of the zero field alone. -/
theorem witness_ReservedFieldsRefused :
    ((0x70221868#32).extractLsb' 26 6 = 0x1C#6 ∧ (0x70221868#32).extractLsb' 0 6 = 0x28#6 ∧
      (0x70221868#32).extractLsb' 6 5 ≠ 0#5) ∧
    ((0x7021182C#32).extractLsb' 26 6 = 0x1C#6 ∧ (0x7021182C#32).extractLsb' 0 6 = 0x2C#6 ∧
      (0x7021182C#32).extractLsb' 16 5 ≠ 0#5) ∧
    ((0x7080004D#32).extractLsb' 26 6 = 0x1C#6 ∧ (0x7080004D#32).extractLsb' 0 6 = 0x0D#6 ∧
      (0x7080004D#32).extractLsb' 6 15 ≠ 0#15) ∧
    ((0x0000088F#32).extractLsb' 26 6 = 0x00#6 ∧ (0x0000088F#32).extractLsb' 0 6 = 0x0F#6 ∧
      (0x0000088F#32).extractLsb' 11 15 ≠ 0#15) := by decide

theorem witness_StepRunsDecodedInstruction :
    atBaddu.exception = none ∧ ¬ (atBaddu.haltPc = some atBaddu.pc ∧ atBaddu.delay = none) ∧
      atBaddu.pc.toNat % 4 = 0 ∧ atBaddu.withinText atBaddu.pc 4 = true ∧
      atBaddu.admission.answerFor atBaddu.pc 4 .fetch = .ok ∧
      (decodeBytes atBaddu.cvmCtl (atBaddu.mem.readBytes atBaddu.pc 4)).toOption =
        some (.baddu 3#5 1#5 2#5, []) := by decide

/-- The five clauses: the end of the run, a misaligned pc, no program text, no admission, no instruction. -/
theorem witness_StepRefusesWithoutInstruction :
    refusalOf (step { atBaddu with haltPc := some 0x1000#64 }) = some .halted ∧
    refusalOf (step { atBaddu with pc := 0x1003#64 }) = some .misalignedPc ∧
    refusalOf (step { atBaddu with pc := 0x1004#64 }) = some .fetchOutsideText ∧
    refusalOf (step noFetch) = some .fetchNotAdmitted ∧
    refusalOf (run (regs []) 0) = some (.undecodable (.unknownSpecial 0#6)) := by decide

theorem witness_RecordedExceptionStopsRun :
    ({ atBaddu with exception := some ⟨.reservedInstruction, 0x1000#64, false, .insn 0#32⟩ } : State).exception =
      some ⟨.reservedInstruction, 0x1000#64, false, .insn 0#32⟩ := by decide

/-- The invariant holds in a state that a step leaves, in a delay slot. -/
theorem witness_StepKeepsInv :
    State.Inv { atBaddu with delay := some 0x2000#64 } ∧
      (after State.pc (step { atBaddu with delay := some 0x2000#64 })) = some 0x2000#64 := by
  refine ⟨⟨by decide, by decide, by decide, ?_, by decide, by decide, ?_⟩, by decide⟩
  · rintro t h
    cases h
    decide
  · rintro r h
    cases h

theorem witness_StepKeepsConfiguration : ∃ t, step atBaddu = .next t := ⟨_, rfl⟩

/-- A store next to the program text. -/
theorem witness_StepKeepsProgramText :
    (∃ t, run (data big 0x1004#64) 0xB0850000 = .next t) ∧
      ((data big 0x1004#64).withFetchWord 32 0xB0850000).inText 0x1003#64 = true := ⟨⟨_, rfl⟩, by decide⟩

/-- The highest byte that USD stores. -/
theorem witness_OnlyStoresWriteMemory :
    (∃ t, exec (.usdLeft 5#5 3#16 4#5) (zeros big) = .next t ∧ t.readByte 0x200A#64 = 0x88#8) ∧
    (∃ t, exec (.baddu 3#5 1#5 2#5) (zeros big) = .next t) ∧ isStore (.baddu 3#5 1#5 2#5) = false :=
  ⟨⟨_, rfl, by decide⟩, ⟨_, rfl⟩, rfl⟩

theorem witness_HistoryRecordsBarriers :
    (∃ t, exec .syncs (regs []) = .next t) ∧ ∃ t, exec (.pop 1#5 2#5) (regs []) = .next t := ⟨⟨_, rfl⟩, _, rfl⟩

/-- The state of run X1. -/
def no64 : State := { regs [(1#5, 5#64), (2#5, 9#64)] with ops64 := false }

/-- A reserved instruction, a load and the second part of a store, each raising. -/
theorem witness_RaisedExceptionIsListed :
    no64.exception = none ∧ no64.admission.wf = true ∧ guarded.wf = true ∧
    (∃ t, exec (.cins 2#5 1#5 8#5 15#5) no64 = .next t ∧ t.exception.isSome = true) ∧
    (∃ t, exec (.ulwLeft 6#5 0#16 4#5) { data big 0x3000#64 with admission := guarded } = .next t ∧
      t.exception.isSome = true) ∧
    ∃ t, exec (.usdLeft 5#5 3#16 4#5) { zeros big with admission := guarded } = .next t ∧
      t.exception.isSome = true :=
  ⟨by decide, by decide, by decide, ⟨_, rfl, by decide⟩, ⟨_, rfl, by decide⟩, _, rfl, by decide⟩

/-- Admit gives the page 0x4000 no step. -/
def hole : Admission :=
  { rules := [⟨0x4000, 0x4FFF, none, .load, .noStep⟩, ⟨0x4000, 0x4FFF, none, .store, .noStep⟩], other := .ok }

/-- The second part of a ULD and the first part of a USW are given no step. -/
theorem witness_ExecStopsAsNamed :
    NoStepAccess (.uldLeft 6#5 0#16 4#5) { data big 0x3FFC#64 with admission := hole } ∧
      NoStepAccess (.uswLeft 5#5 0#16 4#5) { data big 0x4FFE#64 with admission := hole } := by
  refine ⟨⟨0x3FFC#64, 8, .load, by decide, ?_, nofun, [⟨0x3FFC#64, 4⟩], ⟨0x4000#64, 4⟩, [], by decide, by decide,
    by decide⟩, ⟨0x4FFE#64, 4, .store, by decide, ?_, ?_, [], ⟨0x4FFE#64, 2⟩, [⟨0x5000#64, 2⟩], by decide, by decide,
    by decide⟩⟩
  · rintro (⟨-, h⟩ | ⟨h, -⟩) <;> exact absurd h (by decide)
  · rintro (⟨h, -⟩ | ⟨h, -⟩) <;> exact absurd h (by decide)
  · intro _
    unfold ClearOfText
    decide

theorem witness_FourteenRaiseNothing :
    isOfTheFourteen (.bbit0 0#5 0#5 1#16) = true ∧ isOfTheFourteen .syncws = true := by decide

/-- A store whose second part raises, and one whose first part raises with a second part left. -/
theorem witness_ExceptionLeavesStateBefore :
    ({ zeros big with admission := guarded } : State).exception = none ∧
      (∃ t, exec (.usdLeft 5#5 3#16 4#5) { zeros big with admission := guarded } = .next t ∧
        t.exception.map ExceptionRecord.info = some (.address 0x2008#64)) ∧
      accessParts 0x2003#64 8 = [⟨0x2003#64, 5⟩, ⟨0x2008#64, 3⟩] ∧
      (∃ t, exec (.uswLeft 5#5 0x1FFF#16 4#5) { zeros big with admission := guarded } = .next t ∧
        t.exception.map ExceptionRecord.info = some (.address 0x3FFF#64)) ∧
      accessParts 0x3FFF#64 4 = [⟨0x3FFF#64, 1⟩, ⟨0x4000#64, 3⟩] :=
  ⟨by decide, ⟨_, rfl, by decide⟩, by decide, ⟨_, rfl, by decide⟩, by decide⟩

/-- Both clauses: each way of being reserved, and not reserved while another exception is raised. -/
theorem witness_ReservedInstructionExactly :
    (tests64 (.cins 2#5 1#5 8#5 15#5) = true ∧ no64.ops64 = false ∧ no64.exception = none) ∧
    (testsMul (.mtm0 4#5) = true ∧ ({ regs [] with cvmCtl := { big with nomul := true } } : State).cvmCtl.nomul = true) ∧
    (data big 0x3000#64).ops64 = true ∧
      ∃ t, exec (.uldLeft 6#5 0#16 4#5) { data big 0x3000#64 with admission := guarded } = .next t ∧
        t.exception.isSome = true :=
  ⟨by decide, by decide, by decide, _, rfl, by decide⟩

theorem witness_DelaySlotGoesToTarget :
    ∃ t, step { atBaddu with delay := some 0x2000#64 } = .next t ∧ t.exception = none := ⟨_, rfl, by decide⟩

theorem witness_DmulMultiplies : no64.ops64 = false ∧ (regs []).ops64 = true := by decide

theorem witness_DpopCountsOnes : (regs [(1#5, 0xFFFFFFFFFFFFFFFF#64)]).ops64 = true := by decide

/-- Bit 31 and bit 63, the highest that the two forms test. -/
theorem witness_BranchOnBitEntersDelaySlot :
    (regs [(5#5, 0x80000000#64)]).delay = none ∧
      true = ((regs [(5#5, 0x80000000#64)]).readReg 5#5).getLsbD (31#5).toNat ∧
      true = ((regs [(5#5, 0x8000000000000000#64)]).readReg 5#5).getLsbD ((31#5).toNat + 32) ∧
      true = !((regs []).readReg 0#5).getLsbD (0#5).toNat ∧
      false = !((regs [(2#5, 0x800000000#64)]).readReg 2#5).getLsbD ((3#5).toNat + 32) := by decide

theorem witness_BranchInDelaySlotFaults :
    isBranch (.bbit1 0#5 0#5 1#16) = true ∧ ({ regs [] with delay := some 0x708#64 } : State).delay ≠ none := by
  decide

/-- The furthest branches back and forth. -/
theorem witness_BranchTargetRange :
    (∃ t, exec (.bbit0 0#5 0#5 0x8000#16) (regs []) = .next t) ∧
      ∃ t, exec (.bbit0 0#5 0#5 0x7FFF#16) (regs []) = .next t := ⟨⟨_, rfl⟩, _, rfl⟩

/-- The reserved clause, the last position that fits and the first that does not: for the statements on CINS,
CINS32, EXTS, EXTS32. -/
theorem witness_CinsInsertsField : no64.ops64 = false ∧ (regs []).ops64 = true := by decide
theorem witness_Cins32InsertsField :
    no64.ops64 = false ∧ (regs []).ops64 = true ∧ (16#5).toNat + 32 + (15#5).toNat ≤ 63 := by decide
theorem witness_ExtsExtractsField : no64.ops64 = false ∧ (regs []).ops64 = true := by decide
theorem witness_Exts32ExtractsField : (regs []).ops64 = true ∧ (31#5).toNat + 32 + (0#5).toNat ≤ 63 := by decide
/-- With and without 64-bit operations; the highest field that fits and the lowest that does not. -/
theorem witness_BitFieldTests64First :
    no64.ops64 = false ∧ (regs []).ops64 = true ∧ (31#5).toNat + 32 + (0#5).toNat ≤ 63 ∧
      ¬ (31#5).toNat + 32 + (1#5).toNat ≤ 63 := by decide
theorem witness_OverrunningFieldAffectsOnlyRt :
    (regs []).ops64 = true ∧ (1#5).toNat + 32 + (31#5).toNat > 63 ∧ (31#5).toNat + 32 + (1#5).toNat > 63 := by decide

/-- The two reserved cases and the good case. -/
theorem witness_MtmLoadsMultiplier :
    no64.ops64 = false ∧ ({ regs [] with cvmCtl := { big with nomul := true } } : State).cvmCtl.nomul = true ∧
      (regs []).ops64 = true ∧ (regs []).cvmCtl.nomul = false := by decide
theorem witness_MtpLoadsProduct :
    no64.ops64 = false ∧ (regs []).ops64 = true ∧ (regs []).cvmCtl.nomul = false ∧
      true = (if (regs []).mul.mseq = .loaded then (regs []).mul.mtpDirty else true) := by decide
theorem witness_MultiplierMovesReserved :
    (regs []).exception = none ∧ no64.ops64 = false ∧
      ¬ ((regs []).ops64 = false ∨ (regs []).cvmCtl.nomul = true) := by decide

/-- A state in which each multiply may execute: for the statements on VMULU, VMM0 and V3MULU. -/
def ready : State :=
  withMul [(1#5, 0xFFFFFFFFFFFFFFFF#64)] (loadedMul 0xFFFFFFFFFFFFFFFF#64 0#64 0#64 0xFFFFFFFFFFFFFFFF#64 0#64 0#64)

theorem witness_VmuluExactSum :
    ready.ops64 = true ∧ ready.cvmCtl.nomul = false ∧ ready.mul.mtpDirty = false ∧
      ready.mul.mseq ≠ .afterV3mulu := by decide
theorem witness_Vmm0LowSumMoves :
    ready.ops64 = true ∧ ready.cvmCtl.nomul = false ∧ ready.mul.mtpDirty = false ∧
      ready.mul.mseq ≠ .afterV3mulu ∧ (3#5 : Reg) ≠ 0#5 := by decide
theorem witness_V3muluExactSum :
    ready.ops64 = true ∧ ready.cvmCtl.nomul = false ∧ ready.mul.mtpDirty = false := by decide
theorem witness_Vmm0IsVmuluThenMtm0 :
    (3#5 : Reg) ≠ 0#5 ∧ ready.ops64 = true ∧ ready.cvmCtl.nomul = false ∧ ready.mul.mtpDirty = false ∧
      ready.mul.mseq ≠ .afterV3mulu := by decide
theorem witness_V3muluDrainsAccumulator :
    ready.ops64 = true ∧ ready.cvmCtl.nomul = false ∧ ready.mul.mtpDirty = false := by decide

/-- Both clauses: a sequence broken by an MTP*, and a VMULU after a V3MULU. -/
theorem witness_BrokenSequenceFaults :
    ({ ready with mul := { ready.mul with mseq := .afterVmulu, mtpDirty := true } } : State).mul.mtpDirty = true ∧
      ({ ready with mul := { ready.mul with mseq := .afterV3mulu } } : State).mul.mseq = .afterV3mulu ∧
      ready.ops64 = true ∧ ready.cvmCtl.nomul = false := by decide

/-- Both clauses, at the lowest and the highest immediate. -/
theorem witness_ComparisonsSetZeroOrOne :
    ((regs [(1#5, 0xFFFFFFFFFFFFFE00#64)]).readReg 1#5).toInt = (0x200#10).toInt ∧
      ((regs [(1#5, 0x1FF#64)]).readReg 1#5).toInt = (0x1FF#10).toInt ∧
      ((regs [(1#5, 0x200#64)]).readReg 1#5).toInt ≠ (0x200#10).toInt := by decide

theorem witness_BarriersOnlyRecord :
    (Instr.synciobdma = .synciobdma ∧ BarrierEvent.synciobdma = .synciobdma) ∧
      ∃ t, exec .syncw (regs []) = .next t := ⟨⟨rfl, rfl⟩, _, rfl⟩

/-- One byte, eight bytes on and across a boundary, and an access that wraps past the top. -/
theorem witness_PartsStayInDoubleword :
    0 < 1 ∧ 1 ≤ 8 ∧ 0 < 8 ∧ accessParts 0x2007#64 1 = [⟨0x2007#64, 1⟩] ∧ accessParts 0x2000#64 8 = [⟨0x2000#64, 8⟩] ∧
      accessParts 0x2005#64 8 = [⟨0x2005#64, 3⟩, ⟨0x2008#64, 5⟩] ∧
      accessParts 0xFFFFFFFFFFFFFFFF#64 8 = [⟨0xFFFFFFFFFFFFFFFF#64, 1⟩, ⟨0#64, 7⟩] := by decide

/-- Every part of an access at the last byte of a doubleword is admitted: for the statements on loads. -/
theorem witness_UldLoadsDoubleword :
    (data big 0x2007#64).ops64 = true ∧
      AllAdmitted (data big 0x2007#64) (effectiveAddress ((data big 0x2007#64).readReg 4#5) 0#16) 8 .load := by
  unfold AllAdmitted
  decide
theorem witness_UlwLoadsSignedWord :
    AllAdmitted (data big 0x2005#64) (effectiveAddress ((data big 0x2005#64).readReg 4#5) 0#16) 4 .load := by
  unfold AllAdmitted
  decide

/-- A store just above the program text. -/
theorem witness_UsdStoresDoubleword :
    let s := (data big 0x1005#64).withFetchWord 32 0xB0850000
    s.ops64 = true ∧ s.mem.wf = true ∧ AllAdmitted s (effectiveAddress (s.readReg 4#5) 0#16) 8 .store ∧
      ClearOfText s (effectiveAddress (s.readReg 4#5) 0#16) 8 := by
  unfold AllAdmitted ClearOfText
  decide
theorem witness_UswStoresLowWord :
    let s := (data big 0x1005#64).withFetchWord 32 0xA8850000
    s.mem.wf = true ∧ AllAdmitted s (effectiveAddress (s.readReg 4#5) 0#16) 4 .store ∧
      ClearOfText s (effectiveAddress (s.readReg 4#5) 0#16) 4 := by
  unfold AllAdmitted ClearOfText
  decide

theorem witness_NopFormsOnlyGoOn : (regs []).ops64 = true ∧ no64.ops64 = false := by decide
theorem witness_DoublewordNopRefusedWithout64 :
    isDoublewordNop (.nopSdl 6#5 0#16 4#5) = true ∧ no64.ops64 = false := by decide

/-- The second part of a ULD is refused, the first admitted; and the only part of a ULW. -/
theorem witness_LoadRaisesFirstRefusedPart :
    accessParts 0x2FFC#64 8 = [⟨0x2FFC#64, 4⟩] ++ ⟨0x3000#64, 4⟩ :: [] ∧
      guarded.answerFor 0x2FFC#64 4 .load = .ok ∧ guarded.answerFor 0x3000#64 4 .load = .raise .tlbRefill ∧
      accessParts 0x3000#64 4 = [] ++ ⟨0x3000#64, 4⟩ :: [] := by decide

/-- Both clauses: the first part refused, and the second part alone. -/
theorem witness_RefusedStorePartiallyCompletes :
    ClearOfText (zeros big) 0x2003#64 8 ∧ (zeros big).mem.wf = true ∧
      accessParts 0x2003#64 8 = [⟨0x2003#64, 5⟩, ⟨0x2008#64, 3⟩] ∧ guarded.answerFor 0x2003#64 5 .store = .ok ∧
      guarded.answerFor 0x2008#64 3 .store = .raise .tlbModified ∧
      accessParts 0x3FFF#64 4 = ⟨0x3FFF#64, 1⟩ :: [⟨0x4000#64, 3⟩] ∧
      guarded.answerFor 0x3FFF#64 1 .store = .raise .tlbRefill := by
  unfold ClearOfText
  decide

/-- The last byte of a store is the first of the program text. -/
theorem witness_StoreOverTextRefused :
    let s := (data big 0x0FF9#64).withFetchWord 32 0xB0850000
    s.ops64 = true ∧ 7 < 8 ∧
      s.inText (effectiveAddress (s.readReg 4#5) 0#16 + BitVec.ofNat 64 7) = true := by decide

/-- A store and a load at one address, both completing: for the three statements on reading back. -/
theorem witness_StoredDoublewordLoadsBack :
    (zeros big).mem.wf = true ∧ (zeros big).exception = none ∧
      ∃ t u, exec (.usdLeft 5#5 7#16 4#5) (zeros big) = .next t ∧ t.exception = none ∧
        exec (.uldLeft 6#5 7#16 4#5) t = .next u ∧ u.exception = none :=
  ⟨by decide, by decide, _, _, rfl, by decide, rfl, by decide⟩
theorem witness_StoredWordLoadsBack :
    (zeros little).mem.wf = true ∧ (zeros little).exception = none ∧
      ∃ t u, exec (.uswRight 5#5 6#16 4#5) (zeros little) = .next t ∧ t.exception = none ∧
        exec (.ulwRight 6#5 6#16 4#5) t = .next u ∧ u.exception = none :=
  ⟨by decide, by decide, _, _, rfl, by decide, rfl, by decide⟩
theorem witness_StoredDoublewordReadsAsWords :
    effectiveAddress ((zeros big).readReg 4#5) 5#16 =
        effectiveAddress ((zeros big).readReg 4#5) 1#16 + (if false = (zeros big).cvmCtl.le then 4#64 else 0#64) ∧
      effectiveAddress ((zeros big).readReg 4#5) 1#16 =
        effectiveAddress ((zeros big).readReg 4#5) 1#16 + (if true = (zeros big).cvmCtl.le then 4#64 else 0#64) ∧
      ∃ t u, exec (.usdLeft 5#5 1#16 4#5) (zeros big) = .next t ∧ t.exception = none ∧
        exec (.ulwLeft 6#5 5#16 4#5) t = .next u ∧ u.exception = none :=
  ⟨by decide, by decide, _, _, rfl, by decide, rfl, by decide⟩

end Sys2Proof.Tests
end

section
/-! PROOFS. The state at reset (10_state.md Table R42): the values the spec gives it, and the machine's invariant. -/

namespace Sys2Proof.Machine

/-- Memory with nothing listed, as at reset (log 12). -/
@[simp] theorem Memory.wf_nil : Memory.wf [] = true := rfl

/-- One answer for every access keeps to 60_exceptions.md R293 unless that answer is TLB Modified, which is for
stores only. -/
theorem Admission.wf_of_no_rules {a : AdmitAnswer} (h : a ≠ .raise .tlbModified) :
    Admission.wf { rules := [], other := a } = true := by
  simp [Admission.wf, h]

/-- With no pending target, no dirty product register and no recorded exception, the invariant asks only for
canonical memory, a zero cell of register 0, an aligned pc and a well-formed Admit. -/
theorem State.inv_of_idle {s : State} (hdelay : s.delay = none) (hdirty : s.mul.mtpDirty = false)
    (hexc : s.exception = none) (hmem : s.mem.wf = true) (hzero : s.regs[0] = 0#64)
    (hpc : s.pc.toNat % 4 = 0) (hadm : s.admission.wf = true) : s.Inv := by
  refine ⟨hmem, hzero, hpc, ?target, ?sequencing, hadm, ?record⟩
  case target => simp [hdelay]
  case sequencing => simp [hdirty]
  case record => simp [hexc]

/-- Settles O13: register 0 reads as zero whatever its cell holds; the other three are fields of `State.reset`. -/
theorem resetValues : Obligations.ResetValues :=
  ⟨State.readReg_zero State.reset, rfl, rfl, rfl⟩

/-- Settles O12: the delay slot, `mtp_dirty` and x[0] at the spec's values, pc, memory, Admit and the record at the
model's own (log 2, 12, 13, 10). -/
theorem resetHasInv : Obligations.ResetHasInv := by
  obtain ⟨-, hdelay, -, hdirty⟩ := resetValues
  have hzero : State.reset.regs[0] = 0#64 := Vector.getElem_replicate _
  have hpc : State.reset.pc.toNat % 4 = 0 := by decide
  have hadm : State.reset.admission.wf = true := Admission.wf_of_no_rules (by decide)
  exact State.inv_of_idle hdelay hdirty rfl Memory.wf_nil hzero hpc hadm

end Sys2Proof.Machine
end

section
/-! PROOFS. Where the unaligned loads and stores exist (48_unaligned.md R235): what a format's decoder answers is what
its constructor makes, so only the eight opcodes of 30_encoding.md Table R113 give one, and they test CvmCtl.USEUN. -/

namespace Sys2Proof.Machine

section formats
variable {P : Instr → Prop} {w : InsnWord} {i : Instr}

/-! ### A property of all that a format's constructor makes holds of what the format's decoder answers -/

theorem withZeros_eq_ok {zeros : Bool} {j : Instr} : withZeros zeros w j = .ok i ↔ zeros = true ∧ j = i := by
  cases zeros <;> simp [withZeros]

theorem of_decodeF1 {mk : Reg → Reg → Reg → Instr} (hmk : ∀ rd rs rt, P (mk rd rs rt))
    (h : decodeF1 w mk = .ok i) : P i := by
  obtain ⟨-, rfl⟩ := withZeros_eq_ok.mp h
  exact hmk _ _ _

theorem of_decodeF2 {mk : Reg → Reg → Instr} (hmk : ∀ rd rs, P (mk rd rs)) (h : decodeF2 w mk = .ok i) : P i := by
  obtain ⟨-, rfl⟩ := withZeros_eq_ok.mp h
  exact hmk _ _

theorem of_decodeF3 {mk : Reg → Reg → Pos → Pos → Instr} (hmk : ∀ rt rs p lenm1, P (mk rt rs p lenm1))
    (h : decodeF3 w mk = .ok i) : P i := by
  cases h
  exact hmk _ _ _ _

theorem of_decodeF4 {mk : Reg → Reg → Imm10 → Instr} (hmk : ∀ rt rs imm, P (mk rt rs imm))
    (h : decodeF4 w mk = .ok i) : P i := by
  cases h
  exact hmk _ _ _

theorem of_decodeF5 {mk : Reg → Instr} (hmk : ∀ rs, P (mk rs)) (h : decodeF5 w mk = .ok i) : P i := by
  obtain ⟨-, rfl⟩ := withZeros_eq_ok.mp h
  exact hmk _

theorem of_decodeF7 {mk : Reg → Pos → Off16 → Instr} (hmk : ∀ rs p offset, P (mk rs p offset))
    (h : decodeF7 w mk = .ok i) : P i := by
  cases h
  exact hmk _ _ _

end formats

/-! ### The decoders that test no configuration give no load and no store -/

/-- The instruction is neither a load nor a store: ULD, ULW, USD and USW are all there are. -/
def NoAccess (i : Instr) : Prop := isLoad i = false ∧ isStore i = false

theorem noAccess_iff {i : Instr} : NoAccess i ↔ ¬ (isLoad i = true ∨ isStore i = true) := by
  simp [NoAccess]

theorem noAccess_of_decodeSpecial2 {w : InsnWord} {i : Instr} (h : decodeSpecial2 w = .ok i) : NoAccess i := by
  unfold decodeSpecial2 at h
  split at h
  case h_1 | h_8 | h_9 | h_10 | h_11 | h_12 | h_13 => exact of_decodeF1 (fun _ _ _ => ⟨rfl, rfl⟩) h
  case h_14 | h_15 => exact of_decodeF2 (fun _ _ => ⟨rfl, rfl⟩) h
  case h_18 | h_19 | h_20 | h_21 => exact of_decodeF3 (fun _ _ _ _ => ⟨rfl, rfl⟩) h
  case h_16 | h_17 => exact of_decodeF4 (fun _ _ _ => ⟨rfl, rfl⟩) h
  case h_2 | h_3 | h_4 | h_5 | h_6 | h_7 => exact of_decodeF5 (fun _ => ⟨rfl, rfl⟩) h
  case h_22 => cases h

theorem noAccess_of_decodeStype {stype : BitVec 5} {i : Instr} (h : decodeStype stype = .ok i) : NoAccess i := by
  unfold decodeStype at h
  split at h <;> cases h <;> exact ⟨rfl, rfl⟩

theorem noAccess_of_decodeSpecial {w : InsnWord} {i : Instr} (h : decodeSpecial w = .ok i) : NoAccess i := by
  unfold decodeSpecial at h
  split at h
  next =>
    split at h
    next => exact noAccess_of_decodeStype h
    next => cases h
  next => cases h

/-! ### The opcodes of Table R113 under CvmCtl.USEUN -/

section unaligned
variable {c : CvmCtl} {w : InsnWord} {base : BaseInstr} {unaligned nop : Reg → Off16 → Reg → Instr}

theorem decodeLeft_of_useun_clear (hc : c.useun = false) :
    decodeLeft c w base unaligned nop = .error (.baseInstruction base) := by
  simp [decodeLeft, hc]

theorem decodeRight_of_useun_clear (hc : c.useun = false) :
    decodeRight c w base unaligned nop = .error (.baseInstruction base) := by
  simp [decodeRight, hc]

theorem decodeWord_ldl (h : opOf w = 0x1A#6) : decodeWord c w = decodeLeft c w .ldl .uldLeft .nopLdl := by
  simp only [decodeWord, h]

theorem decodeWord_ldr (h : opOf w = 0x1B#6) : decodeWord c w = decodeRight c w .ldr .uldRight .nopLdr := by
  simp only [decodeWord, h]

theorem decodeWord_lwl (h : opOf w = 0x22#6) : decodeWord c w = decodeLeft c w .lwl .ulwLeft .nopLwl := by
  simp only [decodeWord, h]

theorem decodeWord_lwr (h : opOf w = 0x26#6) : decodeWord c w = decodeRight c w .lwr .ulwRight .nopLwr := by
  simp only [decodeWord, h]

theorem decodeWord_sdl (h : opOf w = 0x2C#6) : decodeWord c w = decodeLeft c w .sdl .usdLeft .nopSdl := by
  simp only [decodeWord, h]

theorem decodeWord_sdr (h : opOf w = 0x2D#6) : decodeWord c w = decodeRight c w .sdr .usdRight .nopSdr := by
  simp only [decodeWord, h]

theorem decodeWord_swl (h : opOf w = 0x2A#6) : decodeWord c w = decodeLeft c w .swl .uswLeft .nopSwl := by
  simp only [decodeWord, h]

theorem decodeWord_swr (h : opOf w = 0x2E#6) : decodeWord c w = decodeRight c w .swr .uswRight .nopSwr := by
  simp only [decodeWord, h]

/-- With USEUN clear no word stands for a load or a store: every opcode of Table R113 is refused. -/
theorem noAccess_of_decodeWord {i : Instr} (hc : c.useun = false) (h : decodeWord c w = .ok i) : NoAccess i := by
  unfold decodeWord at h
  split at h
  case h_1 => exact noAccess_of_decodeSpecial h
  case h_2 => exact noAccess_of_decodeSpecial2 h
  case h_3 | h_4 | h_5 | h_6 => exact of_decodeF7 (fun _ _ _ => ⟨rfl, rfl⟩) h
  case h_7 | h_9 | h_11 | h_13 => cases (decodeLeft_of_useun_clear hc).symm.trans h
  case h_8 | h_10 | h_12 | h_14 => cases (decodeRight_of_useun_clear hc).symm.trans h
  case h_15 => cases h

end unaligned

/-- Settles O5: with USEUN clear a word that decodes is neither a load nor a store, and each opcode of Table R113
takes the refusing branch of its decoder. -/
theorem unalignedExistOnlyWithUseun : Obligations.UnalignedExistOnlyWithUseun := by
  refine ⟨fun c w i h hacc => ?exist, fun c w op b hc hmem hop => ?refused⟩
  case exist =>
    by_contra hc
    exact noAccess_iff.mp (noAccess_of_decodeWord (Bool.eq_false_of_not_eq_true hc) h) hacc
  case refused =>
    simp only [List.mem_cons, Prod.mk.injEq, List.not_mem_nil, or_false] at hmem
    obtain ⟨rfl, rfl⟩ | ⟨rfl, rfl⟩ | ⟨rfl, rfl⟩ | ⟨rfl, rfl⟩ |
      ⟨rfl, rfl⟩ | ⟨rfl, rfl⟩ | ⟨rfl, rfl⟩ | ⟨rfl, rfl⟩ := hmem
    · exact (decodeWord_ldl hop).trans (decodeLeft_of_useun_clear hc)
    · exact (decodeWord_ldr hop).trans (decodeRight_of_useun_clear hc)
    · exact (decodeWord_lwl hop).trans (decodeLeft_of_useun_clear hc)
    · exact (decodeWord_lwr hop).trans (decodeRight_of_useun_clear hc)
    · exact (decodeWord_sdl hop).trans (decodeLeft_of_useun_clear hc)
    · exact (decodeWord_sdr hop).trans (decodeRight_of_useun_clear hc)
    · exact (decodeWord_swl hop).trans (decodeLeft_of_useun_clear hc)
    · exact (decodeWord_swr hop).trans (decodeRight_of_useun_clear hc)

end Sys2Proof.Machine
end

section
/-! PROOFS. The bit-field instructions CINS, CINS32, EXTS and EXTS32 (42_bitfield.md R160 to R166): the word of their
format as a union of its fields, each bit of an inserted and of an extracted field, and what the test of `ops64` makes
of an instruction that only writes a register. -/

namespace Sys2Proof.Machine

/-! ### The word of format F3 -/

/-- Format F3 (30_encoding.md R104) as a union: opcode, function value and the four fields, each at its place. -/
theorem encodeF3_eq_or (fn : BitVec 6) (rt rs : Reg) (p lenm1 : Pos) :
    encodeF3 fn rt rs p lenm1 = (0x70000000#32 ||| fn.setWidth 32) ||| fieldAt rs 21 ||| fieldAt rt 16 |||
      fieldAt lenm1 11 ||| fieldAt p 6 := by
  apply BitVec.eq_of_getLsbD_eq
  intro i hi
  simp only [encodeF3, fieldAt, BitVec.getLsbD_or, BitVec.getLsbD_shiftLeft, BitVec.getLsbD_setWidth]
  repeat rw [getLsbD_field]
  interval_cases i <;> simp

/-! ### The bits of a field -/

/-- An inserted field: its bits stand at `pos` and above, every other bit is zero. -/
theorem getLsbD_insertField (x : Word) (pos len : Nat) {j : Nat} (hj : j < 64) :
    (insertField x pos len).getLsbD j = (decide (pos ≤ j ∧ j < pos + len) && x.getLsbD (j - pos)) := by
  simp only [insertField, BitVec.getLsbD_shiftLeft, BitVec.getLsbD_setWidth, BitVec.getLsbD_extractLsb', Nat.zero_add]
  by_cases hlow : pos ≤ j
  · have hlen : j - pos < len ↔ j < pos + len := by omega
    have hin : j - pos < 64 := by omega
    simp [hj, hlow, hlen, hin]
  · simp [hlow]

/-- An extracted field: its bits from the lowest, and above them copies of its highest. -/
theorem getLsbD_extractField (x : Word) (pos top : Nat) {j : Nat} (hj : j < 64) :
    (extractField x pos (top + 1)).getLsbD j = x.getLsbD (pos + min j top) := by
  rw [extractField, BitVec.getLsbD_signExtend]
  by_cases hfield : j < top + 1
  · have hmin : min j top = j := by omega
    simp [hj, hfield, hmin]
  · have hmin : min j top = top := by omega
    simp [hj, hfield, hmin, BitVec.msb_eq_getLsbD_last]

theorem fieldOverruns_iff {p lenm1 : Pos} : fieldOverruns p lenm1 = true ↔ p.toNat + 32 + lenm1.toNat > 63 := by
  simp [fieldOverruns, highPos]

/-! ### What the shared shapes of the four meanings do -/

section shapes
variable {i : Instr} {rt : Reg} {p lenm1 : Pos} {s : State}

/-- Without 64-bit operations nothing but the outcome is written. -/
theorem need64_raises {f : State → Host.Outcome State Fault Refusal} (h : s.ops64 = false) :
    ∃ t, need64 i f s = .next t ∧ OnlyRaises .reservedInstruction (.insn (encode i)) s t :=
  ⟨s.raiseReserved i, need64_disabled h, rfl⟩

theorem need64_writes {val : State → Word} (h : s.ops64 = true) :
    ∃ t, need64 i (fun s => writeAndAdvance rt (val s) s) s = .next t ∧ OnlyWrites rt (val s) s t :=
  ⟨(s.writeReg rt (val s)).advance, need64_enabled h, s.onlyWrites_writeReg_advance rt (val s)⟩

/-- A "32" form whose field fits writes its value. -/
theorem need64_writes_of_fits {val : State → Word} (h : s.ops64 = true) (hfit : p.toNat + 32 + lenm1.toNat ≤ 63) :
    ∃ t, need64 i (fun s => if fieldOverruns p lenm1 then writeAndAdvance rt (s.free 0) (s.drew 1)
        else writeAndAdvance rt (val s) s) s = .next t ∧ OnlyWrites rt (val s) s t := by
  have hno : ¬ fieldOverruns p lenm1 = true := by rw [fieldOverruns_iff]; omega
  simp only [if_neg hno]
  exact need64_writes h

/-- A "32" form whose field passes bit 63 writes a free value, and drawing it is no part of the frame. -/
theorem need64_writes_of_overruns {val : State → Word} (h : s.ops64 = true)
    (hover : p.toNat + 32 + lenm1.toNat > 63) :
    ∃ t, need64 i (fun s => if fieldOverruns p lenm1 then writeAndAdvance rt (s.free 0) (s.drew 1)
        else writeAndAdvance rt (val s) s) s = .next t ∧ OnlyWrites rt (s.free 0) s t := by
  simp only [if_pos (fieldOverruns_iff.mpr hover)]
  exact ⟨_, need64_enabled h, (s.drew 1).onlyWrites_writeReg_advance rt (s.free 0)⟩

end shapes

/-! ### The four instructions as uses of the shared shapes -/

section meanings
variable (rt rs : Reg) (p lenm1 : Pos) (s : State)

theorem exec_cins : exec (.cins rt rs p lenm1) s = need64 (.cins rt rs p lenm1) (fun s =>
    writeAndAdvance rt (insertField (s.readReg rs) (lowPos p) (fieldLen lenm1)) s) s := rfl

theorem exec_cins32 : exec (.cins32 rt rs p lenm1) s = need64 (.cins32 rt rs p lenm1) (fun s =>
    if fieldOverruns p lenm1 then writeAndAdvance rt (s.free 0) (s.drew 1)
    else writeAndAdvance rt (insertField (s.readReg rs) (highPos p) (fieldLen lenm1)) s) s := rfl

theorem exec_exts : exec (.exts rt rs p lenm1) s = need64 (.exts rt rs p lenm1) (fun s =>
    writeAndAdvance rt (extractField (s.readReg rs) (lowPos p) (fieldLen lenm1)) s) s := rfl

theorem exec_exts32 : exec (.exts32 rt rs p lenm1) s = need64 (.exts32 rt rs p lenm1) (fun s =>
    if fieldOverruns p lenm1 then writeAndAdvance rt (s.free 0) (s.drew 1)
    else writeAndAdvance rt (extractField (s.readReg rs) (highPos p) (fieldLen lenm1)) s) s := rfl

end meanings

/-! ### The four instructions with 64-bit operations enabled -/

section enabled
variable {rt rs : Reg} {p lenm1 : Pos} {s : State}

theorem exec_cins_writes (h : s.ops64 = true) :
    ∃ t, exec (.cins rt rs p lenm1) s = .next t ∧
      OnlyWrites rt (insertField (s.readReg rs) (lowPos p) (fieldLen lenm1)) s t := by
  rw [exec_cins]
  exact need64_writes h

theorem exec_exts_writes (h : s.ops64 = true) :
    ∃ t, exec (.exts rt rs p lenm1) s = .next t ∧
      OnlyWrites rt (extractField (s.readReg rs) (lowPos p) (fieldLen lenm1)) s t := by
  rw [exec_exts]
  exact need64_writes h

theorem exec_cins32_writes_of_fits (h : s.ops64 = true) (hfit : p.toNat + 32 + lenm1.toNat ≤ 63) :
    ∃ t, exec (.cins32 rt rs p lenm1) s = .next t ∧
      OnlyWrites rt (insertField (s.readReg rs) (highPos p) (fieldLen lenm1)) s t := by
  rw [exec_cins32]
  exact need64_writes_of_fits h hfit

theorem exec_exts32_writes_of_fits (h : s.ops64 = true) (hfit : p.toNat + 32 + lenm1.toNat ≤ 63) :
    ∃ t, exec (.exts32 rt rs p lenm1) s = .next t ∧
      OnlyWrites rt (extractField (s.readReg rs) (highPos p) (fieldLen lenm1)) s t := by
  rw [exec_exts32]
  exact need64_writes_of_fits h hfit

theorem exec_cins32_writes_of_overruns (h : s.ops64 = true) (hover : p.toNat + 32 + lenm1.toNat > 63) :
    ∃ t, exec (.cins32 rt rs p lenm1) s = .next t ∧ OnlyWrites rt (s.free 0) s t := by
  rw [exec_cins32]
  exact need64_writes_of_overruns h hover

theorem exec_exts32_writes_of_overruns (h : s.ops64 = true) (hover : p.toNat + 32 + lenm1.toNat > 63) :
    ∃ t, exec (.exts32 rt rs p lenm1) s = .next t ∧ OnlyWrites rt (s.free 0) s t := by
  rw [exec_exts32]
  exact need64_writes_of_overruns h hover

end enabled

/-! ### The four instructions together -/

/-- `i` is one of the four, with these operands. -/
def IsBitField (rt rs : Reg) (p lenm1 : Pos) (i : Instr) : Prop :=
  i = .cins rt rs p lenm1 ∨ i = .cins32 rt rs p lenm1 ∨
    i = .exts rt rs p lenm1 ∨ i = .exts32 rt rs p lenm1

/-- The spec gives the result of `i` a value: it does unless `i` is a "32" form whose field passes bit 63
(42_bitfield.md R166). -/
def ResultDefined (rt rs : Reg) (p lenm1 : Pos) (i : Instr) : Prop :=
  i = .cins rt rs p lenm1 ∨ i = .exts rt rs p lenm1 ∨ p.toNat + 32 + lenm1.toNat ≤ 63

section together
variable {rt rs : Reg} {p lenm1 : Pos} {i : Instr}

theorem bitField_raises {s : State} (hi : IsBitField rt rs p lenm1 i) (h : s.ops64 = false) :
    ∃ t, exec i s = .next t ∧ OnlyRaises .reservedInstruction (.insn (encode i)) s t := by
  obtain rfl | rfl | rfl | rfl := hi
  · rw [exec_cins]; exact need64_raises h
  · rw [exec_cins32]; exact need64_raises h
  · rw [exec_exts]; exact need64_raises h
  · rw [exec_exts32]; exact need64_raises h

/-- Where the result is defined it is a function of x[rs] alone. -/
theorem bitField_writes_of_defined (hi : IsBitField rt rs p lenm1 i) (hdef : ResultDefined rt rs p lenm1 i) :
    ∃ f : Word → Word, ∀ s : State, s.ops64 = true →
      ∃ t, exec i s = .next t ∧ OnlyWrites rt (f (s.readReg rs)) s t := by
  obtain rfl | rfl | rfl | rfl := hi
  · exact ⟨fun x => insertField x (lowPos p) (fieldLen lenm1), fun _ h => exec_cins_writes h⟩
  · have hfit : p.toNat + 32 + lenm1.toNat ≤ 63 := by simpa [ResultDefined] using hdef
    exact ⟨fun x => insertField x (highPos p) (fieldLen lenm1), fun _ h => exec_cins32_writes_of_fits h hfit⟩
  · exact ⟨fun x => extractField x (lowPos p) (fieldLen lenm1), fun _ h => exec_exts_writes h⟩
  · have hfit : p.toNat + 32 + lenm1.toNat ≤ 63 := by simpa [ResultDefined] using hdef
    exact ⟨fun x => extractField x (highPos p) (fieldLen lenm1), fun _ h => exec_exts32_writes_of_fits h hfit⟩

theorem highField_writes_of_overruns {s : State} (hi : i = .cins32 rt rs p lenm1 ∨ i = .exts32 rt rs p lenm1)
    (h : s.ops64 = true) (hover : p.toNat + 32 + lenm1.toNat > 63) :
    ∃ t, exec i s = .next t ∧ OnlyWrites rt (s.free 0) s t := by
  obtain rfl | rfl := hi
  · exact exec_cins32_writes_of_overruns h hover
  · exact exec_exts32_writes_of_overruns h hover

/-- Whether the result is defined or not, only x[rt] is written. -/
theorem bitField_writes {s : State} (hi : IsBitField rt rs p lenm1 i) (h : s.ops64 = true) :
    ∃ t v, exec i s = .next t ∧ OnlyWrites rt v s t := by
  by_cases hdef : ResultDefined rt rs p lenm1 i
  · obtain ⟨f, hf⟩ := bitField_writes_of_defined hi hdef
    obtain ⟨t, ht, hw⟩ := hf s h
    exact ⟨t, f (s.readReg rs), ht, hw⟩
  · simp only [ResultDefined, not_or, not_le] at hdef
    obtain ⟨hcins, hexts, hover⟩ := hdef
    have hhigh : i = .cins32 rt rs p lenm1 ∨ i = .exts32 rt rs p lenm1 := by simpa [IsBitField, hcins, hexts] using hi
    obtain ⟨t, ht, hw⟩ := highField_writes_of_overruns hhigh h hover
    exact ⟨t, s.free 0, ht, hw⟩

end together

/-- A write to register 0 is discarded (10_state.md R21). -/
theorem WroteReg.sameRegs {d : Reg} {v : Word} {s t : State} (hw : WroteReg d v s t) (hd : d = 0#5) :
    SameRegs s t := by
  obtain ⟨hself, hother⟩ := hw
  intro r
  by_cases hr : r = d
  · rw [hr, hself, if_pos hd, hd, State.readReg_zero]
  · exact hother r hr

/-! ### The statements -/

/-- Settles O31: the word is the union of its fields, and each bit of the result is that of an inserted field. -/
theorem cinsInsertsField : Obligations.CinsInsertsField := by
  intro rt rs p lenm1 s
  refine ⟨encodeF3_eq_or 0x32#6 rt rs p lenm1, bitField_raises (.inl rfl), fun h => ?_⟩
  obtain ⟨t, ht, hw⟩ := exec_cins_writes (rt := rt) (rs := rs) (p := p) (lenm1 := lenm1) h
  refine ⟨t, _, ht, hw, fun j hj => ?_⟩
  simp only [getLsbD_insertField _ _ _ hj, lowPos, fieldLen, ← Nat.add_assoc, Nat.lt_succ_iff]

/-- Settles O32: as CINS at bit p + 32 where the field fits; a free value where it passes bit 63. -/
theorem cins32InsertsField : Obligations.Cins32InsertsField := by
  intro rt rs p lenm1 s
  refine ⟨encodeF3_eq_or 0x33#6 rt rs p lenm1, bitField_raises (.inr (.inl rfl)), fun h => ?_⟩
  by_cases hfit : p.toNat + 32 + lenm1.toNat ≤ 63
  · obtain ⟨t, ht, hw⟩ := exec_cins32_writes_of_fits (rt := rt) (rs := rs) h hfit
    refine ⟨t, _, ht, hw, fun _ j hj => ?_⟩
    simp only [getLsbD_insertField _ _ _ hj, highPos, fieldLen, ← Nat.add_assoc, Nat.lt_succ_iff]
  · obtain ⟨t, ht, hw⟩ := exec_cins32_writes_of_overruns (rt := rt) (rs := rs) h (Nat.lt_of_not_le hfit)
    exact ⟨t, _, ht, hw, fun hfits => absurd hfits hfit⟩

/-- Settles O33: the word is the union of its fields, and each bit of the result is that of an extracted field. -/
theorem extsExtractsField : Obligations.ExtsExtractsField := by
  intro rt rs p lenm1 s
  refine ⟨encodeF3_eq_or 0x3A#6 rt rs p lenm1, bitField_raises (.inr (.inr (.inl rfl))), fun h => ?_⟩
  obtain ⟨t, ht, hw⟩ := exec_exts_writes (rt := rt) (rs := rs) (p := p) (lenm1 := lenm1) h
  exact ⟨t, _, ht, hw, fun j hj => getLsbD_extractField (s.readReg rs) p.toNat lenm1.toNat hj⟩

/-- Settles O35: `ops64` and x[rs] are the same under any CvmCtl, and a defined result is a function of x[rs]. -/
theorem bitFieldTests64First : Obligations.BitFieldTests64First := by
  intro rt rs p lenm1 s i hi
  refine ⟨bitField_raises hi, fun h => ⟨fun c => bitField_writes hi h, fun hdef => ?_⟩⟩
  obtain ⟨f, hf⟩ := bitField_writes_of_defined hi hdef
  exact ⟨f (s.readReg rs), fun c => hf { s with cvmCtl := c } h⟩

/-- Settles O36: the frame of an instruction that only writes x[rt], whatever free value it takes. -/
theorem overrunningFieldAffectsOnlyRt : Obligations.OverrunningFieldAffectsOnlyRt := by
  intro rt rs p lenm1 s i h hover hi
  obtain ⟨t, ht, hreg, hframe⟩ := highField_writes_of_overruns hi h hover
  exact ⟨t, ht, hreg.right, hreg.sameRegs, hframe⟩

end Sys2Proof.Machine
end

section
/-! PROOFS. POP (44_popcount.md R181): the word of its format as a union of its fields, and what it writes. -/

namespace Sys2Proof.Machine

/-- Format F2 (30_encoding.md R103) as a union: opcode, function value and the two fields, each at its place. -/
theorem encodeF2_eq_or (fn : BitVec 6) (rd rs : Reg) :
    encodeF2 fn rd rs = (0x70000000#32 ||| fn.setWidth 32) ||| fieldAt rs 21 ||| fieldAt rd 11 := by
  apply BitVec.eq_of_getLsbD_eq
  intro i hi
  simp only [encodeF2, fieldAt, BitVec.getLsbD_or, BitVec.getLsbD_shiftLeft, BitVec.getLsbD_setWidth]
  repeat rw [getLsbD_field]
  interval_cases i <;> simp

theorem exec_pop (rd rs : Reg) (s : State) :
    exec (.pop rd rs) s = writeAndAdvance rd (BitVec.ofNat 64 (popcount (s.readReg rs) 32)) s := rfl

/-- POP tests nothing of the state: it always completes, and x[rd] is all it writes. -/
theorem exec_pop_writes (rd rs : Reg) (s : State) :
    ∃ t, exec (.pop rd rs) s = .next t ∧
      OnlyWrites rd (BitVec.ofNat 64 (popcount (s.readReg rs) 32)) s t := by
  rw [exec_pop]
  exact ⟨_, writeAndAdvance_next.mpr rfl, s.onlyWrites_writeReg_advance rd _⟩

/-- Settles O26: the word is the union of its fields, and the model's recursive count over the low 32 bits is the
count over their positions. -/
theorem popCountsOnes : Obligations.PopCountsOnes := by
  intro rd rs s
  refine ⟨encodeF2_eq_or 0x2C#6 rd rs, ?count⟩
  case count =>
    rw [← popcount_eq_countP]
    exact exec_pop_writes rd rs s

end Sys2Proof.Machine
end

section
/-! PROOFS. The moves into the multiplier unit, MTM0 to MTM2 and MTP0 to MTP2 (45_multiplier_regs.md R190 to R196): the
six share one shape, and that shape decides when they are reserved. -/

namespace Sys2Proof.Machine

/-! ### What the shared shape does -/

section shape
variable {i : Instr} {s : State}

/-- Where the multiplier unit may not be used nothing but the outcome is written. -/
theorem needMul_raises {f : State → Host.Outcome State Fault Refusal}
    (h : s.ops64 = false ∨ s.cvmCtl.nomul = true) :
    ∃ t, needMul i f s = .next t ∧ OnlyRaises .reservedInstruction (.insn (encode i)) s t :=
  ⟨s.raiseReserved i, needMul_disabled h, rfl⟩

theorem needMul_setsMul {m : State → MulState} (h : s.ops64 = true) (hn : s.cvmCtl.nomul = false) :
    needMul i (fun s => setMulAndAdvance (m s) s) s = .next (s.withMul (m s)).advance :=
  (needMul_enabled h hn).trans (setMulAndAdvance_next.mpr rfl)

end shape

/-! ### The six moves as uses of the shared shape -/

section meanings
variable (rs : Reg) (s : State)

theorem exec_mtm0 : exec (.mtm0 rs) s = needMul (.mtm0 rs)
    (fun s => setMulAndAdvance { s.mul.loaded with mpl0 := s.readReg rs } s) s := rfl

theorem exec_mtm1 : exec (.mtm1 rs) s = needMul (.mtm1 rs)
    (fun s => setMulAndAdvance { s.mul.loaded with mpl1 := s.readReg rs } s) s := rfl

theorem exec_mtm2 : exec (.mtm2 rs) s = needMul (.mtm2 rs)
    (fun s => setMulAndAdvance { s.mul.loaded with mpl2 := s.readReg rs } s) s := rfl

theorem exec_mtp0 : exec (.mtp0 rs) s = needMul (.mtp0 rs)
    (fun s => setMulAndAdvance { s.mul.presetSeq with p0 := s.readReg rs } s) s := rfl

theorem exec_mtp1 : exec (.mtp1 rs) s = needMul (.mtp1 rs)
    (fun s => setMulAndAdvance { s.mul.presetSeq with p1 := s.readReg rs } s) s := rfl

theorem exec_mtp2 : exec (.mtp2 rs) s = needMul (.mtp2 rs)
    (fun s => setMulAndAdvance { s.mul.presetSeq with p2 := s.readReg rs } s) s := rfl

end meanings

/-- `i` is one of the six, with this operand. -/
def IsMulMove (rs : Reg) (i : Instr) : Prop :=
  i = .mtm0 rs ∨ i = .mtm1 rs ∨ i = .mtm2 rs ∨ i = .mtp0 rs ∨ i = .mtp1 rs ∨ i = .mtp2 rs

/-- Each of the six replaces the multiply state and goes on, behind the one test of the multiplier unit. -/
theorem exec_mulMove {rs : Reg} {i : Instr} (hi : IsMulMove rs i) :
    ∃ m : State → MulState, ∀ s, exec i s = needMul i (fun s => setMulAndAdvance (m s) s) s := by
  obtain rfl | rfl | rfl | rfl | rfl | rfl := hi
  · exact ⟨_, exec_mtm0 rs⟩
  · exact ⟨_, exec_mtm1 rs⟩
  · exact ⟨_, exec_mtm2 rs⟩
  · exact ⟨_, exec_mtp0 rs⟩
  · exact ⟨_, exec_mtp1 rs⟩
  · exact ⟨_, exec_mtp2 rs⟩

/-! ### The statement -/

/-- Settles O45: the test of the shared shape fails exactly in the reserved cases, and a move that passes it leaves
the recorded outcome as it was. -/
theorem multiplierMovesReserved : Obligations.MultiplierMovesReserved := by
  intro rs s i hnone hi
  obtain ⟨m, hexec⟩ := exec_mulMove hi
  rw [hexec s]
  refine ⟨needMul_raises, fun hnot => ?completes⟩
  case completes =>
    obtain ⟨hops, hmul⟩ := not_or.mp hnot
    have hnext := needMul_setsMul (i := i) (m := m) (Bool.eq_true_of_not_eq_false hops)
      (Bool.eq_false_of_not_eq_true hmul)
    exact ⟨_, hnext, by rw [State.advance_exception, State.withMul_exception, hnone]⟩

end Sys2Proof.Machine
end

section
/-! PROOFS. The comparisons SEQ, SNE, SEQI and SNEI (46_set_on_equal.md R210 to R214): the words of their formats as
unions of fields, the value of a comparison, and the one shape all four share. -/

namespace Sys2Proof.Machine

/-! ### The words of formats F1 and F4 -/

/-- Format F1 (30_encoding.md R102) as a union: opcode, function value and the three fields, each at its place. -/
theorem encodeF1_eq_or (fn : BitVec 6) (rd rs rt : Reg) :
    encodeF1 fn rd rs rt = (0x70000000#32 ||| fn.setWidth 32) ||| fieldAt rs 21 ||| fieldAt rt 16 |||
      fieldAt rd 11 := by
  apply BitVec.eq_of_getLsbD_eq
  intro i hi
  simp only [encodeF1, fieldAt, BitVec.getLsbD_or, BitVec.getLsbD_shiftLeft, BitVec.getLsbD_setWidth]
  repeat rw [getLsbD_field]
  interval_cases i <;> simp

/-- Format F4 (30_encoding.md R105) as a union: opcode, function value and the three fields, each at its place. -/
theorem encodeF4_eq_or (fn : BitVec 6) (rt rs : Reg) (imm : Imm10) :
    encodeF4 fn rt rs imm = (0x70000000#32 ||| fn.setWidth 32) ||| fieldAt rs 21 ||| fieldAt rt 16 |||
      fieldAt imm 6 := by
  apply BitVec.eq_of_getLsbD_eq
  intro i hi
  simp only [encodeF4, fieldAt, BitVec.getLsbD_or, BitVec.getLsbD_shiftLeft, BitVec.getLsbD_setWidth]
  repeat rw [getLsbD_field]
  interval_cases i <;> simp

/-! ### What is compared -/

/-- Extending the immediate to 64 bits keeps its signed value. -/
theorem toInt_immValue (imm : Imm10) : (immValue imm).toInt = imm.toInt :=
  BitVec.toInt_signExtend_of_le (by decide)

/-- Equality with the extended immediate, as 64 bits, is equality of the signed values. -/
theorem eq_immValue_iff (x : Word) (imm : Imm10) : x = immValue imm ↔ x.toInt = imm.toInt := by
  rw [← toInt_immValue, BitVec.toInt_inj]

/-! ### The shape of the four -/

/-- The instruction writes to `d`, in this state, 1 if `holds` and 0 if not, and nothing else. -/
def WritesTruth (i : Instr) (d : Reg) (holds : Prop) (s : State) : Prop :=
  ∃ t v, exec i s = .next t ∧ OnlyWrites d v s t ∧ (holds → v = 1#64) ∧ (¬ holds → v = 0#64)

section shape
variable {i : Instr} {d rd rs rt : Reg} {imm : Imm10} {s : State}

/-- An instruction that writes the value of a Boolean test writes the truth of what the test decides. -/
theorem writesTruth_of_setOn {b : Bool} {holds : Prop} (hexec : exec i s = writeAndAdvance d (setOn b) s)
    (hb : b = true ↔ holds) : WritesTruth i d holds s := by
  refine ⟨_, setOn b, hexec.trans (writeAndAdvance_next.mpr rfl), s.onlyWrites_writeReg_advance d _,
    fun h => ?holds, fun h => ?fails⟩
  case holds => rw [hb.mpr h]; rfl
  case fails => rw [Bool.eq_false_of_not_eq_true (mt hb.mp h)]; rfl

theorem seq_writesTruth : WritesTruth (.seq rd rs rt) rd (s.readReg rs = s.readReg rt) s :=
  writesTruth_of_setOn rfl beq_iff_eq

theorem sne_writesTruth : WritesTruth (.sne rd rs rt) rd (s.readReg rs ≠ s.readReg rt) s :=
  writesTruth_of_setOn rfl bne_iff_ne

theorem seqi_writesTruth : WritesTruth (.seqi rt rs imm) rt ((s.readReg rs).toInt = imm.toInt) s :=
  writesTruth_of_setOn rfl (beq_iff_eq.trans (eq_immValue_iff _ imm))

theorem snei_writesTruth : WritesTruth (.snei rt rs imm) rt ((s.readReg rs).toInt ≠ imm.toInt) s :=
  writesTruth_of_setOn rfl (bne_iff_ne.trans (eq_immValue_iff _ imm).not)

end shape

/-- Settles O46: each word is the union of its fields, and each of the four writes the truth of its comparison,
with no test of the configuration on the way. -/
theorem comparisonsSetZeroOrOne : Obligations.ComparisonsSetZeroOrOne := by
  intro rd rs rt imm s i w holds hi
  obtain ⟨rfl, rfl, rfl⟩ | ⟨rfl, rfl, rfl⟩ | ⟨rfl, rfl, rfl⟩ | ⟨rfl, rfl, rfl⟩ := hi
  · exact ⟨encodeF1_eq_or 0x2A#6 rd rs rt, seq_writesTruth⟩
  · exact ⟨encodeF1_eq_or 0x2B#6 rd rs rt, sne_writesTruth⟩
  · exact ⟨encodeF4_eq_or 0x2E#6 rd rs imm, seqi_writesTruth⟩
  · exact ⟨encodeF4_eq_or 0x2F#6 rd rs imm, snei_writesTruth⟩

end Sys2Proof.Machine
end

section
/-! PROOFS. Which opcode of a pair is the unaligned instruction (48_unaligned.md Table R236): the word of format F8 as
a union of its fields, what decides between the two opcodes of a pair, and what both then decode to. -/

namespace Sys2Proof.Machine

/-! ### The words of format F8 -/

/-- Format F8 (30_encoding.md R109) as a union: opcode and the three fields, each at its place. -/
theorem encodeF8_eq_or (op : BitVec 6) (rt : Reg) (offset : Off16) (base : Reg) :
    encodeF8 op rt offset base = fieldAt op 26 ||| (fieldAt base 21 ||| fieldAt rt 16 ||| fieldAt offset 0) := by
  apply BitVec.eq_of_getLsbD_eq
  intro i hi
  simp only [encodeF8, fieldAt, BitVec.getLsbD_or, BitVec.getLsbD_shiftLeft, BitVec.getLsbD_setWidth]
  repeat rw [getLsbD_field]
  interval_cases i <;> simp

/-- Format F8 is read back field by field, whatever the opcode and the constructor. -/
theorem decodeF8_encodeF8 (op : BitVec 6) (rt : Reg) (offset : Off16) (base : Reg)
    (mk : Reg → Off16 → Reg → Instr) : decodeF8 (encodeF8 op rt offset base) mk = .ok (mk rt offset base) := by
  simp [decodeF8]

/-! ### The choice within a pair -/

section choice
variable {c : CvmCtl} {w : InsnWord} {b : BaseInstr} {unaligned nop : Reg → Off16 → Reg → Instr}

theorem useLeft_iff : c.useLeft = true ↔ c.usely = true ∨ c.le = false := by
  simp [CvmCtl.useLeft]

theorem decodeLeft_of_useLeft (hun : c.useun = true) (hl : c.useLeft = true) :
    decodeLeft c w b unaligned nop = decodeF8 w unaligned := by
  simp [decodeLeft, hun, hl]

theorem decodeLeft_of_not_useLeft (hun : c.useun = true) (hl : ¬ c.useLeft = true) :
    decodeLeft c w b unaligned nop = decodeF8 w nop := by
  simp [decodeLeft, hun, hl]

theorem decodeRight_of_useLeft (hun : c.useun = true) (hl : c.useLeft = true) :
    decodeRight c w b unaligned nop = decodeF8 w nop := by
  simp [decodeRight, hun, hl]

theorem decodeRight_of_not_useLeft (hun : c.useun = true) (hl : ¬ c.useLeft = true) :
    decodeRight c w b unaligned nop = decodeF8 w unaligned := by
  simp [decodeRight, hun, hl]

end choice

/-! ### What the words of a pair decode to -/

section pair
variable {c : CvmCtl} {op opL opR : BitVec 6} {bL bR : BaseInstr}
  {mk unalignedL nopL unalignedR nopR : Reg → Off16 → Reg → Instr}

/-- With these fields the word of `op` decodes under `c` to what `mk` makes of them. -/
def WordDecodes (c : CvmCtl) (op : BitVec 6) (mk : Reg → Off16 → Reg → Instr) (rt : Reg) (offset : Off16)
    (base : Reg) : Prop :=
  decodeWord c (fieldAt op 26 ||| (fieldAt base 21 ||| fieldAt rt 16 ||| fieldAt offset 0)) = .ok (mk rt offset base)

/-- An opcode whose words are all read in format F8. -/
theorem wordDecodes_of_decodeF8 (hop : ∀ {w}, opOf w = op → decodeWord c w = decodeF8 w mk) (rt : Reg)
    (offset : Off16) (base : Reg) : WordDecodes c op mk rt offset base := by
  rw [WordDecodes, ← encodeF8_eq_or, hop (opOf_encodeF8 ..), decodeF8_encodeF8]

/-- Where the left opcode is chosen, it is the unaligned instruction and the right one the NOP form. -/
theorem pair_of_useLeft (hun : c.useun = true) (hl : c.useLeft = true)
    (hL : ∀ {w}, opOf w = opL → decodeWord c w = decodeLeft c w bL unalignedL nopL)
    (hR : ∀ {w}, opOf w = opR → decodeWord c w = decodeRight c w bR unalignedR nopR)
    (rt : Reg) (offset : Off16) (base : Reg) :
    WordDecodes c opL unalignedL rt offset base ∧ WordDecodes c opR nopR rt offset base :=
  ⟨wordDecodes_of_decodeF8 (fun h => (hL h).trans (decodeLeft_of_useLeft hun hl)) rt offset base,
    wordDecodes_of_decodeF8 (fun h => (hR h).trans (decodeRight_of_useLeft hun hl)) rt offset base⟩

/-- Where the left opcode is not chosen, it is the NOP form and the right one the unaligned instruction. -/
theorem pair_of_not_useLeft (hun : c.useun = true) (hl : ¬ c.useLeft = true)
    (hL : ∀ {w}, opOf w = opL → decodeWord c w = decodeLeft c w bL unalignedL nopL)
    (hR : ∀ {w}, opOf w = opR → decodeWord c w = decodeRight c w bR unalignedR nopR)
    (rt : Reg) (offset : Off16) (base : Reg) :
    WordDecodes c opL nopL rt offset base ∧ WordDecodes c opR unalignedR rt offset base :=
  ⟨wordDecodes_of_decodeF8 (fun h => (hL h).trans (decodeLeft_of_not_useLeft hun hl)) rt offset base,
    wordDecodes_of_decodeF8 (fun h => (hR h).trans (decodeRight_of_not_useLeft hun hl)) rt offset base⟩

end pair

/-- Settles O6: one choice, `useLeft`, decides all four pairs of Table R236, and each word is its opcode joined with
the fields of format F8. -/
theorem unalignedOpcodeSelection : Obligations.UnalignedOpcodeSelection := by
  intro c rt offset base hun
  refine ⟨fun huse => ?left, fun huse => ?right⟩
  case left =>
    have hl : c.useLeft = true := useLeft_iff.mpr huse
    obtain ⟨huld, hldr⟩ := pair_of_useLeft hun hl decodeWord_ldl decodeWord_ldr rt offset base
    obtain ⟨hulw, hlwr⟩ := pair_of_useLeft hun hl decodeWord_lwl decodeWord_lwr rt offset base
    obtain ⟨husd, hsdr⟩ := pair_of_useLeft hun hl decodeWord_sdl decodeWord_sdr rt offset base
    obtain ⟨husw, hswr⟩ := pair_of_useLeft hun hl decodeWord_swl decodeWord_swr rt offset base
    exact ⟨huld, hldr, hulw, hlwr, husd, hsdr, husw, hswr⟩
  case right =>
    have hl : ¬ c.useLeft = true := mt useLeft_iff.mp huse
    obtain ⟨hldl, huld⟩ := pair_of_not_useLeft hun hl decodeWord_ldl decodeWord_ldr rt offset base
    obtain ⟨hlwl, hulw⟩ := pair_of_not_useLeft hun hl decodeWord_lwl decodeWord_lwr rt offset base
    obtain ⟨hsdl, husd⟩ := pair_of_not_useLeft hun hl decodeWord_sdl decodeWord_sdr rt offset base
    obtain ⟨hswl, husw⟩ := pair_of_not_useLeft hun hl decodeWord_swl decodeWord_swr rt offset base
    exact ⟨hldl, huld, hlwl, hulw, hsdl, husd, hswl, husw⟩

end Sys2Proof.Machine
end

section
/-! PROOFS. Which exceptions an instruction raises (60_exceptions.md Table R290, R291): what the outcome recorded by a
next state of `exec` can be, and that nothing of it applies to the fourteen instructions of R291. -/

namespace Sys2Proof.Machine

/-! ### What Admit answers for a load -/

section admission
variable {p : Admission} {a : Word} {n : Nat}

theorem AdmitRule.kind_of_matches {r : AdmitRule} {k : AccessKind} (h : r.matches a n k = true) : r.kind = k :=
  of_decide_eq_true (Bool.and_eq_true_iff.mp h).right

/-- The answer of Admit is its default or that of a rule for the same kind of access. -/
theorem Admission.answerFor_cases (p : Admission) (a : Word) (n : Nat) (k : AccessKind) :
    p.answerFor a n k = p.other ∨ ∃ r ∈ p.rules, r.kind = k ∧ p.answerFor a n k = r.answer := by
  unfold Admission.answerFor
  cases hfind : p.rules.find? (·.matches a n k) with
  | none => exact .inl rfl
  | some r =>
    have hmatch : r.matches a n k = true := by simpa using List.find?_some hfind
    exact .inr ⟨r, List.mem_of_find?_eq_some hfind, AdmitRule.kind_of_matches hmatch, rfl⟩

theorem Admission.wf_iff : p.wf = true ↔
    p.other ≠ .raise .tlbModified ∧ ∀ r ∈ p.rules, r.answer = .raise .tlbModified → r.kind = .store := by
  simp [Admission.wf, imp_iff_not_or]

/-- TLB Modified is for stores only (60_exceptions.md R293). -/
theorem Admission.ne_tlbModified_of_load {e : AddrExc} (hwf : p.wf = true)
    (h : p.answerFor a n .load = .raise e) : e ≠ .tlbModified := by
  rintro rfl
  obtain ⟨hother, hrules⟩ := Admission.wf_iff.mp hwf
  obtain hdefault | ⟨r, hmem, hkind, hanswer⟩ := p.answerFor_cases a n .load
  · exact hother (hdefault.symm.trans h)
  · have hstore := hrules r hmem (hanswer.symm.trans h)
    cases hkind.symm.trans hstore

end admission

/-! ### What an instruction can raise -/

/-- What it takes to raise an exception in `s`: to be reserved, to be a store, or to be a load of which Admit
answers a part with that exception. -/
def CanRaise (i : Instr) (s : State) : ExcCause → Prop
  | .reservedInstruction => Reserved i s
  | .access e =>
    isStore i = true ∨ (isLoad i = true ∧ ∃ q : Part, s.admission.answerFor q.addr q.len .load = .raise e)

section raising
variable {i : Instr} {s t : State} {c : ExcCause} {e : AddrExc}

/-- A next state of `exec` keeps the recorded outcome or records one the instruction can raise, with its own pc and
delay slot. -/
theorem exec_exception (h : exec i s = .next t) : t.exception = s.exception ∨
    ∃ c info, CanRaise i s c ∧ t.exception = some ⟨c, s.pc, s.delay.isSome, info⟩ := by
  cases exec_shape h with
  | reserved hres ht =>
    exact .inr ⟨.reservedInstruction, .insn (encode i), hres, by simp [ht, State.raiseReserved]⟩
  | wrote _ _ _ _ _ _ _ _ _ ht => exact .inl (by simp [ht])
  | branch _ _ _ _ _ ht => exact .inl (by simp [ht])
  | barrier _ _ ht => exact .inl (by simp [ht])
  | loadRaise e q hload hq ht => exact .inr ⟨.access e, .address q.addr, .inr ⟨hload, q, hq⟩, by simp [ht]⟩
  | store _ _ _ _ _ _ _ _ ht => exact .inl (by simp [ht])
  | storeRaise _ _ _ _ e a hstore _ _ _ ht => exact .inr ⟨.access e, .address a, .inl hstore, by simp [ht]⟩

theorem mayRaise_of_reserved (h : Reserved i s) : mayRaise i .reservedInstruction = true := by
  obtain ⟨h64, -⟩ | ⟨hmul, -⟩ := h
  · simp [mayRaise, h64]
  · simp [mayRaise, hmul]

theorem mayRaise_of_isStore (h : isStore i = true) : mayRaise i (.access e) = true := by
  cases e <;> simp [mayRaise, h]

theorem mayRaise_of_isLoad (h : isLoad i = true) (he : e ≠ .tlbModified) : mayRaise i (.access e) = true := by
  cases e
  case tlbModified => exact absurd rfl he
  all_goals simp [mayRaise, h]

/-- What an instruction can raise under a well-formed Admit, Table R290 lists for it. -/
theorem mayRaise_of_canRaise (hwf : s.admission.wf = true) (h : CanRaise i s c) : mayRaise i c = true := by
  cases c with
  | reservedInstruction => exact mayRaise_of_reserved h
  | access e =>
    obtain hstore | ⟨hload, q, hq⟩ := h
    · exact mayRaise_of_isStore hstore
    · exact mayRaise_of_isLoad hload (Admission.ne_tlbModified_of_load hwf hq)

end raising

/-- Settles O18: the recorded outcome is one the instruction can raise, since there was none before it. -/
theorem raisedExceptionIsListed : Obligations.RaisedExceptionIsListed := by
  intro i s t r hnone hwf hexec hr
  obtain hkept | ⟨c, info, hcan, hraised⟩ := exec_exception hexec
  · rw [hkept, hnone] at hr
    cases hr
  · obtain rfl : ⟨c, s.pc, s.delay.isSome, info⟩ = r := Option.some.inj (hraised.symm.trans hr)
    exact ⟨mayRaise_of_canRaise hwf hcan, rfl, rfl⟩

/-! ### The fourteen instructions of R291 -/

section fourteen
variable {i : Instr} {s : State}

/-- None of the fourteen tests the configuration or reaches memory. -/
theorem fourteen_test_nothing (hi : isOfTheFourteen i = true) :
    tests64 i = false ∧ testsMul i = false ∧ isLoad i = false ∧ isStore i = false := by
  cases i
  case baddu | bbit0 | bbit032 | bbit1 | bbit132 | pop | seq | seqi | sne | snei | synciobdma | syncs | syncw |
    syncws => exact ⟨rfl, rfl, rfl, rfl⟩
  all_goals cases hi

theorem not_canRaise_of_fourteen (hi : isOfTheFourteen i = true) (c : ExcCause) : ¬ CanRaise i s c := by
  obtain ⟨h64, hmul, hload, hstore⟩ := fourteen_test_nothing hi
  cases c with
  | reservedInstruction => simp [CanRaise, Reserved, h64, hmul]
  | access e => simp [CanRaise, hload, hstore]

/-- A branch goes on outside a delay slot and is unpredictable in one. -/
theorem branchOn_next_or_fault (cond : Bool) (offset : Off16) (s : State) :
    (∃ t, branchOn cond offset s = .next t) ∨
      (s.delay ≠ none ∧ branchOn cond offset s = .fault (.unpredictableOperation .branchInDelaySlot)) := by
  by_cases hd : s.delay = none
  · exact .inl ⟨_, branchOn_next.mpr ⟨hd, rfl⟩⟩
  · exact .inr ⟨hd, branchOn_fault (Option.isSome_iff_ne_none.mpr hd)⟩

/-- Each of the fourteen answers a next state, except a branch in a delay slot. -/
theorem fourteen_next_or_fault (hi : isOfTheFourteen i = true) (s : State) :
    (∃ t, exec i s = .next t) ∨
      (isBranch i = true ∧ s.delay ≠ none ∧
        exec i s = .fault (.unpredictableOperation .branchInDelaySlot)) := by
  cases i
  case baddu | pop | seq | seqi | sne | snei => exact .inl ⟨_, writeAndAdvance_next.mpr rfl⟩
  case synciobdma | syncs | syncw | syncws => exact .inl ⟨_, barrier_next.mpr rfl⟩
  case bbit0 | bbit032 | bbit1 | bbit132 => exact (branchOn_next_or_fault _ _ s).imp_right fun h => ⟨rfl, h⟩
  all_goals cases hi

end fourteen

/-- Settles O19: a next state of `exec` records nothing that the instruction cannot raise, and these can raise
nothing. -/
theorem fourteenRaiseNothing : Obligations.FourteenRaiseNothing := by
  intro i s hi
  refine (fourteen_next_or_fault hi s).imp_left fun ⟨t, ht⟩ => ⟨t, ht, ?kept⟩
  case kept =>
    obtain hkept | ⟨c, -, hcan, -⟩ := exec_exception ht
    · exact hkept
    · exact absurd hcan (not_canRaise_of_fourteen hi c)

end Sys2Proof.Machine
end

section
/-! PROOFS. The multiply-and-add instructions VMULU, VMM0 and V3MULU (49_vmul.md R265 to R274; 70_reset_and_hazards.md
Table R346): an exact sum fits the words that receive it, and the three share one shape behind the check of the
sequencing restrictions. -/

namespace Sys2Proof.Machine

/-! ### The words of an exact sum -/

/-- A product with one addend of the size of each factor stays below the product of the bounds. -/
theorem mul_add_add_lt {a b c d A B : Nat} (ha : a < A) (hb : b < B) (hc : c < B) (hd : d < A) :
    a * b + c + d < A * B := by
  obtain ⟨A, rfl⟩ := Nat.exists_eq_add_one_of_ne_zero (Nat.ne_zero_of_lt ha)
  obtain ⟨B, rfl⟩ := Nat.exists_eq_add_one_of_ne_zero (Nat.ne_zero_of_lt hb)
  have hab : a * b ≤ A * B := Nat.mul_le_mul (Nat.le_of_lt_succ ha) (Nat.le_of_lt_succ hb)
  calc a * b + c + d ≤ A * B + B + A := by omega
    _ < (A + 1) * (B + 1) := by linarith

/-- A sum below 2^128 is its low two words, none of its bits lost (49_vmul.md R273). -/
theorem two_limbs_eq {n : Nat} (h : n < 2 ^ 128) : (limb n 0).toNat + 2 ^ 64 * (limb n 1).toNat = n := by
  simp only [limb_toNat]
  omega

/-- A sum below 2^256 is its low four words, none of its bits lost (49_vmul.md R273). -/
theorem four_limbs_eq {n : Nat} (h : n < 2 ^ 256) :
    (limb n 0).toNat + 2 ^ 64 * (limb n 1).toNat + 2 ^ 128 * (limb n 2).toNat + 2 ^ 192 * (limb n 3).toNat = n := by
  simp only [limb_toNat]
  omega

section sums
variable (m : MulState) (a b : Word)

theorem MulState.sum1_eq : m.sum1 a b = m.p0.toNat + b.toNat + a.toNat * m.mpl0.toNat := by
  unfold MulState.sum1
  ring

theorem MulState.sum1_lt : m.sum1 a b < 2 ^ 128 :=
  (mul_add_add_lt a.isLt m.mpl0.isLt m.p0.isLt b.isLt).trans_eq (by norm_num)

theorem MulState.multiplier_eq :
    m.multiplier = m.mpl0.toNat + 2 ^ 64 * m.mpl1.toNat + 2 ^ 128 * m.mpl2.toNat := by
  unfold MulState.multiplier
  ring

theorem MulState.accumulator_eq :
    m.accumulator = m.p0.toNat + 2 ^ 64 * m.p1.toNat + 2 ^ 128 * m.p2.toNat := by
  unfold MulState.accumulator
  ring

theorem MulState.multiplier_lt : m.multiplier < 2 ^ 192 := by
  unfold MulState.multiplier
  omega

theorem MulState.accumulator_lt : m.accumulator < 2 ^ 192 := by
  unfold MulState.accumulator
  omega

theorem MulState.sum3_eq : m.sum3 a b = m.accumulator + b.toNat + a.toNat * m.multiplier := by
  unfold MulState.sum3
  ring

theorem MulState.sum3_lt : m.sum3 a b < 2 ^ 256 :=
  (mul_add_add_lt a.isLt m.multiplier_lt m.accumulator_lt b.isLt).trans_eq (by norm_num)

end sums

/-! ### The checks of Table R346 -/

section checks
variable {m : MulState}

theorem MulState.breaksVmulu_iff : m.breaksVmulu = true ↔ m.mtpDirty = true ∨ m.mseq = .afterV3mulu := by
  simp [MulState.breaksVmulu]

theorem MulState.breaksVmulu_eq_false (hdirty : m.mtpDirty = false) (hseq : m.mseq ≠ .afterV3mulu) :
    m.breaksVmulu = false := by
  simp [MulState.breaksVmulu, hdirty, hseq]

theorem MulState.breaksV3mulu_eq : m.breaksV3mulu = m.mtpDirty := rfl

end checks

/-! ### The shape of the three -/

/-- What a multiply does that is not reserved: a broken sequence is unpredictable; otherwise the low word of the sum
`n` goes to `rd`, and `u` is the state with the rest of the result. -/
def multiplyAdd (broken : Bool) (rd : Reg) (n : Nat) (u : State) : Host.Outcome State Fault Refusal :=
  if broken then .fault (.unpredictableOperation .multiplierSequence)
  else writeAndAdvance rd (limb n 0) u

section shape
variable {broken : Bool} {rd : Reg} {n k : Nat} {v : Word} {m : MulState} {s t u : State}

theorem multiplyAdd_faults (h : broken = true) :
    multiplyAdd broken rd n u = .fault (.unpredictableOperation .multiplierSequence) :=
  if_pos h

theorem multiplyAdd_completes (h : broken = false) :
    ∃ t, multiplyAdd broken rd n u = .next t ∧ WritesWithMul rd (limb n 0) u t ∧ t.mul = u.mul := by
  obtain ⟨hreg, hmem, hmul, hconfig, hrecord, hwent⟩ := State.onlyWrites_writeReg_advance u rd (limb n 0)
  exact ⟨_, if_neg (Bool.eq_false_iff.mp h), ⟨hreg, hmem, hconfig, hrecord, hwent⟩, hmul⟩

/-- The frame does not see the multiply state. -/
theorem writesWithMul_withMul : WritesWithMul rd v (s.withMul m) t ↔ WritesWithMul rd v s t := Iff.rfl

/-- The frame does not see the free values. -/
theorem writesWithMul_drew : WritesWithMul rd v (s.drew k) t ↔ WritesWithMul rd v s t := Iff.rfl

end shape

/-! ### The three instructions as uses of the shape -/

section meanings
variable (rd rs rt : Reg) (s : State)

theorem exec_vmulu : exec (.vmulu rd rs rt) s = needMul (.vmulu rd rs rt) (fun s =>
    multiplyAdd s.mul.breaksVmulu rd (s.mul.sum1 (s.readReg rs) (s.readReg rt))
      ((s.withMul (s.vmuluMul (s.mul.sum1 (s.readReg rs) (s.readReg rt)))).drew 4)) s := rfl

theorem exec_vmm0 : exec (.vmm0 rd rs rt) s = needMul (.vmm0 rd rs rt) (fun s =>
    multiplyAdd s.mul.breaksVmulu rd (s.mul.sum1 (s.readReg rs) (s.readReg rt))
      ((s.withMul (s.vmm0Mul rd (s.mul.sum1 (s.readReg rs) (s.readReg rt)))).drew 3)) s := rfl

theorem exec_v3mulu : exec (.v3mulu rd rs rt) s = needMul (.v3mulu rd rs rt) (fun s =>
    multiplyAdd s.mul.breaksV3mulu rd (s.mul.sum3 (s.readReg rs) (s.readReg rt))
      (s.withMul (s.v3muluMul (s.mul.sum3 (s.readReg rs) (s.readReg rt))))) s := rfl

/-- What V3MULU leaves of the multiply state, and the sequencing state it sets, whatever the sum. -/
theorem State.v3muluMul_sequence_and_kept (n : Nat) :
    (s.v3muluMul n).mpl0 = s.mul.mpl0 ∧ (s.v3muluMul n).mpl1 = s.mul.mpl1 ∧ (s.v3muluMul n).mpl2 = s.mul.mpl2 ∧
      (s.v3muluMul n).hi = s.mul.hi ∧ (s.v3muluMul n).lo = s.mul.lo ∧ (s.v3muluMul n).mseq = .afterV3mulu ∧
      (s.v3muluMul n).mtpDirty = false :=
  ⟨rfl, rfl, rfl, rfl, rfl, rfl, rfl⟩

end meanings

/-! ### The statements -/

/-- Settles O39: the sum is below 2^128, so x[rd] and P0 hold all of it. -/
theorem vmuluExactSum : Obligations.VmuluExactSum := by
  intro rd rs rt s h hn hdirty hseq
  rw [exec_vmulu, needMul_enabled h hn]
  obtain ⟨t, hnext, hframe, hm⟩ := multiplyAdd_completes (MulState.breaksVmulu_eq_false hdirty hseq)
  refine ⟨t, _, hnext, writesWithMul_withMul.mp (writesWithMul_drew.mp hframe), ?sum, ?kept⟩
  case sum =>
    rw [hm, State.drew_mul, State.withMul_mul, State.vmuluMul_p0, two_limbs_eq (MulState.sum1_lt ..), MulState.sum1_eq]
  case kept => simp [hm]

/-- Settles O40: the low word of the sum goes to x[rd] and, where `rd` is not 0, to MPL0. -/
theorem vmm0LowSumMoves : Obligations.Vmm0LowSumMoves := by
  intro rd rs rt s h hn hdirty hseq
  rw [exec_vmm0, needMul_enabled h hn]
  obtain ⟨t, hnext, hframe, hm⟩ := multiplyAdd_completes (MulState.breaksVmulu_eq_false hdirty hseq)
  refine ⟨t, _, hnext, writesWithMul_withMul.mp (writesWithMul_drew.mp hframe), ?low, fun hrd => ?mpl0, ?rest⟩
  case low => simp [limb_toNat, MulState.sum1_eq]
  case mpl0 => simp [hm, hrd]
  case rest => simp [hm]

/-- Settles O41: the sum is below 2^256, so x[rd] and P0 to P2 hold all of it. -/
theorem v3muluExactSum : Obligations.V3muluExactSum := by
  intro rd rs rt s h hn hdirty
  rw [exec_v3mulu, needMul_enabled h hn]
  obtain ⟨t, hnext, hframe, hm⟩ := multiplyAdd_completes (MulState.breaksV3mulu_eq.trans hdirty)
  refine ⟨t, _, hnext, writesWithMul_withMul.mp hframe, ?sum, ?kept⟩
  case sum =>
    rw [hm, State.withMul_mul, State.v3muluMul_p0, State.v3muluMul_p1, State.v3muluMul_p2,
      four_limbs_eq (MulState.sum3_lt ..), MulState.sum3_eq, MulState.accumulator_eq, MulState.multiplier_eq]
  case kept =>
    rw [hm, State.withMul_mul]
    exact State.v3muluMul_sequence_and_kept s _

/-- Settles O42: the check of each of the three fails as Table R346 says, and comes before everything but the test
of the multiplier unit. -/
theorem brokenSequenceFaults : Obligations.BrokenSequenceFaults := by
  intro rd rs rt s i h hn hbroken
  obtain ⟨rfl | rfl, hcheck⟩ | ⟨rfl, hdirty⟩ := hbroken
  · rw [exec_vmulu, needMul_enabled h hn, multiplyAdd_faults (MulState.breaksVmulu_iff.mpr hcheck)]
  · rw [exec_vmm0, needMul_enabled h hn, multiplyAdd_faults (MulState.breaksVmulu_iff.mpr hcheck)]
  · rw [exec_v3mulu, needMul_enabled h hn, multiplyAdd_faults (MulState.breaksV3mulu_eq.trans hdirty)]

end Sys2Proof.Machine
end

section
/-! PROOFS. The decoder and the encoder (30_encoding.md R102 to R117): per format, what its decoder reads from its
words, when it refuses a word, and that it answers only the instruction whose word it was given. -/

namespace Sys2Proof.Machine

/-! ### The opcodes that test no configuration -/

section opcodes
variable {c : CvmCtl} {w : InsnWord}

theorem decodeWord_special (h : opOf w = 0x00#6) : decodeWord c w = decodeSpecial w := by
  simp only [decodeWord, h]

theorem decodeWord_special2 (h : opOf w = 0x1C#6) : decodeWord c w = decodeSpecial2 w := by
  simp only [decodeWord, h]

theorem decodeWord_bbit0 (h : opOf w = 0x32#6) : decodeWord c w = decodeF7 w .bbit0 := by
  simp only [decodeWord, h]

theorem decodeWord_bbit032 (h : opOf w = 0x36#6) : decodeWord c w = decodeF7 w .bbit032 := by
  simp only [decodeWord, h]

theorem decodeWord_bbit1 (h : opOf w = 0x3A#6) : decodeWord c w = decodeF7 w .bbit1 := by
  simp only [decodeWord, h]

theorem decodeWord_bbit132 (h : opOf w = 0x3E#6) : decodeWord c w = decodeF7 w .bbit132 := by
  simp only [decodeWord, h]

theorem leftIsUnaligned_iff : c.leftIsUnaligned = true ↔ c.useun = true ∧ c.useLeft = true := by
  simp [CvmCtl.leftIsUnaligned]

theorem rightIsUnaligned_iff : c.rightIsUnaligned = true ↔ c.useun = true ∧ ¬ c.useLeft = true := by
  simp [CvmCtl.rightIsUnaligned]

end opcodes

/-! ### What a format's decoder reads from a word of the format

Each takes the row of the opcode map as a hypothesis: the words with this function value, or this opcode, are read by
this format's decoder. -/

section reads
variable {c : CvmCtl}

theorem decodeWord_encodeF1 {fn : BitVec 6} {mk : Reg → Reg → Reg → Instr}
    (hfn : ∀ {w}, fnOf w = fn → decodeSpecial2 w = decodeF1 w mk) (rd rs rt : Reg) :
    decodeWord c (encodeF1 fn rd rs rt) = .ok (mk rd rs rt) := by
  rw [decodeWord_special2 (opOf_encodeF1 ..), hfn (fnOf_encodeF1 ..)]
  simp [decodeF1, withZeros]

theorem decodeWord_encodeF2 {fn : BitVec 6} {mk : Reg → Reg → Instr}
    (hfn : ∀ {w}, fnOf w = fn → decodeSpecial2 w = decodeF2 w mk) (rd rs : Reg) :
    decodeWord c (encodeF2 fn rd rs) = .ok (mk rd rs) := by
  rw [decodeWord_special2 (opOf_encodeF2 ..), hfn (fnOf_encodeF2 ..)]
  simp [decodeF2, withZeros]

theorem decodeWord_encodeF3 {fn : BitVec 6} {mk : Reg → Reg → Pos → Pos → Instr}
    (hfn : ∀ {w}, fnOf w = fn → decodeSpecial2 w = decodeF3 w mk) (rt rs : Reg) (p lenm1 : Pos) :
    decodeWord c (encodeF3 fn rt rs p lenm1) = .ok (mk rt rs p lenm1) := by
  rw [decodeWord_special2 (opOf_encodeF3 ..), hfn (fnOf_encodeF3 ..)]
  simp [decodeF3]

theorem decodeWord_encodeF4 {fn : BitVec 6} {mk : Reg → Reg → Imm10 → Instr}
    (hfn : ∀ {w}, fnOf w = fn → decodeSpecial2 w = decodeF4 w mk) (rt rs : Reg) (imm : Imm10) :
    decodeWord c (encodeF4 fn rt rs imm) = .ok (mk rt rs imm) := by
  rw [decodeWord_special2 (opOf_encodeF4 ..), hfn (fnOf_encodeF4 ..)]
  simp [decodeF4]

theorem decodeWord_encodeF5 {fn : BitVec 6} {mk : Reg → Instr}
    (hfn : ∀ {w}, fnOf w = fn → decodeSpecial2 w = decodeF5 w mk) (rs : Reg) :
    decodeWord c (encodeF5 fn rs) = .ok (mk rs) := by
  rw [decodeWord_special2 (opOf_encodeF5 ..), hfn (fnOf_encodeF5 ..)]
  simp [decodeF5, withZeros]

theorem decodeWord_encodeF6 (stype : BitVec 5) : decodeWord c (encodeF6 stype) = decodeStype stype := by
  rw [decodeWord_special (opOf_encodeF6 stype)]
  simp [decodeSpecial]

theorem decodeWord_encodeF7 {op : BitVec 6} {mk : Reg → Pos → Off16 → Instr}
    (hop : ∀ {w}, opOf w = op → decodeWord c w = decodeF7 w mk) (rs : Reg) (p : Pos) (offset : Off16) :
    decodeWord c (encodeF7 op rs p offset) = .ok (mk rs p offset) := by
  rw [hop (opOf_encodeF7 ..)]
  simp [decodeF7]

theorem decodeWord_encodeF8 {op : BitVec 6} {mk : Reg → Off16 → Reg → Instr}
    (hop : ∀ {w}, opOf w = op → decodeWord c w = decodeF8 w mk) (rt : Reg) (offset : Off16) (base : Reg) :
    decodeWord c (encodeF8 op rt offset base) = .ok (mk rt offset base) := by
  rw [hop (opOf_encodeF8 ..), decodeF8_encodeF8]

/-- A left opcode of Table R113 is the unaligned instruction or the NOP form, whichever the configuration has. -/
theorem decodeWord_leftOpcode {op : BitVec 6} {b : BaseInstr} {unaligned nop : Reg → Off16 → Reg → Instr}
    (hop : ∀ {w}, opOf w = op → decodeWord c w = decodeLeft c w b unaligned nop) (rt : Reg) (offset : Off16)
    (base : Reg) :
    (c.leftIsUnaligned = true → decodeWord c (encodeF8 op rt offset base) = .ok (unaligned rt offset base)) ∧
    (c.rightIsUnaligned = true → decodeWord c (encodeF8 op rt offset base) = .ok (nop rt offset base)) := by
  refine ⟨fun hleft => ?unaligned, fun hright => ?nop⟩
  case unaligned =>
    obtain ⟨hun, hl⟩ := leftIsUnaligned_iff.mp hleft
    exact decodeWord_encodeF8 (fun h => (hop h).trans (decodeLeft_of_useLeft hun hl)) rt offset base
  case nop =>
    obtain ⟨hun, hl⟩ := rightIsUnaligned_iff.mp hright
    exact decodeWord_encodeF8 (fun h => (hop h).trans (decodeLeft_of_not_useLeft hun hl)) rt offset base

/-- A right opcode of Table R113, the other way round. -/
theorem decodeWord_rightOpcode {op : BitVec 6} {b : BaseInstr} {unaligned nop : Reg → Off16 → Reg → Instr}
    (hop : ∀ {w}, opOf w = op → decodeWord c w = decodeRight c w b unaligned nop) (rt : Reg) (offset : Off16)
    (base : Reg) :
    (c.rightIsUnaligned = true → decodeWord c (encodeF8 op rt offset base) = .ok (unaligned rt offset base)) ∧
    (c.leftIsUnaligned = true → decodeWord c (encodeF8 op rt offset base) = .ok (nop rt offset base)) := by
  refine ⟨fun hright => ?unaligned, fun hleft => ?nop⟩
  case unaligned =>
    obtain ⟨hun, hl⟩ := rightIsUnaligned_iff.mp hright
    exact decodeWord_encodeF8 (fun h => (hop h).trans (decodeRight_of_not_useLeft hun hl)) rt offset base
  case nop =>
    obtain ⟨hun, hl⟩ := leftIsUnaligned_iff.mp hleft
    exact decodeWord_encodeF8 (fun h => (hop h).trans (decodeRight_of_useLeft hun hl)) rt offset base

end reads

/-- Settles O1: by the format of the instruction. Only the opcodes of Table R113 ask the configuration, and there the
instruction that exists is the one the opcode stands for. -/
theorem decodeOfEncode : Obligations.DecodeOfEncode := by
  intro c i hwf
  cases i
  case dmul | vmulu | vmm0 | v3mulu | baddu | seq | sne =>
    exact decodeWord_encodeF1 (fun h => by simp only [decodeSpecial2, h]) _ _ _
  case pop | dpop => exact decodeWord_encodeF2 (fun h => by simp only [decodeSpecial2, h]) _ _
  case cins | cins32 | exts | exts32 =>
    exact decodeWord_encodeF3 (fun h => by simp only [decodeSpecial2, h]) _ _ _ _
  case seqi | snei => exact decodeWord_encodeF4 (fun h => by simp only [decodeSpecial2, h]) _ _ _
  case mtm0 | mtm1 | mtm2 | mtp0 | mtp1 | mtp2 =>
    exact decodeWord_encodeF5 (fun h => by simp only [decodeSpecial2, h]) _
  case synciobdma | syncs | syncw | syncws => exact decodeWord_encodeF6 _
  case bbit0 => exact decodeWord_encodeF7 decodeWord_bbit0 _ _ _
  case bbit032 => exact decodeWord_encodeF7 decodeWord_bbit032 _ _ _
  case bbit1 => exact decodeWord_encodeF7 decodeWord_bbit1 _ _ _
  case bbit132 => exact decodeWord_encodeF7 decodeWord_bbit132 _ _ _
  case uldLeft => exact (decodeWord_leftOpcode decodeWord_ldl _ _ _).left hwf
  case nopLdl => exact (decodeWord_leftOpcode decodeWord_ldl _ _ _).right hwf
  case ulwLeft => exact (decodeWord_leftOpcode decodeWord_lwl _ _ _).left hwf
  case nopLwl => exact (decodeWord_leftOpcode decodeWord_lwl _ _ _).right hwf
  case usdLeft => exact (decodeWord_leftOpcode decodeWord_sdl _ _ _).left hwf
  case nopSdl => exact (decodeWord_leftOpcode decodeWord_sdl _ _ _).right hwf
  case uswLeft => exact (decodeWord_leftOpcode decodeWord_swl _ _ _).left hwf
  case nopSwl => exact (decodeWord_leftOpcode decodeWord_swl _ _ _).right hwf
  case uldRight => exact (decodeWord_rightOpcode decodeWord_ldr _ _ _).left hwf
  case nopLdr => exact (decodeWord_rightOpcode decodeWord_ldr _ _ _).right hwf
  case ulwRight => exact (decodeWord_rightOpcode decodeWord_lwr _ _ _).left hwf
  case nopLwr => exact (decodeWord_rightOpcode decodeWord_lwr _ _ _).right hwf
  case usdRight => exact (decodeWord_rightOpcode decodeWord_sdr _ _ _).left hwf
  case nopSdr => exact (decodeWord_rightOpcode decodeWord_sdr _ _ _).right hwf
  case uswRight => exact (decodeWord_rightOpcode decodeWord_swr _ _ _).left hwf
  case nopSwr => exact (decodeWord_rightOpcode decodeWord_swr _ _ _).right hwf

/-! ### A format's decoder answers only the instruction whose word it was given -/

/-- The instruction stands for this word, and it exists under the configuration. -/
def StandsFor (c : CvmCtl) (w : InsnWord) (i : Instr) : Prop := encode i = w ∧ i.wf c = true

section answers
variable {c : CvmCtl} {w : InsnWord} {i : Instr} {fn : BitVec 6}

theorem standsFor_of_decodeF1 {mk : Reg → Reg → Reg → Instr} (hop : opOf w = 0x1C#6) (hfn : fnOf w = fn)
    (h : decodeF1 w mk = .ok i) (hmk : ∀ rd rs rt, StandsFor c (encodeF1 fn rd rs rt) (mk rd rs rt)) :
    StandsFor c w i := by
  obtain ⟨hzero, rfl⟩ := withZeros_eq_ok.mp h
  subst hfn
  simpa only [encodeF1_fields w hop (beq_iff_eq.mp hzero)] using hmk (rdOf w) (rsOf w) (rtOf w)

theorem standsFor_of_decodeF2 {mk : Reg → Reg → Instr} (hop : opOf w = 0x1C#6) (hfn : fnOf w = fn)
    (h : decodeF2 w mk = .ok i) (hmk : ∀ rd rs, StandsFor c (encodeF2 fn rd rs) (mk rd rs)) : StandsFor c w i := by
  obtain ⟨hzeros, rfl⟩ := withZeros_eq_ok.mp h
  obtain ⟨hrt, hsa⟩ := Bool.and_eq_true_iff.mp hzeros
  subst hfn
  simpa only [encodeF2_fields w hop (beq_iff_eq.mp hrt) (beq_iff_eq.mp hsa)] using hmk (rdOf w) (rsOf w)

theorem standsFor_of_decodeF3 {mk : Reg → Reg → Pos → Pos → Instr} (hop : opOf w = 0x1C#6) (hfn : fnOf w = fn)
    (h : decodeF3 w mk = .ok i) (hmk : ∀ rt rs p lenm1, StandsFor c (encodeF3 fn rt rs p lenm1) (mk rt rs p lenm1)) :
    StandsFor c w i := by
  cases h
  subst hfn
  simpa only [encodeF3_fields w hop] using hmk (rtOf w) (rsOf w) (saOf w) (rdOf w)

theorem standsFor_of_decodeF4 {mk : Reg → Reg → Imm10 → Instr} (hop : opOf w = 0x1C#6) (hfn : fnOf w = fn)
    (h : decodeF4 w mk = .ok i) (hmk : ∀ rt rs imm, StandsFor c (encodeF4 fn rt rs imm) (mk rt rs imm)) :
    StandsFor c w i := by
  cases h
  subst hfn
  simpa only [encodeF4_fields w hop] using hmk (rtOf w) (rsOf w) (immOf w)

theorem standsFor_of_decodeF5 {mk : Reg → Instr} (hop : opOf w = 0x1C#6) (hfn : fnOf w = fn)
    (h : decodeF5 w mk = .ok i) (hmk : ∀ rs, StandsFor c (encodeF5 fn rs) (mk rs)) : StandsFor c w i := by
  obtain ⟨hzero, rfl⟩ := withZeros_eq_ok.mp h
  subst hfn
  simpa only [encodeF5_fields w hop (beq_iff_eq.mp hzero)] using hmk (rsOf w)

theorem standsFor_of_decodeStype {stype : BitVec 5} (h : decodeStype stype = .ok i) :
    StandsFor c (encodeF6 stype) i := by
  unfold decodeStype at h
  split at h <;> cases h <;> exact ⟨rfl, rfl⟩

theorem standsFor_of_decodeF7 {op : BitVec 6} {mk : Reg → Pos → Off16 → Instr} (hop : opOf w = op)
    (h : decodeF7 w mk = .ok i) (hmk : ∀ rs p offset, StandsFor c (encodeF7 op rs p offset) (mk rs p offset)) :
    StandsFor c w i := by
  cases h
  subst hop
  simpa only [encodeF7_fields w] using hmk (rsOf w) (rtOf w) (offOf w)

theorem standsFor_of_decodeF8 {op : BitVec 6} {mk : Reg → Off16 → Reg → Instr} (hop : opOf w = op)
    (h : decodeF8 w mk = .ok i)
    (hmk : ∀ rt offset base, StandsFor c (encodeF8 op rt offset base) (mk rt offset base)) : StandsFor c w i := by
  cases h
  subst hop
  simpa only [encodeF8_fields w] using hmk (rtOf w) (offOf w) (rsOf w)

theorem standsFor_of_decodeSpecial2 (hop : opOf w = 0x1C#6) (h : decodeSpecial2 w = .ok i) : StandsFor c w i := by
  unfold decodeSpecial2 at h
  split at h
  case h_1 hfn | h_8 hfn | h_9 hfn | h_10 hfn | h_11 hfn | h_12 hfn | h_13 hfn =>
    exact standsFor_of_decodeF1 hop hfn h fun _ _ _ => ⟨rfl, rfl⟩
  case h_14 hfn | h_15 hfn => exact standsFor_of_decodeF2 hop hfn h fun _ _ => ⟨rfl, rfl⟩
  case h_18 hfn | h_19 hfn | h_20 hfn | h_21 hfn =>
    exact standsFor_of_decodeF3 hop hfn h fun _ _ _ _ => ⟨rfl, rfl⟩
  case h_16 hfn | h_17 hfn => exact standsFor_of_decodeF4 hop hfn h fun _ _ _ => ⟨rfl, rfl⟩
  case h_2 hfn | h_3 hfn | h_4 hfn | h_5 hfn | h_6 hfn | h_7 hfn =>
    exact standsFor_of_decodeF5 hop hfn h fun _ => ⟨rfl, rfl⟩
  case h_22 => cases h

theorem standsFor_of_decodeSpecial (hop : opOf w = 0x00#6) (h : decodeSpecial w = .ok i) : StandsFor c w i := by
  unfold decodeSpecial at h
  split_ifs at h with hfn hzero
  have hstype := standsFor_of_decodeStype (c := c) h
  rwa [encodeF6_fields w hop hzero hfn] at hstype

/-- Of an opcode of Table R113 the configuration picks the instruction that exists. -/
theorem standsFor_of_decodeLeft {op : BitVec 6} {b : BaseInstr} {unaligned nop : Reg → Off16 → Reg → Instr}
    (hop : opOf w = op) (h : decodeLeft c w b unaligned nop = .ok i)
    (hmk : ∀ rt offset base,
      (c.leftIsUnaligned = true → StandsFor c (encodeF8 op rt offset base) (unaligned rt offset base)) ∧
      (c.rightIsUnaligned = true → StandsFor c (encodeF8 op rt offset base) (nop rt offset base))) :
    StandsFor c w i := by
  unfold decodeLeft at h
  split_ifs at h with hun hl
  · exact standsFor_of_decodeF8 hop h fun rt offset base =>
      (hmk rt offset base).left (leftIsUnaligned_iff.mpr ⟨hun, hl⟩)
  · exact standsFor_of_decodeF8 hop h fun rt offset base =>
      (hmk rt offset base).right (rightIsUnaligned_iff.mpr ⟨hun, hl⟩)

theorem standsFor_of_decodeRight {op : BitVec 6} {b : BaseInstr} {unaligned nop : Reg → Off16 → Reg → Instr}
    (hop : opOf w = op) (h : decodeRight c w b unaligned nop = .ok i)
    (hmk : ∀ rt offset base,
      (c.rightIsUnaligned = true → StandsFor c (encodeF8 op rt offset base) (unaligned rt offset base)) ∧
      (c.leftIsUnaligned = true → StandsFor c (encodeF8 op rt offset base) (nop rt offset base))) :
    StandsFor c w i := by
  unfold decodeRight at h
  split_ifs at h with hun hl
  · exact standsFor_of_decodeF8 hop h fun rt offset base =>
      (hmk rt offset base).right (leftIsUnaligned_iff.mpr ⟨hun, hl⟩)
  · exact standsFor_of_decodeF8 hop h fun rt offset base =>
      (hmk rt offset base).left (rightIsUnaligned_iff.mpr ⟨hun, hl⟩)

end answers

/-- Settles O2: by the row of the opcode map that reads the word. -/
theorem encodeOfDecode : Obligations.EncodeOfDecode := by
  intro c w i h
  unfold decodeWord at h
  split at h
  case h_1 hop => exact standsFor_of_decodeSpecial hop h
  case h_2 hop => exact standsFor_of_decodeSpecial2 hop h
  case h_3 hop | h_4 hop | h_5 hop | h_6 hop => exact standsFor_of_decodeF7 hop h fun _ _ _ => ⟨rfl, rfl⟩
  case h_7 hop | h_9 hop | h_11 hop | h_13 hop =>
    exact standsFor_of_decodeLeft hop h fun _ _ _ => ⟨fun hwf => ⟨rfl, hwf⟩, fun hwf => ⟨rfl, hwf⟩⟩
  case h_8 hop | h_10 hop | h_12 hop | h_14 hop =>
    exact standsFor_of_decodeRight hop h fun _ _ _ => ⟨fun hwf => ⟨rfl, hwf⟩, fun hwf => ⟨rfl, hwf⟩⟩
  case h_15 => cases h

/-! ### Words as bytes -/

/-- Four bytes are read as the word whose value they hold. -/
theorem decodeBytes_append {c : CvmCtl} {bs rest : List Byte} (hlen : bs.length = 4) :
    decodeBytes c (bs ++ rest) =
      (decodeWord c (BitVec.ofNat 32 (bytesToNat c.le bs))).map fun i => (i, rest) := by
  obtain ⟨b0, b1, b2, b3, rfl⟩ := List.length_eq_four.mp hlen
  simp only [List.cons_append, List.nil_append, decodeBytes]
  cases decodeWord c (BitVec.ofNat 32 (bytesToNat c.le [b0, b1, b2, b3])) <;> rfl

theorem ofNat_bytesToNat_natToBytes (le : Bool) (w : InsnWord) :
    BitVec.ofNat 32 (bytesToNat le (natToBytes le 4 w.toNat)) = w := by
  have hlt : w.toNat < 256 ^ 4 := w.isLt.trans_eq (by norm_num)
  rw [bytesToNat_natToBytes, Nat.mod_eq_of_lt hlt, BitVec.ofNat_toNat, BitVec.setWidth_eq]

/-- Settles O3: the four bytes have the value of the word, in either byte order. -/
theorem decodeOfStoredBytes : Obligations.DecodeOfStoredBytes := by
  intro c w rest
  rw [decodeBytes_append (natToBytes_length ..), ofNat_bytesToNat_natToBytes]
  cases decodeWord c w <;> rfl

/-- Settles O4: each word is the encoding of the instruction the spec names, and that instruction exists under the
configuration. -/
theorem specWordsDecode : Obligations.SpecWordsDecode := by
  intro c hun hly
  have hleft (hle : c.le = false) : c.leftIsUnaligned = true :=
    leftIsUnaligned_iff.mpr ⟨hun, useLeft_iff.mpr (.inr hle)⟩
  have hright (hle : c.le = true) : c.rightIsUnaligned = true :=
    rightIsUnaligned_iff.mpr ⟨hun, by simp [useLeft_iff, hly, hle]⟩
  exact ⟨decodeOfEncode c (.baddu 3#5 1#5 2#5) rfl, decodeOfEncode c (.bbit0 2#5 3#5 0xFFFE#16) rfl,
    decodeOfEncode c (.bbit132 5#5 31#5 0x8000#16) rfl, decodeOfEncode c (.cins 2#5 1#5 8#5 15#5) rfl,
    decodeOfEncode c (.exts32 2#5 1#5 8#5 15#5) rfl, decodeOfEncode c (.dmul 3#5 1#5 2#5) rfl,
    decodeOfEncode c (.pop 3#5 1#5) rfl, decodeOfEncode c (.mtm1 4#5) rfl,
    decodeOfEncode c (.snei 2#5 1#5 0x200#10) rfl, decodeOfEncode c .syncws rfl,
    decodeOfEncode c (.v3mulu 3#5 1#5 2#5) rfl,
    fun hle => decodeOfEncode c (.uldLeft 6#5 0xFFFD#16 4#5) (hleft hle),
    fun hle => decodeOfEncode c (.uldRight 6#5 0xFFFD#16 4#5) (hright hle)⟩

/-! ### Zero fields that are not zero -/

section refused
variable {w : InsnWord}

theorem decodeF1_refused {mk : Reg → Reg → Reg → Instr} (h : saOf w ≠ 0#5) :
    decodeF1 w mk = .error (.reservedField (fnOf w)) := by
  simp [decodeF1, withZeros, h]

theorem decodeF2_refused {mk : Reg → Reg → Instr} (h : rtOf w ≠ 0#5 ∨ saOf w ≠ 0#5) :
    decodeF2 w mk = .error (.reservedField (fnOf w)) := by
  obtain h | h := h <;> simp [decodeF2, withZeros, h]

theorem decodeF5_refused {mk : Reg → Instr} (h : f5ZeroOf w ≠ 0#15) :
    decodeF5 w mk = .error (.reservedField (fnOf w)) := by
  simp [decodeF5, withZeros, h]

theorem decodeSpecial_refused (hfn : fnOf w = 0x0F#6) (h : f6ZeroOf w ≠ 0#15) :
    decodeSpecial w = .error (.reservedField 0x0F#6) := by
  simp [decodeSpecial, hfn, h]

/-- The functions of format F1 in Table R111. -/
theorem decodeSpecial2_refused_F1 (h : fnOf w ∈ [0x03#6, 0x0F#6, 0x10#6, 0x11#6, 0x28#6, 0x2A#6, 0x2B#6])
    (hsa : saOf w ≠ 0#5) : decodeSpecial2 w = .error (.reservedField (fnOf w)) := by
  simp only [List.mem_cons, List.not_mem_nil, or_false] at h
  obtain h | h | h | h | h | h | h := h <;> simp only [decodeSpecial2, h, decodeF1_refused hsa]

/-- The functions of format F2 in Table R111. -/
theorem decodeSpecial2_refused_F2 (h : fnOf w ∈ [0x2C#6, 0x2D#6]) (hz : rtOf w ≠ 0#5 ∨ saOf w ≠ 0#5) :
    decodeSpecial2 w = .error (.reservedField (fnOf w)) := by
  simp only [List.mem_cons, List.not_mem_nil, or_false] at h
  obtain h | h := h <;> simp only [decodeSpecial2, h, decodeF2_refused hz]

/-- The functions of format F5 in Table R111. -/
theorem decodeSpecial2_refused_F5 (h : fnOf w ∈ [0x08#6, 0x09#6, 0x0A#6, 0x0B#6, 0x0C#6, 0x0D#6])
    (hz : f5ZeroOf w ≠ 0#15) : decodeSpecial2 w = .error (.reservedField (fnOf w)) := by
  simp only [List.mem_cons, List.not_mem_nil, or_false] at h
  obtain h | h | h | h | h | h := h <;> simp only [decodeSpecial2, h, decodeF5_refused hz]

end refused

/-- Settles O7: by the format of the function, whose decoder tests its zero fields before it answers. -/
theorem reservedFieldsRefused : Obligations.ReservedFieldsRefused := by
  intro c w
  refine ⟨fun hop => ⟨fun hfn hsa => ?f1, fun hfn hz => ?f2, fun hfn hz => ?f5⟩, fun hop hfn hz => ?f6⟩
  case f1 => exact (decodeWord_special2 hop).trans (decodeSpecial2_refused_F1 hfn hsa)
  case f2 => exact (decodeWord_special2 hop).trans (decodeSpecial2_refused_F2 hfn hz)
  case f5 => exact (decodeWord_special2 hop).trans (decodeSpecial2_refused_F5 hfn hz)
  case f6 => exact (decodeWord_special hop).trans (decodeSpecial_refused hfn hz)

end Sys2Proof.Machine
end

section
/-! PROOFS. The step (70_reset_and_hazards.md R354; 60_exceptions.md R296 to R299): when there is an instruction to
run, and what there is in place of a step where there is none. -/

namespace Sys2Proof.Machine

section fetch
variable {s t : State}

/-! ### The tests of a fetch, in their order (log 31) -/

theorem State.fetch_halted (h : s.haltPc = some s.pc ∧ s.delay = none) : s.fetch = .error .halted := by
  simp [State.fetch, h]

theorem State.fetch_misaligned (hhalt : ¬ (s.haltPc = some s.pc ∧ s.delay = none)) (hpc : s.pc.toNat % 4 ≠ 0) :
    s.fetch = .error .misalignedPc := by
  rw [State.fetch, if_neg hhalt, if_pos hpc]

theorem State.fetch_outsideText (hhalt : ¬ (s.haltPc = some s.pc ∧ s.delay = none)) (hpc : s.pc.toNat % 4 = 0)
    (htext : s.withinText s.pc 4 = false) : s.fetch = .error .fetchOutsideText := by
  rw [State.fetch, if_neg hhalt, if_neg (not_not.mpr hpc), if_pos htext]

theorem State.fetch_notAdmitted (hhalt : ¬ (s.haltPc = some s.pc ∧ s.delay = none)) (hpc : s.pc.toNat % 4 = 0)
    (htext : s.withinText s.pc 4 = true) (hadm : s.admission.answerFor s.pc 4 .fetch ≠ .ok) :
    s.fetch = .error .fetchNotAdmitted := by
  rw [State.fetch, if_neg hhalt, if_neg (not_not.mpr hpc), if_neg (by simp [htext]), if_pos hadm]

/-- Where every test passes, the fetch is what the bytes at pc decode to. -/
theorem State.fetch_decodes (hhalt : ¬ (s.haltPc = some s.pc ∧ s.delay = none)) (hpc : s.pc.toNat % 4 = 0)
    (htext : s.withinText s.pc 4 = true) (hadm : s.admission.answerFor s.pc 4 .fetch = .ok) :
    (∀ i rest, decodeBytes s.cvmCtl s.fetchBytes = .ok (i, rest) → s.fetch = .ok i) ∧
    (∀ r, decodeBytes s.cvmCtl s.fetchBytes = .error r → s.fetch = .error (.undecodable r)) := by
  rw [State.fetch, if_neg hhalt, if_neg (not_not.mpr hpc), if_neg (by simp [htext]), if_neg (not_not.mpr hadm)]
  exact ⟨fun i rest h => by rw [h], fun r h => by rw [h]⟩

/-! ### The step by what the fetch answers -/

theorem step_of_exception {r : ExceptionRecord} (h : s.exception = some r) :
    step s = .fault (.stoppedByException r) := by
  simp [step, h]

theorem step_of_fetch_ok {i : Instr} (hexc : s.exception = none) (h : s.fetch = .ok i) : step s = exec i s := by
  simp [step, hexc, h]

theorem step_of_fetch_error {r : Refusal} (hexc : s.exception = none) (h : s.fetch = .error r) :
    step s = .refused r := by
  simp [step, hexc, h]

/-- A step that answers a next state is one of `exec`, from a state that has recorded no exception. -/
theorem exec_of_step (h : step s = .next t) : s.exception = none ∧ ∃ i, exec i s = .next t := by
  cases hexc : s.exception with
  | some r => cases (step_of_exception hexc).symm.trans h
  | none =>
    cases hfetch : s.fetch with
    | error r => cases (step_of_fetch_error hexc hfetch).symm.trans h
    | ok i => exact ⟨rfl, i, (step_of_fetch_ok hexc hfetch).symm.trans h⟩

end fetch

/-- Settles O8: every test of the fetch passes. -/
theorem stepRunsDecodedInstruction : Obligations.StepRunsDecodedInstruction := by
  intro s i rest hexc hhalt hpc htext hadm hdecode
  obtain ⟨hok, -⟩ := State.fetch_decodes hhalt hpc htext hadm
  exact step_of_fetch_ok hexc (hok i rest hdecode)

/-- Settles O9: each clause is the first test of the fetch that fails. -/
theorem stepRefusesWithoutInstruction : Obligations.StepRefusesWithoutInstruction := by
  intro s hexc
  refine ⟨fun hhalt => ?halted, fun hhalt => ⟨fun hpc => ?misaligned, fun hpc => ⟨fun htext => ?outside,
    fun htext => ⟨fun hadm => ?notAdmitted, fun hadm r hdecode => ?undecodable⟩⟩⟩⟩
  case halted => exact step_of_fetch_error hexc (State.fetch_halted hhalt)
  case misaligned => exact step_of_fetch_error hexc (State.fetch_misaligned hhalt hpc)
  case outside => exact step_of_fetch_error hexc (State.fetch_outsideText hhalt hpc htext)
  case notAdmitted => exact step_of_fetch_error hexc (State.fetch_notAdmitted hhalt hpc htext hadm)
  case undecodable =>
    obtain ⟨-, herror⟩ := State.fetch_decodes hhalt hpc htext hadm
    exact step_of_fetch_error hexc (herror r hdecode)

/-- A run of at least one step stops at once where the step is a fault. -/
theorem run_of_step_fault {M : Host.Core} {s : M.State} {r : M.Fault} (h : M.step s = .fault r) (n : Nat) :
    M.run (n + 1) s = .fault r := by
  simp [Host.Core.run, h]

/-- Settles O10: the first of the steps is already the fault. -/
theorem recordedExceptionStopsRun : Obligations.RecordedExceptionStopsRun := fun _ _ n h =>
  run_of_step_fault (M := Sys2Proof.core) (step_of_exception h) n

end Sys2Proof.Machine
end

section
/-! PROOFS. What every step keeps and what it may write: the configuration, the history, memory and the program text,
the invariant (10_state.md R24, R30, R36; 20_memory.md R79; 47_sync.md R220), each by the shape of the next state. -/

namespace Sys2Proof.Machine

/-! ### What a store leaves -/

section stores
variable {p : Admission} {m : Memory} {ea a : Word} {n : Nat} {bs : List Byte} {i : Instr} {s t : State}

/-- The bytes outside a run, and those outside a longer one, read as before. -/
theorem Memory.read_writeBytes_of_length_le (hlen : bs.length ≤ n) (ha : ∀ k < n, a ≠ ea + BitVec.ofNat 64 k) :
    (m.writeBytes ea bs).read a.toNat = m.read a.toNat :=
  m.read_writeBytes_outside ea a bs fun k hk => ha k (hk.trans_le hlen)

/-- A store that completes changes no byte outside it. -/
theorem storeParts_done_outside {m' : Memory} (hlen : bs.length = n)
    (h : storeParts p m (accessParts ea n) bs = .done m') (ha : ∀ k < n, a ≠ ea + BitVec.ofNat 64 k) :
    m'.read a.toNat = m.read a.toNat := by
  rw [storeParts_done hlen h]
  exact Memory.read_writeBytes_of_length_le hlen.le ha

/-- Nor does a store that raises. -/
theorem storeParts_raised_outside {m' : Memory} {e : AddrExc} {b : Word} (hlen : bs.length = n)
    (h : storeParts p m (accessParts ea n) bs = .raised m' e b) (ha : ∀ k < n, a ≠ ea + BitVec.ofNat 64 k) :
    m'.read a.toNat = m.read a.toNat := by
  obtain ⟨rfl, -⟩ | ⟨-, rfl, -⟩ := storeParts_raised h
  · rfl
  · refine Memory.read_writeBytes_of_length_le ?_ ha
    simp [hlen]

/-- The store of `n` bytes at `ea`, as the access an instruction asks for. -/
theorem StoresAt.accessOf (h : StoresAt i s ea n) : s.accessOf i = some (ea, n, .store) := by
  obtain ⟨rt, offset, base, rfl, ⟨rfl, rfl | rfl⟩ | ⟨rfl, rfl | rfl⟩⟩ := h <;> rfl

/-- A next state of `exec` has the memory before it, or is that of a store clear of the program text, completed or
raising, and has it outside the stored bytes. -/
theorem exec_mem (h : exec i s = .next t) : SameMem s t ∨
    ∃ ea n, isStore i = true ∧ s.accessOf i = some (ea, n, .store) ∧ ClearOfText s ea n ∧ SameMemOutside ea n s t := by
  cases exec_shape h with
  | reserved _ ht => exact .inl fun _ => by rw [ht]; rfl
  | wrote _ _ _ _ _ _ _ _ _ ht => exact .inl fun _ => by rw [ht]; rfl
  | branch _ _ _ _ _ ht => exact .inl fun _ => by rw [ht]; rfl
  | barrier _ _ ht => exact .inl fun _ => by rw [ht]; rfl
  | loadRaise _ _ _ _ ht => exact .inl fun _ => by rw [ht]; rfl
  | store ea n m v hstore hclear hat hm ht =>
    refine .inr ⟨ea, n, hstore, hat.accessOf, hclear, fun a ha => ?_⟩
    rw [ht]
    exact storeParts_done_outside (natToBytes_length ..) hm ha
  | storeRaise ea n m v e b hstore hclear hat hm ht =>
    refine .inr ⟨ea, n, hstore, hat.accessOf, hclear, fun a ha => ?_⟩
    rw [ht]
    exact storeParts_raised_outside (natToBytes_length ..) hm ha

end stores

/-- Settles O16: what a store writes stands at the access it asks for. -/
theorem onlyStoresWriteMemory : Obligations.OnlyStoresWriteMemory := by
  intro i s t h
  obtain hsame | ⟨ea, n, hstore, haccess, -, houtside⟩ := exec_mem h
  · exact ⟨fun _ => hsame, fun _ _ _ => ⟨fun _ a _ => hsame a, fun _ a _ => hsame a⟩⟩
  · refine ⟨fun hnot => ?notStore, fun rt offset base => ⟨fun hi => ?doubleword, fun hi => ?word⟩⟩
    case notStore => cases hnot.symm.trans hstore
    case doubleword => obtain rfl | rfl := hi <;> cases haccess <;> exact houtside
    case word => obtain rfl | rfl := hi <;> cases haccess <;> exact houtside

/-! ### The configuration -/

theorem exec_sameConfig {i : Instr} {s t : State} (h : exec i s = .next t) : SameConfig s t := by
  cases exec_shape h with
  | reserved _ ht => rw [ht]; exact SameConfig.refl s
  | wrote _ _ _ _ _ _ _ _ _ ht => rw [ht]; exact SameConfig.refl s
  | branch _ _ _ _ _ ht => rw [ht]; exact SameConfig.refl s
  | barrier _ _ ht => rw [ht]; exact SameConfig.refl s
  | loadRaise _ _ _ _ ht => rw [ht]; exact SameConfig.refl s
  | store _ _ _ _ _ _ _ _ ht => rw [ht]; exact SameConfig.refl s
  | storeRaise _ _ _ _ _ _ _ _ _ _ ht => rw [ht]; exact SameConfig.refl s

/-- Settles O14: no shape of a next state writes the configuration. -/
theorem stepKeepsConfiguration : Obligations.StepKeepsConfiguration := by
  intro s t h
  obtain ⟨-, i, hexec⟩ := exec_of_step h
  exact exec_sameConfig hexec

/-! ### The program text -/

/-- An access clear of the text has none of its bytes at an address of the text. -/
theorem ClearOfText.ne_of_inText {s : State} {ea a : Word} {n : Nat} (hclear : ClearOfText s ea n)
    (ha : s.inText a = true) : ∀ k < n, a ≠ ea + BitVec.ofNat 64 k := by
  rintro k hk rfl
  cases (hclear k hk).symm.trans ha

/-- Settles O15: only a store writes memory, and it is clear of the text even where it raises; the addresses of the
text are part of the configuration. -/
theorem stepKeepsProgramText : Obligations.StepKeepsProgramText := by
  intro s t a h ha
  obtain ⟨-, i, hexec⟩ := exec_of_step h
  obtain ⟨-, -, -, -, htext, -⟩ := exec_sameConfig hexec
  refine ⟨?byte, ?member⟩
  case byte =>
    obtain hsame | ⟨ea, n, -, -, hclear, houtside⟩ := exec_mem hexec
    · exact hsame a
    · exact houtside a (hclear.ne_of_inText ha)
  case member => rw [State.inText, htext]; exact ha

/-! ### The history -/

/-- An instruction that tests the configuration, reaches memory or branches is no barrier. -/
theorem barrierEvent_eq_nil {i : Instr}
    (h : (tests64 i || testsMul i || isLoad i || isStore i || isBranch i) = true) : barrierEvent i = [] := by
  cases i
  case synciobdma | syncs | syncw | syncws => cases h
  all_goals rfl

theorem Reserved.barrierEvent {i : Instr} {s : State} (h : Reserved i s) : barrierEvent i = [] := by
  obtain ⟨h64, -⟩ | ⟨hmul, -⟩ := h
  · exact barrierEvent_eq_nil (by simp [h64])
  · exact barrierEvent_eq_nil (by simp [hmul])

/-- Settles O17: a barrier's shape appends its event, every other shape appends none and is no barrier's. -/
theorem historyRecordsBarriers : Obligations.HistoryRecordsBarriers := by
  intro i s t h
  cases exec_shape h with
  | reserved hres ht => simp [ht, State.raiseReserved, hres.barrierEvent]
  | wrote _ _ _ _ _ hnone _ _ _ ht => simp [ht, hnone]
  | branch _ _ _ hbranch _ ht => simp [ht, barrierEvent_eq_nil (i := i) (by simp [hbranch])]
  | barrier b hb ht => simp [ht, hb]
  | loadRaise _ _ hload _ ht => simp [ht, barrierEvent_eq_nil (i := i) (by simp [hload])]
  | store _ _ _ _ hstore _ _ _ ht => simp [ht, barrierEvent_eq_nil (i := i) (by simp [hstore])]
  | storeRaise _ _ _ _ _ _ hstore _ _ _ ht => simp [ht, barrierEvent_eq_nil (i := i) (by simp [hstore])]

/-! ### The delay slot -/

theorem State.nextPc_of_delay {s : State} {d : Word} (h : s.delay = some d) : s.nextPc = d := by
  simp [State.nextPc, h]

/-- Settles O23: a shape that does not raise ends in `advance` of a state with the pc and the delay state before it,
but for a branch, which has no next state in a delay slot. -/
theorem delaySlotGoesToTarget : Obligations.DelaySlotGoesToTarget := by
  intro s t d hd h hexc
  obtain ⟨-, i, hexec⟩ := exec_of_step h
  cases exec_shape hexec with
  | reserved _ ht => simp [ht, State.raiseReserved] at hexc
  | wrote _ _ _ _ _ _ _ _ _ ht => rw [ht]; exact ⟨State.nextPc_of_delay hd, rfl⟩
  | branch _ _ hnone _ _ _ => cases hnone.symm.trans hd
  | barrier _ _ ht => rw [ht]; exact ⟨State.nextPc_of_delay hd, rfl⟩
  | loadRaise _ _ _ _ ht => simp [ht] at hexc
  | store _ _ _ _ _ _ _ _ ht => rw [ht]; exact ⟨State.nextPc_of_delay hd, rfl⟩
  | storeRaise _ _ _ _ _ _ _ _ _ _ ht => simp [ht] at hexc

/-! ### The invariant -/

section invariant
variable {s : State}

/-- Addresses that differ by a multiple of 4 are aligned together, the address space being a multiple of 4 as well. -/
theorem toNat_add_mod_four {a b : Word} (ha : a.toNat % 4 = 0) (hb : b.toNat % 4 = 0) : (a + b).toNat % 4 = 0 := by
  rw [BitVec.toNat_add]
  omega

theorem branchOffset_mod_four (offset : Off16) : (branchOffset offset).toNat % 4 = 0 := by
  rw [branchOffset_eq, BitVec.toNat_ofInt]
  omega

theorem branchTarget_mod_four {pc : Word} (offset : Off16) (h : pc.toNat % 4 = 0) :
    (branchTarget pc offset).toNat % 4 = 0 :=
  toNat_add_mod_four (toNat_add_mod_four h rfl) (branchOffset_mod_four offset)

theorem State.nextPc_mod_four (hpc : s.pc.toNat % 4 = 0) (hd : ∀ t : Word, s.delay = some t → t.toNat % 4 = 0) :
    s.nextPc.toNat % 4 = 0 := by
  cases hdelay : s.delay with
  | none => simpa [State.nextPc, hdelay] using toNat_add_mod_four hpc (b := 4#64) rfl
  | some d => rw [State.nextPc_of_delay hdelay]; exact hd d hdelay

/-- No write reaches the cell of register 0. -/
theorem State.writeReg_cell_zero (r : Reg) (v : Word) (h : s.regs[0] = 0#64) : (s.writeReg r v).regs[0] = 0#64 := by
  by_cases hr : r = 0#5
  · simp [hr, h]
  · have hne : r.toNat ≠ 0 := fun hz => hr (BitVec.eq_of_toNat_eq hz)
    simp [hr, hne, h]

/-- Raising an exception writes what the last clause speaks of and nothing else. -/
theorem State.Inv.raise (h : s.Inv) (c : ExcCause) (x : ExcInfo) : (s.raise c x).Inv := by
  obtain ⟨hmem, hzero, hpc, hd, hseq, hadm, -⟩ := h
  refine ⟨hmem, hzero, hpc, hd, hseq, hadm, fun r hr => ?_⟩
  cases hr
  exact ⟨rfl, rfl⟩

theorem State.Inv.withMem (h : s.Inv) {m : Memory} (hm : m.wf = true) : (s.withMem m).Inv := by
  obtain ⟨-, hzero, hpc, hd, hseq, hadm, hexc⟩ := h
  exact ⟨hm, hzero, hpc, hd, hseq, hadm, hexc⟩

theorem State.Inv.recordBarrier (h : s.Inv) (e : BarrierEvent) : (s.recordBarrier e).Inv := h

theorem State.Inv.writeReg (h : s.Inv) (r : Reg) (v : Word) : (s.writeReg r v).Inv := by
  obtain ⟨hmem, hzero, hrest⟩ := h
  exact ⟨hmem, State.writeReg_cell_zero r v hzero, hrest⟩

/-- Going on keeps the invariant while no outcome is recorded: a recorded one names the pc it stopped at. -/
theorem State.Inv.advance (h : s.Inv) (hexc : s.exception = none) : s.advance.Inv := by
  obtain ⟨hmem, hzero, hpc, hd, hseq, hadm, -⟩ := h
  exact ⟨hmem, hzero, State.nextPc_mod_four hpc hd, by simp, hseq, hadm, by simp [hexc]⟩

theorem State.Inv.enterDelaySlot (h : s.Inv) (hexc : s.exception = none) {d : Word} (hd : d.toNat % 4 = 0) :
    (s.enterDelaySlot d).Inv := by
  obtain ⟨hmem, hzero, hpc, -, hseq, hadm, -⟩ := h
  exact ⟨hmem, hzero, toNat_add_mod_four hpc rfl, by rintro t ⟨⟩; exact hd, hseq, hadm, by simp [hexc]⟩

/-- A new multiply state must be dirty only while not Loaded; free values are of no account. -/
theorem State.Inv.withMul_drew (h : s.Inv) {m : MulState} (hm : m.mtpDirty = true → m.mseq ≠ .loaded) (n : Nat) :
    ((s.withMul m).drew n).Inv := by
  obtain ⟨hmem, hzero, hpc, hd, -, hadm, hexc⟩ := h
  exact ⟨hmem, hzero, hpc, hd, hm, hadm, hexc⟩

theorem exec_keeps_inv {i : Instr} {t : State} (hinv : s.Inv) (hexc : s.exception = none)
    (h : exec i s = .next t) : t.Inv := by
  obtain ⟨hmem, -, hpc, -, hseq, -, -⟩ := id hinv
  cases exec_shape h with
  | reserved _ ht => rw [ht]; exact hinv.raise _ _
  | wrote r v m n hm _ _ _ _ ht =>
    rw [ht]
    have hdirty (hd : m.mtpDirty = true) : m.mseq ≠ .loaded := fun hl =>
      have ⟨hloaded, hset⟩ := hm hl hd
      hseq hset hloaded
    exact ((hinv.withMul_drew hdirty n).writeReg r v).advance hexc
  | branch offset d _ _ htarget ht =>
    rw [ht]
    refine hinv.enterDelaySlot hexc ?_
    obtain rfl | rfl := htarget
    · exact branchTarget_mod_four offset hpc
    · exact toNat_add_mod_four hpc rfl
  | barrier e _ ht => rw [ht]; exact (hinv.recordBarrier e).advance hexc
  | loadRaise _ _ _ _ ht => rw [ht]; exact hinv.raise _ _
  | store ea n m v _ _ _ hm ht =>
    rw [ht]
    exact (hinv.withMem (storeParts_keeps_wf (natToBytes_length ..) hmem (.inl hm))).advance hexc
  | storeRaise ea n m v e a _ _ _ hm ht =>
    rw [ht]
    exact (hinv.withMem (storeParts_keeps_wf (natToBytes_length ..) hmem (.inr ⟨e, a, hm⟩))).raise _ _

end invariant

/-- Settles O11: each shape of a next state is a chain of operations that keep the invariant. -/
theorem stepKeepsInv : Obligations.StepKeepsInv := by
  intro s t hinv h
  obtain ⟨hexc, i, hexec⟩ := exec_of_step h
  exact exec_keeps_inv hinv hexc hexec

end Sys2Proof.Machine
end

section
/-! PROOFS. Exceptions and stops (60_exceptions.md R290 to R297, R317): what a raised exception leaves, when an
instruction is reserved, and every way `exec` ends without a next state. -/

namespace Sys2Proof.Machine

/-! ### What a raised exception leaves -/

/-- Nothing is changed but memory and the recorded outcome. -/
def KeepsAllButMem (s t : State) : Prop :=
  SameRegs s t ∧ t.mul = s.mul ∧ t.pc = s.pc ∧ t.delay = s.delay ∧ SameConfig s t ∧ t.history = s.history

section raised
variable {i : Instr} {s t : State} {ea : Word} {n : Nat} {first : Part} {others : List Part}

theorem State.keepsAllButMem_raise (s : State) (m : Memory) (c : ExcCause) (x : ExcInfo) :
    KeepsAllButMem s ((s.withMem m).raise c x) :=
  ⟨fun _ => rfl, rfl, rfl, rfl, SameConfig.refl s, rfl⟩

theorem accessParts_crossing (h : 8 < ea.toNat % 8 + n) : accessParts ea n =
    [⟨ea, 8 - ea.toNat % 8⟩, ⟨ea + BitVec.ofNat 64 (8 - ea.toNat % 8), n - (8 - ea.toNat % 8)⟩] :=
  if_neg (Nat.not_le.mpr h)

/-- A store that raises has written within its first part, and nothing unless the part after it is the one that
raised. -/
theorem storeParts_raised_first {p : Admission} {m m' : Memory} {bs : List Byte} {e : AddrExc} {a : Word}
    (h : storeParts p m (accessParts ea n) bs = .raised m' e a) (hparts : accessParts ea n = first :: others) :
    (∀ b : Word, (∀ k < first.len, b ≠ first.addr + BitVec.ofNat 64 k) → m'.read b.toNat = m.read b.toNat) ∧
      (m' = m ∨ ∃ q ∈ others, a = q.addr) := by
  obtain ⟨rfl, -⟩ | ⟨hcross, rfl, rfl⟩ := storeParts_raised h
  · exact ⟨fun _ _ => rfl, .inl rfl⟩
  · rw [accessParts_crossing hcross] at hparts
    cases hparts
    exact ⟨fun b hb => Memory.read_writeBytes_of_length_le (List.length_take_le ..) hb,
      .inr ⟨_, List.mem_singleton_self _, rfl⟩⟩

/-- A next state that has recorded a new outcome is one of the three raising shapes: the state before it but for
memory, and for a store the memory as `storeParts_raised_first` says. -/
theorem exec_raises {r : ExceptionRecord} (hexc : s.exception = none) (h : exec i s = .next t)
    (hr : t.exception = some r) : KeepsAllButMem s t ∧
      (SameMem s t ∨ ∃ ea n, isStore i = true ∧ s.accessOf i = some (ea, n, .store) ∧
        ∀ first others, accessParts ea n = first :: others →
          SameMemOutside first.addr first.len s t ∧ (SameMem s t ∨ ∃ q ∈ others, r.info = .address q.addr)) := by
  have none_of (he : t.exception = s.exception) : False := by
    rw [he, hexc] at hr
    cases hr
  cases exec_shape h with
  | reserved _ ht => rw [ht]; exact ⟨s.keepsAllButMem_raise s.mem _ _, .inl fun _ => rfl⟩
  | loadRaise _ _ _ _ ht => rw [ht]; exact ⟨s.keepsAllButMem_raise s.mem _ _, .inl fun _ => rfl⟩
  | storeRaise ea n m v e a hstore _ hat hm ht =>
    subst ht
    refine ⟨s.keepsAllButMem_raise m _ _, .inr ⟨ea, n, hstore, hat.accessOf, fun first others hparts => ?_⟩⟩
    cases hr
    obtain ⟨houtside, hkept | ⟨q, hq, rfl⟩⟩ := storeParts_raised_first hm hparts
    · exact ⟨houtside, .inl fun b => by simp [hkept, State.readByte]⟩
    · exact ⟨houtside, .inr ⟨q, hq, rfl⟩⟩
  | wrote _ _ _ _ _ _ _ _ _ ht => exact (none_of (by rw [ht]; rfl)).elim
  | branch _ _ _ _ _ ht => exact (none_of (by rw [ht]; rfl)).elim
  | barrier _ _ ht => exact (none_of (by rw [ht]; rfl)).elim
  | store _ _ _ _ _ _ _ _ ht => exact (none_of (by rw [ht]; rfl)).elim

end raised

/-- Settles O20: the three raising shapes change nothing but memory and the outcome, and only that of a store whose
second part raised changes memory, within its first part. -/
theorem exceptionLeavesStateBefore : Obligations.ExceptionLeavesStateBefore := by
  intro i s t r hexc h hr
  obtain ⟨⟨hregs, hmul, hpc, hdelay, hconfig, hhistory⟩, hmem⟩ := exec_raises hexc h hr
  refine ⟨hregs, hmul, hpc, hdelay, hconfig, hhistory, ?_⟩
  obtain hsame | ⟨ea, n, hstore, haccess, hfirst⟩ := hmem
  · exact ⟨fun _ => hsame, fun _ _ _ _ _ _ => ⟨fun a _ => hsame a, fun _ => hsame⟩⟩
  · refine ⟨fun hnot => ?notStore, fun ea' n' haccess' first others hparts => ?store⟩
    case notStore => cases hnot.symm.trans hstore
    case store =>
      cases haccess.symm.trans haccess'
      obtain ⟨houtside, hkept⟩ := hfirst first others hparts
      refine ⟨houtside, fun hinfo => hkept.resolve_right ?_⟩
      rintro ⟨q, hq, hq'⟩
      exact hinfo q hq hq'

/-! ### The instructions behind a test of the configuration -/

section meanings
variable {i : Instr} {rt : Reg} {offset : Off16} {base : Reg}

theorem exec_dmul (rd rs rt : Reg) (s : State) : exec (.dmul rd rs rt) s = need64 (.dmul rd rs rt) (fun s =>
    writeAndAdvance rd (BitVec.ofInt 64 ((s.readReg rs).toInt * (s.readReg rt).toInt))
      ((s.withMul s.dmulMul).drew 5)) s := rfl

theorem exec_dpop (rd rs : Reg) (s : State) : exec (.dpop rd rs) s = need64 (.dpop rd rs) (fun s =>
    writeAndAdvance rd (BitVec.ofNat 64 (popcount (s.readReg rs) 64)) s) s := rfl

theorem exec_uld (hi : i = .uldLeft rt offset base ∨ i = .uldRight rt offset base) (s : State) :
    exec i s = need64 i (fun s =>
      loadUnaligned rt (effectiveAddress (s.readReg base) offset) 8 (BitVec.ofNat 64) s) s := by
  obtain rfl | rfl := hi <;> rfl

theorem exec_ulw (hi : i = .ulwLeft rt offset base ∨ i = .ulwRight rt offset base) (s : State) :
    exec i s = loadUnaligned rt (effectiveAddress (s.readReg base) offset) 4
      (fun v => (BitVec.ofNat 32 v).signExtend 64) s := by
  obtain rfl | rfl := hi <;> rfl

theorem exec_usd (hi : i = .usdLeft rt offset base ∨ i = .usdRight rt offset base) (s : State) :
    exec i s = need64 i (fun s =>
      storeUnaligned (effectiveAddress (s.readReg base) offset) 8 (s.readReg rt) s) s := by
  obtain rfl | rfl := hi <;> rfl

theorem exec_usw (hi : i = .uswLeft rt offset base ∨ i = .uswRight rt offset base) (s : State) :
    exec i s = storeUnaligned (effectiveAddress (s.readReg base) offset) 4 (s.readReg rt) s := by
  obtain rfl | rfl := hi <;> rfl

/-- The test of `ops64` is the first thing in the meaning of each instruction that has one. -/
theorem exec_of_tests64 (h : tests64 i = true) : ∃ f, ∀ s, exec i s = need64 i f s := by
  cases i
  case cins => exact ⟨_, exec_cins _ _ _ _⟩
  case cins32 => exact ⟨_, exec_cins32 _ _ _ _⟩
  case exts => exact ⟨_, exec_exts _ _ _ _⟩
  case exts32 => exact ⟨_, exec_exts32 _ _ _ _⟩
  case dmul => exact ⟨_, exec_dmul _ _ _⟩
  case dpop => exact ⟨_, exec_dpop _ _⟩
  case uldLeft => exact ⟨_, exec_uld (.inl rfl)⟩
  case uldRight => exact ⟨_, exec_uld (.inr rfl)⟩
  case usdLeft => exact ⟨_, exec_usd (.inl rfl)⟩
  case usdRight => exact ⟨_, exec_usd (.inr rfl)⟩
  all_goals cases h

/-- So is the test of the multiplier unit. -/
theorem exec_of_testsMul (h : testsMul i = true) : ∃ f, ∀ s, exec i s = needMul i f s := by
  cases i
  case mtm0 => exact ⟨_, exec_mtm0 _⟩
  case mtm1 => exact ⟨_, exec_mtm1 _⟩
  case mtm2 => exact ⟨_, exec_mtm2 _⟩
  case mtp0 => exact ⟨_, exec_mtp0 _⟩
  case mtp1 => exact ⟨_, exec_mtp1 _⟩
  case mtp2 => exact ⟨_, exec_mtp2 _⟩
  case v3mulu => exact ⟨_, exec_v3mulu _ _ _⟩
  case vmm0 => exact ⟨_, exec_vmm0 _ _ _⟩
  case vmulu => exact ⟨_, exec_vmulu _ _ _⟩
  all_goals cases h

end meanings

/-! ### Reserved Instruction -/

/-- A reserved instruction raises Reserved Instruction before it does anything. -/
theorem exec_of_reserved {i : Instr} {s : State} (h : Reserved i s) : exec i s = .next (s.raiseReserved i) := by
  obtain ⟨h64, hoff⟩ | ⟨hmul, hoff⟩ := h
  · obtain ⟨f, hf⟩ := exec_of_tests64 h64
    rw [hf, need64_disabled hoff]
  · obtain ⟨f, hf⟩ := exec_of_testsMul hmul
    rw [hf, needMul_disabled hoff]

/-- Settles O21: a reserved instruction raises, and an outcome that is Reserved Instruction comes of nothing else. -/
theorem reservedInstructionExactly : Obligations.ReservedInstructionExactly := by
  intro i s hexc
  refine ⟨fun hres => ⟨_, exec_of_reserved hres, rfl⟩, fun hnot t r h hr hcause => ?_⟩
  obtain hkept | ⟨c, info, hcan, hraised⟩ := exec_exception h
  · rw [hkept, hexc] at hr
    cases hr
  · obtain rfl : ⟨c, s.pc, s.delay.isSome, info⟩ = r := Option.some.inj (hraised.symm.trans hr)
    obtain rfl : c = .reservedInstruction := hcause
    exact hnot hcan

/-! ### Where there is no next state -/

section stops
variable {i j : Instr} {s : State} {ea : Word} {n : Nat} {f : State → Host.Outcome State Fault Refusal}

theorem not_reserved_of_tests_nothing (h64 : tests64 i = false) (hmul : testsMul i = false) : ¬ Reserved i s := by
  simp [Reserved, h64, hmul]

theorem not_reserved_of_ops64 (hmul : testsMul i = false) (h : s.ops64 = true) : ¬ Reserved i s := by
  simp [Reserved, hmul, h]

theorem stopsAsNamed_next (t : State) : StopsAsNamed i s (.next t) := trivial

theorem stopsAsNamed_branchOn (hi : isBranch i = true) (c : Bool) (offset : Off16) :
    StopsAsNamed i s (branchOn c offset s) := by
  obtain ⟨t, ht⟩ | ⟨hd, hf⟩ := branchOn_next_or_fault c offset s
  · rw [ht]; exact stopsAsNamed_next t
  · rw [hf]; exact ⟨hi, hd⟩

theorem stopsAsNamed_doublewordNopForm (hi : isDoublewordNop i = true) : StopsAsNamed i s (doublewordNopForm s) := by
  cases h : s.ops64 with
  | true => rw [doublewordNopForm_next.mpr ⟨h, rfl⟩]; exact stopsAsNamed_next _
  | false =>
    rw [doublewordNopForm, State.enabled64, h]
    exact ⟨hi, h⟩

/-- The test of `ops64` adds no way to stop. -/
theorem stopsAsNamed_need64 (hf : s.ops64 = true → StopsAsNamed i s (f s)) : StopsAsNamed i s (need64 j f s) := by
  cases h : s.ops64 with
  | true => rw [need64_enabled h]; exact hf h
  | false => rw [need64_disabled h]; exact stopsAsNamed_next _

/-- Nor does the test of the multiplier unit. -/
theorem stopsAsNamed_needMul (hf : s.ops64 = true → s.cvmCtl.nomul = false → StopsAsNamed i s (f s)) :
    StopsAsNamed i s (needMul j f s) := by
  by_cases h : s.ops64 = true ∧ s.cvmCtl.nomul = false
  · obtain ⟨hops, hmul⟩ := h
    rw [needMul_enabled hops hmul]; exact hf hops hmul
  · rw [needMul_next.mpr (.inr ⟨h, rfl⟩)]; exact stopsAsNamed_next _

/-- A multiply stops where its check fails, which must be a condition that the statement allows. -/
theorem stopsAsNamed_multiplyAdd (hi : isMultiply i = true) (h : s.ops64 = true) (hn : s.cvmCtl.nomul = false)
    {broken : Bool} {rd : Reg} {u : State}
    (hbroken : broken = true →
      s.mul.mtpDirty = true ∨ (s.mul.mseq = .afterV3mulu ∧ ∀ rd rs rt : Reg, i ≠ .v3mulu rd rs rt)) :
    StopsAsNamed i s (multiplyAdd broken rd n u) := by
  cases hb : broken with
  | true => rw [multiplyAdd_faults rfl]; exact ⟨hi, h, hn, hbroken hb⟩
  | false =>
    obtain ⟨t, ht, -⟩ := multiplyAdd_completes (rd := rd) (n := n) (u := u) rfl
    rw [ht]; exact stopsAsNamed_next t

theorem stopsAsNamed_load {rt : Reg} {val : Nat → Word} (hi : s.accessOf i = some (ea, n, .load))
    (hres : ¬ Reserved i s) : StopsAsNamed i s (loadUnaligned rt ea n val s) := by
  cases h : loadUnaligned rt ea n val s with
  | next t => exact stopsAsNamed_next t
  | refused r =>
    obtain ⟨rfl, hfirst⟩ := loadUnaligned_refused.mp h
    exact ⟨ea, n, .load, hi, hres, nofun, hfirst⟩
  | fault r =>
    unfold loadUnaligned at h
    split at h <;> cases h

theorem stopsAsNamed_store {v : Word} (hi : s.accessOf i = some (ea, n, .store)) (hres : ¬ Reserved i s) :
    StopsAsNamed i s (storeUnaligned ea n v s) := by
  cases h : storeUnaligned ea n v s with
  | next t => exact stopsAsNamed_next t
  | refused r =>
    obtain ⟨rfl, htext⟩ | ⟨rfl, hclear, hfirst⟩ := storeUnaligned_refused.mp h
    · exact ⟨ea, n, hi, hres, htext⟩
    · exact ⟨ea, n, .store, hi, hres, fun _ => hclear, hfirst⟩
  | fault r =>
    unfold storeUnaligned at h
    split at h
    next => cases h
    next => split at h <;> cases h

theorem stopsAsNamed_mulMove {rs : Reg} (hi : IsMulMove rs i) : StopsAsNamed i s (exec i s) := by
  obtain ⟨m, hm⟩ := exec_mulMove hi
  rw [hm]
  exact stopsAsNamed_needMul fun _ _ => stopsAsNamed_next _

theorem stopsAsNamed_exec (i : Instr) (s : State) : StopsAsNamed i s (exec i s) := by
  cases i
  case baddu | pop | seq | seqi | sne | snei | synciobdma | syncs | syncw | syncws | nopLwr | nopLwl | nopSwr |
    nopSwl => exact stopsAsNamed_next _
  case bbit0 | bbit032 | bbit1 | bbit132 => exact stopsAsNamed_branchOn rfl _ _
  case nopLdr | nopLdl | nopSdr | nopSdl => exact stopsAsNamed_doublewordNopForm rfl
  case cins => rw [exec_cins]; exact stopsAsNamed_need64 fun _ => stopsAsNamed_next _
  case exts => rw [exec_exts]; exact stopsAsNamed_need64 fun _ => stopsAsNamed_next _
  case dmul => rw [exec_dmul]; exact stopsAsNamed_need64 fun _ => stopsAsNamed_next _
  case dpop => rw [exec_dpop]; exact stopsAsNamed_need64 fun _ => stopsAsNamed_next _
  case cins32 => rw [exec_cins32]; exact stopsAsNamed_need64 fun _ => by split <;> exact stopsAsNamed_next _
  case exts32 => rw [exec_exts32]; exact stopsAsNamed_need64 fun _ => by split <;> exact stopsAsNamed_next _
  case mtm0 rs | mtm1 rs | mtm2 rs | mtp0 rs | mtp1 rs | mtp2 rs =>
    exact stopsAsNamed_mulMove (rs := rs) (by simp [IsMulMove])
  case v3mulu =>
    rw [exec_v3mulu]
    exact stopsAsNamed_needMul fun h hn => stopsAsNamed_multiplyAdd rfl h hn .inl
  case vmm0 =>
    rw [exec_vmm0]
    exact stopsAsNamed_needMul fun h hn => stopsAsNamed_multiplyAdd rfl h hn fun hb =>
      (MulState.breaksVmulu_iff.mp hb).imp_right fun hseq => ⟨hseq, nofun⟩
  case vmulu =>
    rw [exec_vmulu]
    exact stopsAsNamed_needMul fun h hn => stopsAsNamed_multiplyAdd rfl h hn fun hb =>
      (MulState.breaksVmulu_iff.mp hb).imp_right fun hseq => ⟨hseq, nofun⟩
  case uldLeft rt offset base | uldRight rt offset base =>
    rw [exec_uld (rt := rt) (offset := offset) (base := base) (by simp)]
    exact stopsAsNamed_need64 fun h => stopsAsNamed_load rfl (not_reserved_of_ops64 rfl h)
  case ulwLeft rt offset base | ulwRight rt offset base =>
    rw [exec_ulw (rt := rt) (offset := offset) (base := base) (by simp)]
    exact stopsAsNamed_load rfl (not_reserved_of_tests_nothing rfl rfl)
  case usdLeft rt offset base | usdRight rt offset base =>
    rw [exec_usd (rt := rt) (offset := offset) (base := base) (by simp)]
    exact stopsAsNamed_need64 fun h => stopsAsNamed_store rfl (not_reserved_of_ops64 rfl h)
  case uswLeft rt offset base | uswRight rt offset base =>
    rw [exec_usw (rt := rt) (offset := offset) (base := base) (by simp)]
    exact stopsAsNamed_store rfl (not_reserved_of_tests_nothing rfl rfl)

/-- An instruction that tests `ops64` and is not reserved has it. -/
theorem ops64_of_not_reserved (h64 : tests64 i = true) (hres : ¬ Reserved i s) : s.ops64 = true :=
  Bool.eq_true_of_not_eq_false fun h => hres (.inl ⟨h64, h⟩)

theorem exec_of_noStepAccess (h : NoStepAccess i s) : exec i s = .refused .accessNotAdmitted := by
  obtain ⟨ea, n, k, haccess, hres, hclear, hfirst⟩ := h
  cases i
  case uldLeft rt offset base | uldRight rt offset base =>
    cases haccess
    rw [exec_uld (rt := rt) (offset := offset) (base := base) (by simp),
      need64_enabled (ops64_of_not_reserved rfl hres)]
    exact loadUnaligned_refused.mpr ⟨rfl, hfirst⟩
  case ulwLeft rt offset base | ulwRight rt offset base =>
    cases haccess
    rw [exec_ulw (rt := rt) (offset := offset) (base := base) (by simp)]
    exact loadUnaligned_refused.mpr ⟨rfl, hfirst⟩
  case usdLeft rt offset base | usdRight rt offset base =>
    cases haccess
    rw [exec_usd (rt := rt) (offset := offset) (base := base) (by simp),
      need64_enabled (ops64_of_not_reserved rfl hres)]
    exact storeUnaligned_refused.mpr (.inr ⟨rfl, hclear rfl, hfirst⟩)
  case uswLeft rt offset base | uswRight rt offset base =>
    cases haccess
    rw [exec_usw (rt := rt) (offset := offset) (base := base) (by simp)]
    exact storeUnaligned_refused.mpr (.inr ⟨rfl, hclear rfl, hfirst⟩)
  all_goals cases haccess

end stops

/-- Settles O22: the ways to stop of each meaning are those of the shared shapes it is made of. -/
theorem execStopsAsNamed : Obligations.ExecStopsAsNamed := fun i s =>
  ⟨stopsAsNamed_exec i s, exec_of_noStepAccess⟩

end Sys2Proof.Machine
end

section
/-! PROOFS. BADDU, DMUL and DPOP (40_baddu.md R140; 43_dmul.md R175; 44_popcount.md R180), and EXTS32 where it stands
with EXTS (42_bitfield.md R163): the values they write as the statements spell them. -/

namespace Sys2Proof.Machine

/-- The low byte of a sum of words is the sum of the words modulo 256. -/
theorem lowByte_add (a b : Word) :
    ((a + b).setWidth 8).setWidth 64 = BitVec.ofNat 64 ((a.toNat + b.toNat) % 256) := by
  apply BitVec.eq_of_toNat_eq
  simp only [BitVec.toNat_setWidth, BitVec.toNat_add, BitVec.toNat_ofNat]
  omega

theorem exec_baddu (rd rs rt : Reg) (s : State) : exec (.baddu rd rs rt) s =
    writeAndAdvance rd (((s.readReg rs + s.readReg rt).setWidth 8).setWidth 64) s := rfl

/-- Settles O24: BADDU tests nothing, and x[rd] is all it writes. -/
theorem badduAddsBytes : Obligations.BadduAddsBytes := by
  intro rd rs rt s
  rw [exec_baddu, lowByte_add]
  exact ⟨_, writeAndAdvance_next.mpr rfl, s.onlyWrites_writeReg_advance rd _⟩

section product
variable (a b : Word)

/-- The low word of the signed product differs from the product by a multiple of 2^64. -/
theorem dvd_lowProduct_sub :
    (2 : Int) ^ 64 ∣ (BitVec.ofInt 64 (a.toInt * b.toInt)).toInt - a.toInt * b.toInt := by
  rw [BitVec.toInt_ofInt]
  exact Int.dvd_bmod_sub_self

/-- It is the low word of the unsigned product as well. -/
theorem lowProduct_toNat : (BitVec.ofInt 64 (a.toInt * b.toInt)).toNat = a.toNat * b.toNat % 2 ^ 64 := by
  rw [BitVec.ofInt_mul, BitVec.ofInt_toInt, BitVec.ofInt_toInt, BitVec.toNat_mul]

end product

/-- Settles O25: DMUL draws its free values before it writes x[rd], and none of them is a register the statement
keeps. -/
theorem dmulMultiplies : Obligations.DmulMultiplies := by
  intro rd rs rt s
  refine ⟨encodeF1_eq_or 0x03#6 rd rs rt, fun h => ?reserved, fun h => ?completes⟩
  case reserved => rw [exec_dmul]; exact need64_raises h
  case completes =>
    obtain ⟨hreg, hmem, -, hconfig, hrecord, hwent⟩ := State.onlyWrites_writeReg_advance
      ((s.withMul s.dmulMul).drew 5) rd (BitVec.ofInt 64 ((s.readReg rs).toInt * (s.readReg rt).toInt))
    refine ⟨_, _, (exec_dmul rd rs rt s).trans (need64_enabled h),
      writesWithMul_withMul.mp (writesWithMul_drew.mp ⟨hreg, hmem, hconfig, hrecord, hwent⟩),
      dvd_lowProduct_sub .., lowProduct_toNat .., ?_⟩
    simp

/-- Settles O27: the model's recursive count over all bits is the count over their positions. -/
theorem dpopCountsOnes : Obligations.DpopCountsOnes := by
  intro rd rs s h
  rw [exec_dpop, ← popcount_eq_countP]
  exact need64_writes h

/-- Settles O34: as EXTS from bit p + 32 where the field fits; a free value where it passes bit 63. -/
theorem exts32ExtractsField : Obligations.Exts32ExtractsField := by
  intro rt rs p lenm1 s h
  by_cases hfit : p.toNat + 32 + lenm1.toNat ≤ 63
  · obtain ⟨t, ht, hw⟩ := exec_exts32_writes_of_fits (rt := rt) (rs := rs) h hfit
    exact ⟨t, _, ht, hw, fun _ j hj => getLsbD_extractField (s.readReg rs) (p.toNat + 32) lenm1.toNat hj⟩
  · obtain ⟨t, ht, hw⟩ := exec_exts32_writes_of_overruns (rt := rt) (rs := rs) h (Nat.lt_of_not_le hfit)
    exact ⟨t, _, ht, hw, fun hfits => absurd hfits hfit⟩

end Sys2Proof.Machine
end

section
/-! PROOFS. The branches on a bit (41_bbit.md R145 to R152): the one shape of the four, the target, and its range. -/

namespace Sys2Proof.Machine

section meanings
variable (rs : Reg) (p : Pos) (offset : Off16) (s : State)

theorem exec_bbit0 :
    exec (.bbit0 rs p offset) s = branchOn (!(s.readReg rs).getLsbD p.toNat) offset s := rfl

theorem exec_bbit032 :
    exec (.bbit032 rs p offset) s = branchOn (!(s.readReg rs).getLsbD (p.toNat + 32)) offset s := rfl

theorem exec_bbit1 :
    exec (.bbit1 rs p offset) s = branchOn ((s.readReg rs).getLsbD p.toNat) offset s := rfl

theorem exec_bbit132 :
    exec (.bbit132 rs p offset) s = branchOn ((s.readReg rs).getLsbD (p.toNat + 32)) offset s := rfl

/-- The instructions called branches are these four. -/
theorem exec_of_isBranch {i : Instr} (h : isBranch i = true) :
    ∃ (taken : State → Bool) (offset : Off16), ∀ s, exec i s = branchOn (taken s) offset s := by
  cases i
  case bbit0 rs p offset => exact ⟨_, offset, exec_bbit0 rs p offset⟩
  case bbit032 rs p offset => exact ⟨_, offset, exec_bbit032 rs p offset⟩
  case bbit1 rs p offset => exact ⟨_, offset, exec_bbit1 rs p offset⟩
  case bbit132 rs p offset => exact ⟨_, offset, exec_bbit132 rs p offset⟩
  all_goals cases h

end meanings

/-- The target is that of signed arithmetic (41_bbit.md R150), taken modulo 2^64. -/
theorem branchTarget_eq_ofInt (pc : Word) (offset : Off16) :
    branchTarget pc offset = BitVec.ofInt 64 (pc.toNat + 4 + 4 * offset.toInt) := by
  rw [branchTarget, branchOffset_eq, BitVec.ofInt_add, BitVec.ofInt_add, BitVec.ofInt_natCast, BitVec.ofNat_toNat,
    BitVec.setWidth_eq]
  rfl

/-- Outside a delay slot a branch changes pc and the delay state only. -/
theorem branchOn_enters {s : State} (taken : Bool) (offset : Off16) (hd : s.delay = none) :
    ∃ t, branchOn taken offset s = .next t ∧ t.pc = s.pc + 4#64 ∧
      t.delay = some (if taken then BitVec.ofInt 64 (s.pc.toNat + 4 + 4 * offset.toInt) else s.pc + 8#64) ∧
      SameRegs s t ∧ SameMem s t ∧ t.mul = s.mul ∧ SameConfig s t ∧ SameRecord s t := by
  rw [← branchTarget_eq_ofInt]
  exact ⟨_, branchOn_next.mpr ⟨hd, rfl⟩, rfl, rfl, fun _ => rfl, fun _ => rfl, rfl, SameConfig.refl s, rfl, rfl⟩

/-- Settles O28: each of the four is the shared shape on the bit it tests. -/
theorem branchOnBitEntersDelaySlot : Obligations.BranchOnBitEntersDelaySlot := by
  intro rs p offset s i taken hd hi
  obtain ⟨rfl, rfl⟩ | ⟨rfl, rfl⟩ | ⟨rfl, rfl⟩ | ⟨rfl, rfl⟩ := hi
  · rw [exec_bbit0]; exact branchOn_enters _ offset hd
  · rw [exec_bbit032]; exact branchOn_enters _ offset hd
  · rw [exec_bbit1]; exact branchOn_enters _ offset hd
  · rw [exec_bbit132]; exact branchOn_enters _ offset hd

/-- Settles O29: the shared shape tests the delay slot first. -/
theorem branchInDelaySlotFaults : Obligations.BranchInDelaySlotFaults := by
  intro i s hi hd
  obtain ⟨taken, offset, hexec⟩ := exec_of_isBranch hi
  rw [hexec]
  exact branchOn_fault (Option.isSome_iff_ne_none.mpr hd)

/-- How far a pending target lies from the delay slot: the field is 16 bits, signed and scaled by 4. -/
theorem four_mul_offset_range (offset : Off16) : -131072 ≤ 4 * offset.toInt ∧ 4 * offset.toInt ≤ 131068 := by
  have hlow := offset.le_toInt
  have hhigh := offset.toInt_lt
  omega

/-- Settles O30: the pending target is the branch target or the word after the slot. -/
theorem branchTargetRange : Obligations.BranchTargetRange := by
  intro i s t hi h
  obtain ⟨taken, offset, hexec⟩ := exec_of_isBranch hi
  obtain ⟨-, rfl⟩ := branchOn_next.mp ((hexec s).symm.trans h)
  cases taken s with
  | true =>
    obtain ⟨hlow, hhigh⟩ := four_mul_offset_range offset
    have htarget : branchTarget s.pc offset = s.pc + 4#64 + BitVec.ofInt 64 (4 * offset.toInt) := by
      rw [branchTarget, branchOffset_eq]
    exact ⟨_, 4 * offset.toInt, rfl, hlow, hhigh, Int.mul_emod_right 4 _, htarget, branchTarget_mod_four offset⟩
  | false =>
    have hnext : s.pc + 8#64 = s.pc + 4#64 + BitVec.ofInt 64 4 := (BitVec.add_assoc s.pc 4#64 4#64).symm
    exact ⟨_, 4, rfl, by decide, by decide, rfl, hnext, fun hpc => toNat_add_mod_four hpc rfl⟩

end Sys2Proof.Machine
end

section
/-! PROOFS. The moves into the multiplier unit and two sequences on it (45_multiplier_regs.md R190 to R195; 49_vmul.md
R265, R268): the words of format F5, what each move leaves, VMM0 against VMULU and MTM0, and V3MULU as a readout. -/

namespace Sys2Proof.Machine

/-- Format F5 (30_encoding.md R106) as a union: opcode, function value and the field, each at its place. -/
theorem encodeF5_eq_or (fn : BitVec 6) (rs : Reg) :
    encodeF5 fn rs = (0x70000000#32 ||| fn.setWidth 32) ||| fieldAt rs 21 := by
  apply BitVec.eq_of_getLsbD_eq
  intro i hi
  simp only [encodeF5, fieldAt, BitVec.getLsbD_or, BitVec.getLsbD_shiftLeft, BitVec.getLsbD_setWidth]
  repeat rw [getLsbD_field]
  interval_cases i <;> simp

theorem State.onlyWritesMul_withMul_advance (s : State) (m : MulState) : OnlyWritesMul s (s.withMul m).advance :=
  ⟨fun _ => rfl, fun _ => rfl, SameConfig.refl s, ⟨rfl, rfl⟩, State.wentOn_of_advance rfl rfl⟩

/-- What the statements say of a move into the multiplier unit: its word, the outcome where it is reserved, and the
multiply state it leaves where it is not. -/
def MovesTo (i : Instr) (s : State) (w : InsnWord) (m : MulState) : Prop :=
  encode i = w ∧
  ((s.ops64 = false ∨ s.cvmCtl.nomul = true) → ∃ t, exec i s = .next t ∧
    OnlyRaises .reservedInstruction (.insn w) s t) ∧
  (s.ops64 = true → s.cvmCtl.nomul = false → ∃ t, exec i s = .next t ∧ t.mul = m ∧ OnlyWritesMul s t)

theorem movesTo_of_exec {i : Instr} {s : State} {w : InsnWord} {m : State → MulState}
    (hexec : exec i s = needMul i (fun s => setMulAndAdvance (m s) s) s) (hw : encode i = w) : MovesTo i s w (m s) := by
  subst hw
  refine ⟨rfl, fun hoff => ?reserved, fun h hn => ?completes⟩
  case reserved => rw [hexec]; exact needMul_raises hoff
  case completes =>
    exact ⟨_, hexec.trans (needMul_setsMul h hn), rfl, s.onlyWritesMul_withMul_advance (m s)⟩

/-- Settles O37: the loaded state, with the moved word in its place. -/
theorem mtmLoadsMultiplier : Obligations.MtmLoadsMultiplier := by
  intro rs s i w m hi
  obtain ⟨rfl, rfl, rfl⟩ | ⟨rfl, rfl, rfl⟩ | ⟨rfl, rfl, rfl⟩ := hi
  · exact movesTo_of_exec (exec_mtm0 rs s) (encodeF5_eq_or 0x08#6 rs)
  · exact movesTo_of_exec (exec_mtm1 rs s) (encodeF5_eq_or 0x0C#6 rs)
  · exact movesTo_of_exec (exec_mtm2 rs s) (encodeF5_eq_or 0x0D#6 rs)

/-- Settles O38: the preset state, with the moved word in its place. -/
theorem mtpLoadsProduct : Obligations.MtpLoadsProduct := by
  intro rs s i w m dirty hdirty hi
  subst hdirty
  obtain ⟨rfl, rfl, rfl⟩ | ⟨rfl, rfl, rfl⟩ | ⟨rfl, rfl, rfl⟩ := hi
  · exact movesTo_of_exec (exec_mtp0 rs s) (encodeF5_eq_or 0x09#6 rs)
  · exact movesTo_of_exec (exec_mtp1 rs s) (encodeF5_eq_or 0x0A#6 rs)
  · exact movesTo_of_exec (exec_mtp2 rs s) (encodeF5_eq_or 0x0B#6 rs)

/-! ### VMM0 as VMULU and MTM0 -/

section frames
variable {d : Reg} {v : Word} {s t u : State}

/-- Two states with the same value written to the same register read the same registers. -/
theorem WroteReg.sameRegs_of_same (ht : WroteReg d v s t) (hu : WroteReg d v s u) : SameRegs t u := by
  obtain ⟨htself, htother⟩ := ht
  obtain ⟨huself, huother⟩ := hu
  intro r
  by_cases hr : r = d
  · rw [hr, htself, huself]
  · rw [htother r hr, huother r hr]

theorem SameConfig.symm (h : SameConfig s t) : SameConfig t s := by
  obtain ⟨hctl, hmem, hops, hadm, htext, hhalt⟩ := h
  exact ⟨hctl.symm, hmem.symm, hops.symm, hadm.symm, htext.symm, hhalt.symm⟩

theorem SameConfig.trans (h : SameConfig s t) (h' : SameConfig t u) : SameConfig s u := by
  obtain ⟨hctl, hmem, hops, hadm, htext, hhalt⟩ := h
  obtain ⟨hctl', hmem', hops', hadm', htext', hhalt'⟩ := h'
  exact ⟨hctl'.trans hctl, hmem'.trans hmem, hops'.trans hops, hadm'.trans hadm, htext'.trans htext,
    hhalt'.trans hhalt⟩

end frames

section completes
variable {rd rs rt : Reg} {s : State}

theorem exec_vmm0_completes (h : s.ops64 = true) (hn : s.cvmCtl.nomul = false) (hcheck : s.mul.breaksVmulu = false) :
    ∃ t, exec (.vmm0 rd rs rt) s = .next t ∧
      WritesWithMul rd (limb (s.mul.sum1 (s.readReg rs) (s.readReg rt)) 0) s t ∧
      t.mul = s.vmm0Mul rd (s.mul.sum1 (s.readReg rs) (s.readReg rt)) := by
  rw [exec_vmm0, needMul_enabled h hn]
  obtain ⟨t, hnext, hframe, hmul⟩ := multiplyAdd_completes hcheck
  exact ⟨t, hnext, writesWithMul_withMul.mp (writesWithMul_drew.mp hframe), hmul⟩

theorem exec_vmulu_completes (h : s.ops64 = true) (hn : s.cvmCtl.nomul = false)
    (hcheck : s.mul.breaksVmulu = false) :
    ∃ t, exec (.vmulu rd rs rt) s = .next t ∧
      WritesWithMul rd (limb (s.mul.sum1 (s.readReg rs) (s.readReg rt)) 0) s t ∧
      t.mul = s.vmuluMul (s.mul.sum1 (s.readReg rs) (s.readReg rt)) := by
  rw [exec_vmulu, needMul_enabled h hn]
  obtain ⟨t, hnext, hframe, hmul⟩ := multiplyAdd_completes hcheck
  exact ⟨t, hnext, writesWithMul_withMul.mp (writesWithMul_drew.mp hframe), hmul⟩

end completes

/-- Settles O43: both write the low word of the same sum to x[rd]; MTM0 then loads it from there, and zeroes and sets
the rest as VMM0 does. -/
theorem vmm0IsVmuluThenMtm0 : Obligations.Vmm0IsVmuluThenMtm0 := by
  intro rd rs rt s h hn hdirty hseq
  have hcheck := MulState.breaksVmulu_eq_false hdirty hseq
  obtain ⟨t, htnext, ⟨htreg, htmem, htconfig, -⟩, htmul⟩ := exec_vmm0_completes (rd := rd) (rs := rs) (rt := rt)
    h hn hcheck
  obtain ⟨u, hunext, ⟨hureg, humem, huconfig, -⟩, humul⟩ := exec_vmulu_completes (rd := rd) (rs := rs) (rt := rt)
    h hn hcheck
  obtain ⟨hctl, -, hops, -⟩ := id huconfig
  have hmtm := (exec_mtm0 rd u).trans (needMul_setsMul (hops.trans h) (by rw [hctl, hn]))
  refine ⟨t, u, _, htnext, hunext, hmtm, htreg.sameRegs_of_same hureg, fun a => (humem a).trans (htmem a).symm,
    htconfig.symm.trans huconfig, fun hrd => ?mpl0, ?rest⟩
  case mpl0 =>
    obtain ⟨hself, -⟩ := hureg
    simp [htmul, hself, hrd]
  case rest => simp [htmul, humul]

/-! ### V3MULU as a readout -/

theorem MulState.sum3_zero (m : MulState) : m.sum3 0#64 0#64 = m.accumulator := by
  simp [MulState.sum3]

/-- The words of the accumulator are P0 to P2, and there is nothing above them. -/
theorem limbs_accumulator (m : MulState) : limb m.accumulator 0 = m.p0 ∧ limb m.accumulator 1 = m.p1 ∧
    limb m.accumulator 2 = m.p2 ∧ limb m.accumulator 3 = 0#64 := by
  have h0 := m.p0.isLt
  have h1 := m.p1.isLt
  have h2 := m.p2.isLt
  refine ⟨?_, ?_, ?_, ?_⟩ <;> apply BitVec.eq_of_toNat_eq <;> rw [limb_toNat, MulState.accumulator_eq]
  · omega
  · omega
  · omega
  · simp only [BitVec.toNat_ofNat]; omega

/-- Settles O44: with both operands 0 the sum is the accumulator. -/
theorem v3muluDrainsAccumulator : Obligations.V3muluDrainsAccumulator := by
  intro rd s h hn hdirty
  obtain ⟨hp0, hp1, hp2, hzero⟩ := limbs_accumulator s.mul
  rw [exec_v3mulu, needMul_enabled h hn, State.readReg_zero, MulState.sum3_zero]
  obtain ⟨t, hnext, hframe, hm⟩ := multiplyAdd_completes (MulState.breaksV3mulu_eq.trans hdirty)
  refine ⟨t, hnext, ?frame, ?mul⟩
  case frame => rw [hp0] at hframe; exact writesWithMul_withMul.mp hframe
  case mul => rw [hm, State.withMul_mul, State.v3muluMul, hp1, hp2, hzero]

end Sys2Proof.Machine
end

section
/-! PROOFS. The barriers and the NOP forms (47_sync.md R220 to R224; 48_unaligned.md R243). -/

namespace Sys2Proof.Machine

/-- What a barrier does, whatever its event. -/
theorem barrier_records (e : BarrierEvent) (s : State) :
    ∃ t, barrier e s = .next t ∧ t.history = s.history ++ [e] ∧ t.exception = s.exception ∧
      SameRegs s t ∧ SameMem s t ∧ t.mul = s.mul ∧ SameConfig s t ∧ WentOn s t :=
  ⟨_, barrier_next.mpr rfl, rfl, rfl, fun _ => rfl, fun _ => rfl, rfl, SameConfig.refl s,
    State.wentOn_of_advance rfl rfl⟩

/-- Settles O47: each of the four is the shared shape with its own event. -/
theorem barriersOnlyRecord : Obligations.BarriersOnlyRecord := by
  intro s i e hi
  obtain ⟨rfl, rfl⟩ | ⟨rfl, rfl⟩ | ⟨rfl, rfl⟩ | ⟨rfl, rfl⟩ := hi
  all_goals exact barrier_records _ s

theorem State.onlyGoesOn_advance (s : State) : OnlyGoesOn s s.advance :=
  ⟨fun _ => rfl, fun _ => rfl, rfl, SameConfig.refl s, ⟨rfl, rfl⟩, State.wentOn_of_advance rfl rfl⟩

theorem exec_of_isDoublewordNop {i : Instr} (h : isDoublewordNop i = true) (s : State) :
    exec i s = doublewordNopForm s := by
  cases i
  case nopLdl | nopLdr | nopSdl | nopSdr => rfl
  all_goals cases h

/-- Settles O53: the word forms test nothing, the doubleword forms `ops64`. -/
theorem nopFormsOnlyGoOn : Obligations.NopFormsOnlyGoOn := by
  intro rt offset base s i hi
  refine ⟨s.advance, ?_, s.onlyGoesOn_advance⟩
  obtain rfl | rfl | rfl | rfl | ⟨h, hi⟩ := hi
  case inr.inr.inr.inr =>
    have hnop : isDoublewordNop i = true := by obtain rfl | rfl | rfl | rfl := hi <;> rfl
    rw [exec_of_isDoublewordNop hnop]
    exact doublewordNopForm_next.mpr ⟨h, rfl⟩
  all_goals exact nopForm_next.mpr rfl

/-- Settles O54: the test of `ops64` fails. -/
theorem doublewordNopRefusedWithout64 : Obligations.DoublewordNopRefusedWithout64 := by
  intro i s hi h
  rw [exec_of_isDoublewordNop hi]
  simp [doublewordNopForm, State.enabled64, h]

end Sys2Proof.Machine
end

section
/-! PROOFS. The unaligned loads and stores (20_memory.md R62 to R72; 48_unaligned.md R237 to R245): the parts of an
access, the bytes of a value that is loaded or stored, what each access does, and what a load reads of a store. -/

namespace Sys2Proof.Machine

/-! ### The parts of an access -/

section parts
variable {ea : Word} {n : Nat}

theorem accessParts_within (h : ea.toNat % 8 + n ≤ 8) : accessParts ea n = [⟨ea, n⟩] := if_pos h

/-- The part after the first starts on the boundary: 2^64 is a multiple of 8. -/
theorem toNat_boundary_mod_eight (ea : Word) : (ea + BitVec.ofNat 64 (8 - ea.toNat % 8)).toNat % 8 = 0 := by
  rw [BitVec.toNat_add, BitVec.toNat_ofNat]
  omega

end parts

/-- Settles O48: one part where the access stays within a doubleword, and the two of `accessParts_crossing` where it
does not. -/
theorem partsStayInDoubleword : Obligations.PartsStayInDoubleword := by
  intro ea n hpos hle
  by_cases hwithin : ea.toNat % 8 + n ≤ 8
  · rw [accessParts_within hwithin]
    have hsame : ea.toNat / 8 = (ea.toNat + n - 1) / 8 := by omega
    simp [hpos, hwithin, ← hsame]
  · rw [accessParts_crossing (Nat.lt_of_not_le hwithin)]
    have hboundary := toNat_boundary_mod_eight ea
    have hcross : ea.toNat / 8 ≠ (ea.toNat + n - 1) / 8 := by omega
    refine ⟨?each, ?sum, rfl, ?second, ?one⟩
    case each =>
      simp only [List.mem_cons, List.not_mem_nil, or_false, forall_eq_or_imp, forall_eq]
      omega
    case sum =>
      simp only [List.map_cons, List.map_nil, List.sum_cons, List.sum_nil]
      omega
    case second => simpa using hboundary
    case one => simp [hcross]

/-! ### The bytes of a value -/

/-- The place of byte `k` of an `n`-byte value in byte order `le`, counted from the least significant. -/
def bytePlace (le : Bool) (n k : Nat) : Nat := if le then k else n - 1 - k

section bytes
variable {le : Bool} {n k : Nat} {v : Word}

theorem bytePlace_lt (h : k < n) : bytePlace le n k < n := by
  unfold bytePlace
  split <;> omega

/-- Counting the places from the other end and back gives the byte. -/
theorem bytePlace_bytePlace (h : k < n) : bytePlace le n (bytePlace le n k) = k := by
  cases le
  · show n - 1 - (n - 1 - k) = k
    omega
  · rfl

theorem byteAt_eq_ofNat (le : Bool) (n : Nat) (v : Word) (k : Nat) :
    byteAt le n v k = BitVec.ofNat 8 (v.toNat / 256 ^ bytePlace le n k) := by
  apply BitVec.eq_of_toNat_eq
  rw [byteAt, BitVec.extractLsb'_toNat, BitVec.toNat_ofNat, Nat.shiftRight_eq_div_pow, pow_mul,
    show (2 : Nat) ^ 8 = 256 from rfl, bytePlace]

/-- The bytes that a store writes are those the statements name. -/
theorem natToBytes_getElem_eq_byteAt (h : k < n) :
    (natToBytes le n v.toNat)[k]'(by simpa using h) = byteAt le n v k := by
  rw [natToBytes_getElem le n v.toNat k h, byteAt_eq_ofNat, bytePlace]

/-- A byte of the value read from `n` bytes of memory is the byte of memory in its place. -/
theorem memRead_div_mod {s : State} {ea : Word} (h : k < n) :
    s.memRead ea n / 256 ^ k % 256 = (s.readByte (ea + BitVec.ofNat 64 (bytePlace s.cvmCtl.le n k))).toNat := by
  rw [State.memRead, bytesToNat_div_mod _ _ _ (by simpa using h)]
  simp only [Memory.readBytes_length]
  rw [State.readByte, ← Memory.readBytes_getElem _ _ _ _ (bytePlace_lt h)]
  rfl

/-- A byte of the low `n` is decided by the value modulo 256^n. -/
theorem div_pow_mod_of_mod_eq {a b j : Nat} (h : a % 256 ^ n = b % 256 ^ n) (hj : j < n) :
    a / 256 ^ j % 256 = b / 256 ^ j % 256 := by
  have hdvd : 256 ^ j * 256 ∣ 256 ^ n := pow_succ 256 j ▸ pow_dvd_pow 256 hj
  rw [← Nat.mod_mul_right_div_self a, ← Nat.mod_mul_right_div_self b, ← Nat.mod_mod_of_dvd a hdvd, h,
    Nat.mod_mod_of_dvd b hdvd]

/-- A value whose low `n` bytes are those read from memory has there the bytes of memory, each in its place. -/
theorem byteAt_of_memRead {s : State} {ea : Word} (hv : v.toNat % 256 ^ n = s.memRead ea n % 256 ^ n) (hk : k < n) :
    byteAt s.cvmCtl.le n v k = s.readByte (ea + BitVec.ofNat 64 k) := by
  have hplace := bytePlace_lt (le := s.cvmCtl.le) hk
  apply BitVec.eq_of_toNat_eq
  rw [byteAt_eq_ofNat, BitVec.toNat_ofNat, div_pow_mod_of_mod_eq hv hplace, memRead_div_mod hplace,
    bytePlace_bytePlace hk]

end bytes

/-- The effective address is that of signed arithmetic (20_memory.md R72), taken modulo 2^64. -/
theorem effectiveAddress_eq_ofInt (base : Word) (offset : Off16) :
    effectiveAddress base offset = BitVec.ofInt 64 (base.toNat + offset.toInt) := by
  rw [effectiveAddress, memOffset, BitVec.ofInt_add, BitVec.ofInt_natCast, BitVec.ofNat_toNat, BitVec.setWidth_eq,
    BitVec.signExtend]

/-- The low half of a sign-extended word is the word. -/
theorem setWidth_signExtend_word (x : BitVec 32) : (x.signExtend 64).setWidth 32 = x := by
  apply BitVec.eq_of_getLsbD_eq
  intro j hj
  have hj64 : j < 64 := by omega
  simp only [BitVec.getLsbD_setWidth, BitVec.getLsbD_signExtend, hj, hj64, decide_true, Bool.true_and, if_true]

/-! ### Loads -/

/-- Settles O49: the value is read from memory byte by byte, and nothing but x[rt] is written. -/
theorem uldLoadsDoubleword : Obligations.UldLoadsDoubleword := by
  intro rt offset base s i hi h ea hadm
  refine ⟨effectiveAddress_eq_ofInt _ _, _, BitVec.ofNat 64 (s.memRead ea 8), ?_,
    s.onlyWrites_writeReg_advance rt _, fun k hk => byteAt_of_memRead ?_ hk⟩
  · rw [exec_uld hi, need64_enabled h, loadUnaligned_admitted hadm]
  · rw [BitVec.toNat_ofNat]
    exact Nat.mod_mod _ _

/-- Settles O50: sign extension leaves the four loaded bytes as they are. -/
theorem ulwLoadsSignedWord : Obligations.UlwLoadsSignedWord := by
  intro rt offset base s i hi ea hadm
  have hlow := setWidth_signExtend_word (BitVec.ofNat 32 (s.memRead ea 4))
  refine ⟨_, (BitVec.ofNat 32 (s.memRead ea 4)).signExtend 64, ?_, s.onlyWrites_writeReg_advance rt _,
    by rw [hlow], fun k hk => byteAt_of_memRead ?_ hk⟩
  · rw [exec_ulw hi, loadUnaligned_admitted hadm]
  · simpa using congrArg BitVec.toNat hlow

section loads
variable {rt base : Reg} {offset : Off16} {i : Instr} {s : State}

/-- `i` is the load of `n` bytes with these operands, and is not reserved. -/
def LoadsUnreserved (rt : Reg) (offset : Off16) (base : Reg) (n : Nat) (i : Instr) (s : State) : Prop :=
  (n = 8 ∧ s.ops64 = true ∧ (i = .uldLeft rt offset base ∨ i = .uldRight rt offset base)) ∨
    (n = 4 ∧ (i = .ulwLeft rt offset base ∨ i = .ulwRight rt offset base))

theorem LoadsUnreserved.exec_eq {n : Nat} (hi : LoadsUnreserved rt offset base n i s) :
    ∃ val, exec i s = loadUnaligned rt (effectiveAddress (s.readReg base) offset) n val s := by
  obtain ⟨rfl, h, hi⟩ | ⟨rfl, hi⟩ := hi
  · exact ⟨_, (exec_uld hi s).trans (need64_enabled h)⟩
  · exact ⟨_, exec_ulw hi s⟩

/-- The first part that is not admitted decides. -/
theorem checkLoad_of_first_raises {p : Admission} {e : AddrExc} {before : List Part} {q : Part} {after : List Part}
    (hbefore : ∀ b ∈ before, p.answerFor b.addr b.len .load = .ok)
    (hq : p.answerFor q.addr q.len .load = .raise e) : checkLoad p (before ++ q :: after) = .raised e q.addr := by
  induction before with
  | nil => simp [checkLoad, hq]
  | cons b bs ih =>
    rw [List.forall_mem_cons] at hbefore
    obtain ⟨hb, hbs⟩ := hbefore
    simpa [checkLoad, hb] using ih hbs

end loads

/-- Settles O55: the parts are asked in address order, and x[rt] is written only after all of them. -/
theorem loadRaisesFirstRefusedPart : Obligations.LoadRaisesFirstRefusedPart := by
  intro rt offset base s i n e before q after hi hparts hbefore hq
  obtain ⟨val, hexec⟩ := LoadsUnreserved.exec_eq hi
  refine ⟨s.raise (.access e) (.address q.addr), ?_, rfl⟩
  rw [hexec, loadUnaligned_next, hparts, checkLoad_of_first_raises hbefore hq]
  exact .inr ⟨e, q.addr, rfl, rfl⟩

/-! ### Stores -/

section stores
variable {rt base : Reg} {offset : Off16} {i : Instr} {s t : State} {ea : Word} {n k : Nat} {v : Word}

/-- What an admitted store of at most 2^64 bytes does. -/
theorem storeUnaligned_stores (hwf : s.mem.wf = true) (hn : n ≤ 2 ^ 64) (hclear : ClearOfText s ea n)
    (hadm : AllAdmitted s ea n .store) :
    ∃ t, storeUnaligned ea n v s = .next t ∧ OnlyStores ea n s t ∧ t.mem.wf = true ∧
      ∀ k < n, t.readByte (ea + BitVec.ofNat 64 k) = byteAt s.cvmCtl.le n v k := by
  have hlen : (natToBytes s.cvmCtl.le n v.toNat).length = n := natToBytes_length ..
  refine ⟨_, storeUnaligned_admitted hclear hadm, ⟨fun _ => rfl, fun a ha => ?outside, rfl, SameConfig.refl s,
    ⟨rfl, rfl⟩, State.wentOn_of_advance rfl rfl⟩, Memory.writeBytes_wf ea _ hwf, fun k hk => ?inside⟩
  case outside => exact Memory.read_writeBytes_of_length_le hlen.le ha
  case inside =>
    have hread := Memory.read_writeBytes_inside s.mem ea _ hwf (hlen.trans_le hn) k (hk.trans_eq hlen.symm)
    exact hread.trans (natToBytes_getElem_eq_byteAt hk)

/-- `i` is the store of `n` bytes with these operands, and is not reserved. -/
def StoresUnreserved (rt : Reg) (offset : Off16) (base : Reg) (n : Nat) (i : Instr) (s : State) : Prop :=
  (n = 8 ∧ s.ops64 = true ∧ (i = .usdLeft rt offset base ∨ i = .usdRight rt offset base)) ∨
    (n = 4 ∧ (i = .uswLeft rt offset base ∨ i = .uswRight rt offset base))

theorem StoresUnreserved.exec_eq (hi : StoresUnreserved rt offset base n i s) :
    exec i s = storeUnaligned (effectiveAddress (s.readReg base) offset) n (s.readReg rt) s := by
  obtain ⟨rfl, h, hi⟩ | ⟨rfl, hi⟩ := hi
  · exact (exec_usd hi s).trans (need64_enabled h)
  · exact exec_usw hi s

theorem storeUnaligned_raises {m : Memory} {e : AddrExc} {a : Word} (hclear : ClearOfText s ea n)
    (h : storeParts s.admission s.mem (accessParts ea n) (natToBytes s.cvmCtl.le n v.toNat) = .raised m e a) :
    storeUnaligned ea n v s = .next ((s.withMem m).raise (.access e) (.address a)) :=
  storeUnaligned_next.mpr ⟨hclear, .inr ⟨m, e, a, h, rfl⟩⟩

/-- Two parts are the bytes up to the boundary and the rest, neither empty. -/
theorem accessParts_eq_two {q1 q2 : Part} (h : accessParts ea n = [q1, q2]) : q1.addr = ea ∧ q1.len < n := by
  by_cases hwithin : ea.toNat % 8 + n ≤ 8
  · rw [accessParts_within hwithin] at h
    cases h
  · rw [accessParts_crossing (Nat.lt_of_not_le hwithin)] at h
    cases h
    exact ⟨rfl, by show 8 - ea.toNat % 8 < n; omega⟩

/-- Where the first part is refused with an exception nothing is stored. -/
theorem storeUnaligned_first_raises {e : AddrExc} {q : Part} {after : List Part} (hclear : ClearOfText s ea n)
    (hparts : accessParts ea n = q :: after) (hq : s.admission.answerFor q.addr q.len .store = .raise e) :
    storeUnaligned ea n v s = .next (s.raise (.access e) (.address q.addr)) := by
  refine storeUnaligned_raises (m := s.mem) hclear ?_
  simp [hparts, storeParts, hq]

/-- Where the second part is refused with an exception the bytes of the first are stored. -/
theorem storeUnaligned_second_raises {e : AddrExc} {q1 q2 : Part} (hclear : ClearOfText s ea n)
    (hparts : accessParts ea n = [q1, q2]) (hq1 : s.admission.answerFor q1.addr q1.len .store = .ok)
    (hq2 : s.admission.answerFor q2.addr q2.len .store = .raise e) :
    storeUnaligned ea n v s =
      .next ((s.withMem (s.mem.writeBytes ea ((natToBytes s.cvmCtl.le n v.toNat).take q1.len))).raise (.access e)
        (.address q2.addr)) := by
  obtain ⟨rfl, -⟩ := accessParts_eq_two hparts
  refine storeUnaligned_raises hclear ?_
  simp [hparts, storeParts, hq1, hq2]

/-- The first bytes of a stored value, in memory. -/
theorem Memory.read_stored_prefix {m : Memory} {l : Nat} (hwf : m.wf = true) (hn : n ≤ 2 ^ 64) (hl : l ≤ n)
    (hk : k < l) {le : Bool} :
    (m.writeBytes ea ((natToBytes le n v.toNat).take l)).read (ea + BitVec.ofNat 64 k).toNat = byteAt le n v k := by
  have hlen : ((natToBytes le n v.toNat).take l).length = l := by simp [hl]
  rw [Memory.read_writeBytes_inside m ea _ hwf (by omega) k (hk.trans_eq hlen.symm), List.getElem_take,
    natToBytes_getElem_eq_byteAt (hk.trans_le hl)]

end stores

/-- Settles O51: a store of eight bytes behind the test of `ops64`. -/
theorem usdStoresDoubleword : Obligations.UsdStoresDoubleword := by
  intro rt offset base s i hi h hwf ea hadm hclear
  rw [exec_usd hi, need64_enabled h]
  exact storeUnaligned_stores hwf (by decide) hclear hadm

/-- Settles O52: a store of four bytes with no test before it; the bytes are those of the low word (log 30). -/
theorem uswStoresLowWord : Obligations.UswStoresLowWord := by
  intro rt offset base s i hi hwf ea hadm hclear
  rw [exec_usw hi]
  exact storeUnaligned_stores hwf (by decide) hclear hadm

/-- Settles O57: the text is tested before any part is. -/
theorem storeOverTextRefused : Obligations.StoreOverTextRefused := by
  intro rt offset base s i n k hi hk htext
  rw [StoresUnreserved.exec_eq hi, storeUnaligned_refused]
  refine .inl ⟨rfl, fun hclear => ?_⟩
  cases (hclear k hk).symm.trans htext

/-- Settles O56: a part is stored once it and those before it are admitted, and the outcome is recorded on top. -/
theorem refusedStorePartiallyCompletes : Obligations.RefusedStorePartiallyCompletes := by
  intro rt offset base s i n e hi ea hclear hwf
  have hexec : exec i s = storeUnaligned ea n (s.readReg rt) s := StoresUnreserved.exec_eq hi
  rw [hexec]
  refine ⟨fun q after hparts hq => ⟨_, storeUnaligned_first_raises hclear hparts hq, rfl⟩,
    fun q1 q2 hparts hq1 hq2 => ?second⟩
  case second =>
    obtain ⟨-, hlt⟩ := accessParts_eq_two hparts
    have hn : n ≤ 2 ^ 64 := by obtain ⟨rfl, -⟩ | ⟨rfl, -⟩ := hi <;> decide
    obtain ⟨hregs, hframe⟩ := s.keepsAllButMem_raise
      (s.mem.writeBytes ea ((natToBytes s.cvmCtl.le n (s.readReg rt).toNat).take q1.len)) (.access e)
      (.address q2.addr)
    exact ⟨_, storeUnaligned_second_raises hclear hparts hq1 hq2, rfl,
      fun k hk => Memory.read_stored_prefix hwf hn hlt.le hk,
      fun a ha => Memory.read_writeBytes_of_length_le (List.length_take_le ..) ha, hregs, hframe⟩

/-! ### What a load reads of a store -/

section roundTrip
variable {i j : Instr} {rt rt' base : Reg} {offset : Off16} {s t u : State} {ea : Word} {n : Nat} {v : Word}

/-- An instruction that ends without an outcome has passed its test of `ops64`. -/
theorem of_need64_completes {f : State → Host.Outcome State Fault Refusal} (h : need64 i f s = .next t)
    (hexc : t.exception = none) : f s = .next t := by
  obtain ⟨-, hf⟩ | ⟨-, rfl⟩ := need64_next.mp h
  · exact hf
  · simp [State.raiseReserved] at hexc

/-- A store that ends without an outcome has stored all its bytes. -/
theorem storeUnaligned_completes (h : storeUnaligned ea n v s = .next t) (hexc : t.exception = none) :
    t = (s.withMem (s.mem.writeBytes ea (natToBytes s.cvmCtl.le n v.toNat))).advance := by
  obtain ⟨-, ⟨m, hm, rfl⟩ | ⟨m, e, a, -, rfl⟩⟩ := storeUnaligned_next.mp h
  · rw [storeParts_done (natToBytes_length ..) hm]
  · simp at hexc

/-- A load that ends without an outcome has written its value. -/
theorem loadUnaligned_completes {val : Nat → Word} (h : loadUnaligned rt ea n val s = .next t)
    (hexc : t.exception = none) : t.readReg rt = if rt = 0#5 then 0#64 else val (s.memRead ea n) := by
  obtain ⟨-, rfl⟩ | ⟨e, a, -, rfl⟩ := loadUnaligned_next.mp h
  · simp
  · simp at hexc

theorem Memory.readBytes_stored {m : Memory} {le : Bool} {x : Nat} (hwf : m.wf = true) (hn : n ≤ 2 ^ 64) :
    (m.writeBytes ea (natToBytes le n x)).readBytes ea n = natToBytes le n x := by
  have hlen : (natToBytes le n x).length = n := natToBytes_length ..
  simpa only [hlen] using m.readBytes_writeBytes ea (natToBytes le n x) hwf (hlen.trans_le hn)

/-- The low `n` bytes of what was stored are read back. -/
theorem memRead_stored (hwf : s.mem.wf = true) (hn : n ≤ 2 ^ 64) :
    (s.withMem (s.mem.writeBytes ea (natToBytes s.cvmCtl.le n v.toNat))).advance.memRead ea n =
      v.toNat % 256 ^ n := by
  rw [State.memRead, State.advance_mem, State.withMem_mem, Memory.readBytes_stored hwf hn, State.advance_cvmCtl,
    State.withMem_cvmCtl, bytesToNat_natToBytes]

theorem ofNat_mod_toNat (v : Word) : BitVec.ofNat 64 (v.toNat % 256 ^ 8) = v := by
  have hlt : v.toNat < 256 ^ 8 := v.isLt.trans_eq (by norm_num)
  rw [Nat.mod_eq_of_lt hlt, BitVec.ofNat_toNat, BitVec.setWidth_eq]

/-! ### A doubleword as two words -/

theorem leBytes_add (m n x : Nat) : leBytes (m + n) x = leBytes m x ++ leBytes n (x / 256 ^ m) := by
  induction m generalizing x with
  | zero => simp [leBytes]
  | succ m ih =>
    rw [Nat.add_right_comm, leBytes, leBytes, ih, Nat.div_div_eq_div_mul, pow_succ' 256 m, List.cons_append]

/-- The half of a doubleword that stands at the lower address, and the half 4 above it. -/
theorem natToBytes_halves (le : Bool) (x : Nat) : natToBytes le 8 x =
    natToBytes le 4 (if le then x else x / 256 ^ 4) ++ natToBytes le 4 (if le then x / 256 ^ 4 else x) := by
  have h : leBytes 8 x = leBytes 4 x ++ leBytes 4 (x / 256 ^ 4) := leBytes_add 4 4 x
  cases le <;> simp [natToBytes, h]

theorem Memory.readBytes_add (m : Memory) (a : Word) (k n : Nat) :
    m.readBytes a (k + n) = m.readBytes a k ++ m.readBytes (a + BitVec.ofNat 64 k) n := by
  induction k generalizing a with
  | zero => simp [Memory.readBytes]
  | succ k ih =>
    rw [Nat.add_right_comm, Memory.readBytes, Memory.readBytes, ih, addr_succ, List.cons_append]

/-- Which half of a doubleword in memory the word at its address, or 4 above it, is (20_memory.md R62). -/
theorem Memory.readBytes_half {m : Memory} {le : Bool} {x : Nat} (h : m.readBytes ea 8 = natToBytes le 8 x)
    (high : Bool) : m.readBytes (ea + if high = le then 4#64 else 0#64) 4 =
      natToBytes le 4 (if high then x / 256 ^ 4 else x) := by
  rw [Memory.readBytes_add m ea 4 4, natToBytes_halves] at h
  obtain ⟨hlower, hupper⟩ := List.append_inj h (by simp)
  cases le <;> cases high
  case false.false | true.true => simpa using hupper
  case false.true | true.false => simpa using hlower

theorem memRead_half_of_stored (hwf : s.mem.wf = true) (high : Bool) :
    (s.withMem (s.mem.writeBytes ea (natToBytes s.cvmCtl.le 8 v.toNat))).advance.memRead
        (ea + if high = s.cvmCtl.le then 4#64 else 0#64) 4 =
      (if high then v.toNat / 256 ^ 4 else v.toNat) % 256 ^ 4 := by
  have hall := Memory.readBytes_stored (ea := ea) (le := s.cvmCtl.le) (x := v.toNat) hwf (n := 8) (by decide)
  rw [State.memRead, State.advance_mem, State.withMem_mem, Memory.readBytes_half hall high, State.advance_cvmCtl,
    State.withMem_cvmCtl, bytesToNat_natToBytes]

theorem ofNat_half (high : Bool) (v : Word) :
    BitVec.ofNat 32 ((if high then v.toNat / 256 ^ 4 else v.toNat) % 256 ^ 4) =
      v.extractLsb' (if high then 32 else 0) 32 := by
  apply BitVec.eq_of_toNat_eq
  rw [BitVec.toNat_ofNat, BitVec.extractLsb'_toNat, Nat.shiftRight_eq_div_pow]
  cases high <;> simp

end roundTrip

/-- Settles O58: all eight bytes come back, in the byte order they were stored in. -/
theorem storedDoublewordLoadsBack : Obligations.StoredDoublewordLoadsBack := by
  intro rt rt' offset base s t u i j hwf _ hi hj hstore ht hload hu
  rw [exec_usd hi] at hstore
  rw [exec_uld hj] at hload
  have hstored := of_need64_completes hstore ht
  have hloaded := of_need64_completes hload hu
  obtain rfl := storeUnaligned_completes hstored ht
  have hread := loadUnaligned_completes hloaded hu
  rwa [State.readReg_advance, State.readReg_withMem, memRead_stored hwf (by decide), ofNat_mod_toNat] at hread

/-- Settles O59: the four bytes come back, as the low word they were stored from. -/
theorem storedWordLoadsBack : Obligations.StoredWordLoadsBack := by
  intro rt rt' offset base s t u i j hwf _ hi hj hstore ht hload hu
  rw [exec_usw hi] at hstore
  rw [exec_ulw hj] at hload
  obtain rfl := storeUnaligned_completes hstore ht
  have hlow : BitVec.ofNat 32 ((s.readReg rt).toNat % 256 ^ 4) = (s.readReg rt).setWidth 32 := by
    apply BitVec.eq_of_toNat_eq
    simp
  have hread := loadUnaligned_completes hload hu
  rwa [State.readReg_advance, State.readReg_withMem, memRead_stored hwf (by decide), hlow] at hread

/-- Settles O60: the eight stored bytes are the four of one half and then the four of the other. -/
theorem storedDoublewordReadsAsWords : Obligations.StoredDoublewordReadsAsWords := by
  intro rt rt' offset offset' base base' s t u i j high hwf _ hi hj haddr hstore ht hload hu
  rw [exec_usd hi] at hstore
  rw [exec_ulw hj] at hload
  have hstored := of_need64_completes hstore ht
  obtain rfl := storeUnaligned_completes hstored ht
  have hread := loadUnaligned_completes hload hu
  rwa [State.readReg_advance, State.readReg_withMem, haddr, memRead_half_of_stored hwf, ofNat_half] at hread

end Sys2Proof.Machine
end
